-- ==== Sys2Proof/Word.lean ====
section
/-! DEFINITION. The machine's units of data: a byte (R12), the collaborator's 32-bit error word (R9 `ERRINFO_BITS`), the
four bytes of the working register `s` (R22) and a canonical pixel (R12, R113). -/

namespace Sys2Proof

/-- A byte is 8 bits in every address space (R12, R50). -/
abbrev Byte := BitVec 8

/-- The opaque error word of a collaborator (R9, R296). -/
abbrev ErrWord := BitVec 32

/-- Four bytes in stream order: the working register `s`, of which `bpp` bytes are used (R22). -/
structure Quad where
  b0 : Byte
  b1 : Byte
  b2 : Byte
  b3 : Byte
deriving DecidableEq, Repr

/-- A canonical pixel: red, green, blue, alpha (R12, R113). -/
structure Pixel where
  r : Byte
  g : Byte
  b : Byte
  a : Byte
deriving DecidableEq, Repr

end Sys2Proof
end

