-- ==== Sys2Proof/Config.lean ====
section
/-! DEFINITION. What an implementation fixes (R9), the open parameter of the host model (D29), and the free values: the
places where the spec says a value is unspecified. A free value has no body, so nothing can be proved about it. -/

namespace Sys2Proof.Config

/-- `MAX_PACKET_RUN` (R9): the longest run one packet header can state. -/
def maxPacketRun : Nat := 128

/-- `CANON_BPP` (R9): bytes of one canonical pixel. -/
def canonBpp : Nat := 4

/-- `SRC_DEPTHS` (R9): the depths a decode command accepts. -/
def srcDepths : List (BitVec 8) := [16, 24, 32]

/-- `DST_DEPTHS` (R9): the depths an encode command accepts. -/
def dstDepths : List (BitVec 8) := [24, 32]

/-- The largest PIX space the 16-bit dimension registers can describe: `4 × 65535 × 65535` bytes (R13, R66). -/
def pixSpace : Nat := 4 * (65535 * 65535)

/-- The places where the spec leaves a value unspecified and the machine goes on. -/
inductive FreeUse
  | hdr | mode | runLength | s0 | s1 | s2 | s3 | pR | pG | pB | pA | maxRunLen | runLen | count
  | pixIdx | iPos | oPos
  | pixByte (addr : Nat)
  | inTaken | outTaken
deriving DecidableEq, Repr, Inhabited

/-- The free values (R22, R301, R332, U4, U5, U7): for each width, each place and each tick of the state's counter a bit
vector of which nothing is known. -/
opaque freeBits (w : Nat) (place : FreeUse) (tick : Nat) : BitVec w

/-- The three candidates of the open parameter `SKIP_SHORT_ERROR` (R9, D29). -/
inductive SkipShort
  | unexpectedEOF | missingHeader | streamError
deriving DecidableEq, Repr, Inhabited

/-- `SKIP_SHORT_ERROR` (D29): which error kind the host Decoder reports when IN ends inside the skipped region. OPEN. -/
opaque skipShortError : SkipShort

end Sys2Proof.Config
end

