-- ==== Sys2Proof/Syntax.lean ====
section
/-! DEFINITION. The instructions: one constructor for each row of spec/opcode_table.json (R107). -/

namespace Sys2Proof

/-- The block's operations. A packet carries its run length (R93, R104), the value 1..128 and not the `LEN` field; its
payload is read by its meaning. Commands take their operands from registers (R100), converter operations theirs from
the working registers (R130, R136). -/
inductive Instr
  | raw (runLength : Nat)
  | rpt (runLength : Nat)
  | clr
  | decDirect
  | decRle
  | encDirect
  | encRle
  | toRgba16
  | toRgba24
  | toRgba32
  | fromRgba24
  | fromRgba32
deriving DecidableEq, Repr

/-- Where the byte that selects an operation stands (R92, R100, R107): a packet header in IN, the value written to
`CMD`, or the value of `DEPTH` under a decode (`forward`) or an encode (`reverse`) command. -/
inductive Place
  | packet
  | command
  | forward
  | reverse
deriving DecidableEq, Repr

/-- The place from which an instruction is selected (R107). -/
def Instr.place : Instr → Place
  | .raw _ => .packet
  | .rpt _ => .packet
  | .clr => .command
  | .decDirect => .command
  | .decRle => .command
  | .encDirect => .command
  | .encRle => .command
  | .toRgba16 => .forward
  | .toRgba24 => .forward
  | .toRgba32 => .forward
  | .fromRgba24 => .reverse
  | .fromRgba32 => .reverse

end Sys2Proof
end

