-- ==== Sys2Proof/WellFormed.lean ====
section
/-! DEFINITION. Which instructions have an encoding: a packet's run length is 1..128 (R93); nothing else is restricted. -/

namespace Sys2Proof

/-- A run length that a packet header can state (R93). -/
def runLengthOk (n : Nat) : Bool := decide (1 ≤ n) && decide (n ≤ Config.maxPacketRun)

/-- Well-formedness of an instruction. -/
def Instr.wellFormed : Instr → Bool
  | .raw n => runLengthOk n
  | .rpt n => runLengthOk n
  | .clr => true
  | .decDirect => true
  | .decRle => true
  | .encDirect => true
  | .encRle => true
  | .toRgba16 => true
  | .toRgba24 => true
  | .toRgba32 => true
  | .fromRgba24 => true
  | .fromRgba32 => true

end Sys2Proof
end

