-- ==== Sys2Proof/Decode.lean ====
section
/-! DEFINITION. The decoder, total on any bytes, rejecting by name; after it the encoder. The three formats of the opcode
table (packet header R92, command code R100, pixel format R107) use the same byte values, so a decoder is told the place
the byte stands in. -/

namespace Sys2Proof

/-- Why a byte sequence is no instruction. -/
inductive DecodeError
  /-- There is no byte to decode. -/
  | noByte
  /-- A reserved command code 5, 6 or 7 (R100). -/
  | reservedCommand (op : BitVec 3)
  /-- A `DEPTH` value for which the converter has no format in this direction (R134, R139). -/
  | noFormat (depth : Byte)
deriving DecidableEq, Repr

/-- `hdr[7]` of a packet header: 1 = repeat, 0 = raw (R92). -/
def headerMode (hdr : Byte) : BitVec 1 := hdr.extractLsb' 7 1

/-- `runLength = (hdr & 0x7f) + 1` (R93). -/
def headerRunLength (hdr : Byte) : Nat := (hdr &&& 0x7f#8).toNat + 1

/-- The packet a header byte selects; all 256 values are legal (R92, R97). -/
def decodePacket (hdr : Byte) : Instr :=
  if headerMode hdr = 1#1 then .rpt (headerRunLength hdr) else .raw (headerRunLength hdr)

/-- The `OP` field of a value written to `CMD`: bits 2..0, the others ignored (R39, U11). -/
def commandOp (v : Byte) : BitVec 3 := v.extractLsb' 0 3

/-- The command a code selects (R100); 5, 6 and 7 are reserved. -/
def decodeOp (op : BitVec 3) : Except DecodeError Instr :=
  if op = 0#3 then .ok .clr
  else if op = 1#3 then .ok .decDirect
  else if op = 2#3 then .ok .decRle
  else if op = 3#3 then .ok .encDirect
  else if op = 4#3 then .ok .encRle
  else .error (.reservedCommand op)

/-- The forward converter operation a `DEPTH` value selects (R110 to R112, R130). -/
def decodeForward (depth : Byte) : Except DecodeError Instr :=
  if depth = 16#8 then .ok .toRgba16
  else if depth = 24#8 then .ok .toRgba24
  else if depth = 32#8 then .ok .toRgba32
  else .error (.noFormat depth)

/-- The reverse converter operation a `DEPTH` value selects (R136). -/
def decodeReverse (depth : Byte) : Except DecodeError Instr :=
  if depth = 24#8 then .ok .fromRgba24
  else if depth = 32#8 then .ok .fromRgba32
  else .error (.noFormat depth)

/-- The instruction one byte selects at a place. -/
def decodeByte : Place → Byte → Except DecodeError Instr
  | .packet, b => .ok (decodePacket b)
  | .command, b => decodeOp (commandOp b)
  | .forward, b => decodeForward b
  | .reverse, b => decodeReverse b

/-- Decode at a place: the instruction and the bytes after its selecting byte. -/
def decode (place : Place) : List Byte → Except DecodeError (Instr × List Byte)
  | [] => .error .noByte
  | b :: rest =>
    match decodeByte place b with
    | .ok i => .ok (i, rest)
    | .error e => .error e

/-- Length in bytes of the packet with header `hdr` at `bpp` bytes per pixel (R96). -/
def packetLength (bpp : Nat) (hdr : Byte) : Nat :=
  if headerMode hdr = 1#1 then 1 + bpp else 1 + headerRunLength hdr * bpp

/-- The header byte of a packet: `0x80 | (n − 1)` repeat, `0x00 | (n − 1)` raw (R93). -/
def packetHeader (mode : BitVec 1) (n : Nat) : Byte :=
  (if mode = 1#1 then 0x80#8 else 0x00#8) ||| BitVec.ofNat 8 (n - 1)

/-- The encoder: the selecting byte of an instruction (R92, R93, R100, R107); reserved command bits are 0. -/
def encode : Instr → List Byte
  | .raw n => [packetHeader 0#1 n]
  | .rpt n => [packetHeader 1#1 n]
  | .clr => [0x00#8]
  | .decDirect => [0x01#8]
  | .decRle => [0x02#8]
  | .encDirect => [0x03#8]
  | .encRle => [0x04#8]
  | .toRgba16 => [16#8]
  | .toRgba24 => [24#8]
  | .toRgba32 => [32#8]
  | .fromRgba24 => [24#8]
  | .fromRgba32 => [32#8]

/-- A row of the opcode table: the place, the mask and the pattern under it. -/
structure Row where
  place : Place
  mask : Byte
  pattern : Byte
deriving DecidableEq, Repr

/-- The row of spec/opcode_table.json that an instruction belongs to. -/
def Instr.row : Instr → Row
  | .raw _ => ⟨.packet, 0x80#8, 0x00#8⟩
  | .rpt _ => ⟨.packet, 0x80#8, 0x80#8⟩
  | .clr => ⟨.command, 0x07#8, 0x00#8⟩
  | .decDirect => ⟨.command, 0x07#8, 0x01#8⟩
  | .decRle => ⟨.command, 0x07#8, 0x02#8⟩
  | .encDirect => ⟨.command, 0x07#8, 0x03#8⟩
  | .encRle => ⟨.command, 0x07#8, 0x04#8⟩
  | .toRgba16 => ⟨.forward, 0xff#8, 0x10#8⟩
  | .toRgba24 => ⟨.forward, 0xff#8, 0x18#8⟩
  | .toRgba32 => ⟨.forward, 0xff#8, 0x20#8⟩
  | .fromRgba24 => ⟨.reverse, 0xff#8, 0x18#8⟩
  | .fromRgba32 => ⟨.reverse, 0xff#8, 0x20#8⟩

/-- Does a byte match a row? -/
def Row.covers (r : Row) (b : Byte) : Bool := b &&& r.mask == r.pattern

/-- The place at which a lone byte of the table is read, when nothing says where it stands. DESIGN CHOICE (log 1): the
most specific row wins, that is an exact pixel-format value, then a command code whose reserved bits are 0, then a
packet header, which every byte is. -/
def tablePlace (b : Byte) : Place :=
  if b = 16#8 ∨ b = 24#8 ∨ b = 32#8 then .forward
  else if b.toNat ≤ 4 then .command
  else .packet

/-- The instruction the decoder reads from a table word. Every row is one byte; a word of no bits is no instruction. The
place is `tablePlace`'s (log 1). -/
def decodeTableWord (nbits w : Nat) : Option Instr :=
  if nbits = 0 then none
  else
    match decode (tablePlace (BitVec.ofNat 8 w)) [BitVec.ofNat 8 w] with
    | .ok (i, _) => some i
    | .error _ => none

end Sys2Proof
end

