-- ==== Sys2Proof/Machine/State.lean ====
section
/-! DEFINITION. The state of the system (R21): the block's control and working registers, the three address spaces, the
host's pending actions, and the model's own counter and latch. Plain data. -/

namespace Sys2Proof.Machine

/-- The four phases that the `STATUS` register can show (R35). -/
inductive Phase
  | idle | busy | done | failed
deriving DecidableEq, Repr

/-- The error kinds of R290. -/
inductive ErrorKind
  | missingHeader | unsupportedBitdepth | unsupportedImageFormat | unexpectedEOF | zeroRunLength
  | runOverrun | illegalCommand | streamError | allocationFailure
deriving DecidableEq, Repr

/-- The classes of R303. -/
inductive ErrorClass
  | malformedInput | unsupportedInput | ioFailure | hostOrImplementation
deriving DecidableEq, Repr

/-- The ten control registers by name (R38). -/
inductive Reg
  | cmd | width | height | depth | status | errCode | errInfo | pixIdx | iPos | oPos
deriving DecidableEq, Repr

/-- The six registers the host can only read (R38). -/
inductive ReadOnlyReg
  | status | errCode | errInfo | pixIdx | iPos | oPos
deriving DecidableEq, Repr

/-- The working registers (R22). -/
structure Working where
  hdr : BitVec 8
  mode : BitVec 1
  runLength : BitVec 8
  s : Quad
  p : Pixel
  maxRunLen : BitVec 8
  runLen : BitVec 8
  count : BitVec 8
deriving DecidableEq, Repr

/-- PIX as a list of (address, byte) cells, addresses strictly rising, no cell holding what an unlisted address reads as. -/
abbrev Memory := List Host.Cell

/-- What the host does between commands (R20, R38, R60 to R66). -/
inductive HostAction
  /-- Write `CMD`: starts a command (R46). -/
  | writeCmd (v : BitVec 8)
  /-- Write `WIDTH` (R40). -/
  | writeWidth (v : BitVec 16)
  /-- Write `HEIGHT` (R41). -/
  | writeHeight (v : BitVec 16)
  /-- Write `DEPTH` (R42). -/
  | writeDepth (v : BitVec 8)
  /-- Write a read-only register: ignored (R38). -/
  | writeReadOnly (r : ReadOnlyReg) (v : BitVec 64)
  /-- Present IN, positioned at its first pixel-data byte, with what follows its last byte (R61, R63). -/
  | presentIn (bytes : List Byte) (ending : Option ErrWord)
  /-- Present OUT, already holding `bytes`, with the room its collaborator has left (R64, R65). -/
  | presentOut (bytes : List Byte) (room : Option (Nat × ErrWord))
  /-- Allocate a new, zero-filled PIX buffer (R252). -/
  | allocPix
  /-- Replace PIX by a buffer that holds these bytes from address 0 on (R335). -/
  | loadPix (bytes : List Byte)
  /-- Store one byte of PIX (R268). -/
  | storePix (addr : Nat) (v : Byte)
deriving DecidableEq, Repr

/-- Reasons the machine stops with a fault. -/
inductive Fault
  /-- An access outside the PIX space: raised by `memRead` and `memWrite` outside `0 .. 4N−1` (R67; no rule produces one)
  and by the host's byte store outside the largest PIX space (U9). Safe. -/
  | pixOutOfBounds
  /-- `STATUS` is `BUSY` while `CMD.OP` names no transfer command: raised by `step` in a state no rule reaches. Safe. -/
  | busyWithoutCommand
deriving DecidableEq, Repr

/-- Reasons the machine gives no meaning. -/
inductive Refusal
  /-- An instruction without a meaning; no arm uses it. Safe. -/
  | notModelled (mnemonic : String)
  /-- A transfer command started with `WIDTH == 0` or `HEIGHT == 0` (R46 step 7, U1, D8: a model refuses). Safe. -/
  | zeroDimension
  /-- A host access while `BUSY`, a codec call's among them (R47, R340, U6, D17). Safe. -/
  | hostAccessWhileBusy
  /-- `FromRGBA` with a target length other than 3 or 4 (R139, U3, D26). Safe. -/
  | noTargetFormat
  /-- An image that breaks the Image invariant or has a dimension the registers cannot hold: raised by the host codec
  (R268, U8, U9, U12). Safe. -/
  | imagePrecondition
deriving DecidableEq, Repr

/-- The machine's state. -/
structure State where
  /-- `CMD.OP` (R39). -/
  op : BitVec 3
  /-- `WIDTH` (R40). -/
  width : BitVec 16
  /-- `HEIGHT` (R41). -/
  height : BitVec 16
  /-- `DEPTH` (R42). -/
  depth : BitVec 8
  /-- `STATUS` (R35). -/
  phase : Phase
  /-- `ERRCODE` (R43). -/
  errCode : BitVec 4
  /-- `ERRINFO` (R43). -/
  errInfo : BitVec 32
  /-- `PIXIDX` (R32). -/
  pixIdx : BitVec 32
  /-- `IPOS` (R30). -/
  iPos : BitVec 64
  /-- `OPOS` (R31). -/
  oPos : BitVec 64
  /-- The working registers (R22). -/
  work : Working
  /-- PIX (R66). -/
  pix : Memory
  /-- The unread bytes of IN (R60). -/
  inBytes : List Byte
  /-- What IN's collaborator answers past those bytes: end of data, or a failure with its word (R63). -/
  inEnd : Option ErrWord
  /-- The bytes of OUT (R64). -/
  outBytes : List Byte
  /-- How many more bytes OUT's collaborator accepts before it fails, and its word; `none`: it never fails (R65). -/
  outRoom : Option (Nat × ErrWord)
  /-- The host's pending actions, the next first (R20). -/
  hostQueue : List HostAction
  /-- The platform's reset input: steps until it arrives (R330). -/
  resetIn : Option Nat
  /-- The model's own latch for the bytes `FromRGBA` returned (R136; log 14). -/
  target : List Byte
  /-- The model's own counter for free values (log 17). -/
  freeCount : Nat
deriving DecidableEq, Repr

/-- The working registers' values at reset. The spec gives none (R55): zero, DESIGN CHOICE (log 4). -/
def Working.reset : Working := ⟨0, 0, 0, ⟨0, 0, 0, 0⟩, ⟨0, 0, 0, 0⟩, 0, 0, 0⟩

/-- The machine right after reset: every control register 0, phase `IDLE` (R55). The working registers are log 4's choice,
the spaces, the host's queue and the reset input are empty (log 16). -/
def State.reset : State where
  op := 0
  width := 0
  height := 0
  depth := 0
  phase := .idle
  errCode := 0
  errInfo := 0
  pixIdx := 0
  iPos := 0
  oPos := 0
  work := Working.reset
  pix := []
  inBytes := []
  inEnd := none
  outBytes := []
  outRoom := none
  hostQueue := []
  resetIn := none
  target := []
  freeCount := 0

end Sys2Proof.Machine
end

