-- ==== Sys2Proof/Machine/Operands.lean ====
section
/-! DEFINITION. Derived operands (R13, R21), addresses and views of a slot (R66, R68, R71), and the working registers that a
packet header fills (R170). -/

namespace Sys2Proof.Machine

/-- `N = WIDTH × HEIGHT`, the number of pixels (R13). -/
def State.pixels (s : State) : Nat := s.width.toNat * s.height.toNat

/-- `bpp = DEPTH / 8`, truncating (R13, R42). -/
def State.bpp (s : State) : Nat := s.depth.toNat / 8

/-- `maxRunLen = min(128, WIDTH)` (R21, R192). -/
def State.maxRun (s : State) : Nat := min Config.maxPacketRun s.width.toNat

/-- `PIXIDX` as the slot index it is (R32). -/
def State.index (s : State) : Nat := s.pixIdx.toNat

/-- `N − PIXIDX`, the slots left (R166). -/
def State.slotsLeft (s : State) : Nat := s.pixels - s.index

/-- The PIX address of slot `i` (R66, R173). -/
def slotAddr (i : Nat) : Nat := Config.canonBpp * i

/-- The slot of the pixel at column `x`, row `y` (R68). -/
def State.slotOf (s : State) (x y : Nat) : Nat := y * s.width.toNat + x

/-- A canonical pixel's bytes in ascending address order (R66, R113). -/
def pixelBytes (p : Pixel) : List Byte := [p.r, p.g, p.b, p.a]

/-- The canonical pixel that four bytes in ascending address order are. -/
def pixelOfBytes (bs : List Byte) : Pixel := ⟨bs.getD 0 0, bs.getD 1 0, bs.getD 2 0, bs.getD 3 0⟩

/-- A slot seen as one little-endian 32-bit word: `A<<24 | B<<16 | G<<8 | R` (R71). -/
def pixelWordLE (p : Pixel) : BitVec 32 := p.a ++ p.b ++ p.g ++ p.r

/-- A slot seen as one big-endian 32-bit word: `R<<24 | G<<16 | B<<8 | A` (R71). -/
def pixelWordBE (p : Pixel) : BitVec 32 := p.r ++ p.g ++ p.b ++ p.a

/-- The working register `s` after the source bytes `bs` were read into it; bytes beyond them stay as they were (R22). -/
def loadQuad (q : Quad) (bs : List Byte) : Quad :=
  ⟨bs.getD 0 q.b0, bs.getD 1 q.b1, bs.getD 2 q.b2, bs.getD 3 q.b3⟩

/-- Operand assembly of a packet: `mode` and `runLength` (R93, R170). -/
def setPacketOperands (mode : BitVec 1) (n : Nat) (s : State) : State :=
  { s with work := { s.work with mode := mode, runLength := BitVec.ofNat 8 n } }

/-- `PIXIDX <- PIXIDX + n` (R164, R165, R195, R196, R222, R224). -/
def advanceIndex (n : Nat) (s : State) : State := { s with pixIdx := s.pixIdx + BitVec.ofNat 32 n }

end Sys2Proof.Machine
end

