-- ==== Sys2Proof/Machine/Flags.lean ====
section
/-! DEFINITION. `STATUS` and the error latch: the register's bits (R35), error codes and classes (R290, R303), the phase at
the end of a step (R36), and the latch of `raise` (R300). There are no condition codes (R35). -/

namespace Sys2Proof.Machine

/-- `STATUS[2:0]` = `ERR`, `DONE`, `BUSY` (R35). -/
def statusBits : Phase → BitVec 3
  | .idle => 0b000#3
  | .busy => 0b001#3
  | .done => 0b010#3
  | .failed => 0b100#3

/-- `ERRCODE` of an error kind (R290). -/
def ErrorKind.code : ErrorKind → BitVec 4
  | .missingHeader => 1#4
  | .unsupportedBitdepth => 2#4
  | .unsupportedImageFormat => 3#4
  | .unexpectedEOF => 4#4
  | .zeroRunLength => 5#4
  | .runOverrun => 6#4
  | .illegalCommand => 7#4
  | .streamError => 8#4
  | .allocationFailure => 9#4

/-- The error kind a nonzero `ERRCODE` names (R290). -/
def ErrorKind.ofCode (c : BitVec 4) : Option ErrorKind :=
  [ErrorKind.missingHeader, .unsupportedBitdepth, .unsupportedImageFormat, .unexpectedEOF, .zeroRunLength, .runOverrun,
    .illegalCommand, .streamError, .allocationFailure].find? fun k => k.code == c

/-- The class of an error kind (R303). -/
def ErrorKind.classOf : ErrorKind → ErrorClass
  | .missingHeader => .malformedInput
  | .unexpectedEOF => .malformedInput
  | .runOverrun => .malformedInput
  | .unsupportedBitdepth => .unsupportedInput
  | .unsupportedImageFormat => .unsupportedInput
  | .streamError => .ioFailure
  | .zeroRunLength => .hostOrImplementation
  | .illegalCommand => .hostOrImplementation
  | .allocationFailure => .hostOrImplementation

/-- Can the block itself raise this kind (R290 "Raised by")? -/
def ErrorKind.raisedByBlock : ErrorKind → Bool
  | .missingHeader => false
  | .unsupportedImageFormat => false
  | .allocationFailure => false
  | .unsupportedBitdepth => true
  | .unexpectedEOF => true
  | .zeroRunLength => true
  | .runOverrun => true
  | .illegalCommand => true
  | .streamError => true

/-- TAKING AN EXCEPTION, the latch: `ERRCODE <- code(K)`; `ERRINFO <- info` if `K` is `StreamError`, else 0;
`STATUS <- ERR` (R300). -/
def latchError (k : ErrorKind) (info : ErrWord) (s : State) : State :=
  { s with phase := .failed, errCode := k.code, errInfo := if k = .streamError then info else 0 }

/-- `STATUS <- DONE`. -/
def finish (s : State) : State := { s with phase := .done }

/-- `BUSY` to `DONE` when the step made `PIXIDX == N` (R35, R36). -/
def completeIfDone (s : State) : State := if s.index = s.pixels then finish s else s

/-- `DEPTH ∈ {16, 24, 32}` for decode, `{24, 32}` for encode (R46 steps 5 and 6). -/
def depthOk (op : BitVec 3) (depth : Byte) : Bool :=
  if op = 1#3 ∨ op = 2#3 then depth ∈ Config.srcDepths else depth ∈ Config.dstDepths

/-- Is this code one of the reserved ones (R46 step 4)? -/
def reservedOp (op : BitVec 3) : Bool := op = 5#3 ∨ op = 6#3 ∨ op = 7#3

end Sys2Proof.Machine
end

