-- ==== Sys2Proof/Machine/Ops.lean ====
section
/-! DEFINITION. The named operations that the meanings share: PIX memory (R66, R67), the streams (R62, R63, R65), free
values (log 5, 6, 7), taking an exception (R300, R301) and leaving it (R226, R330), starting a command (R46), ending a
step (R36), register reads (R38). -/

namespace Sys2Proof.Machine

/-! ### PIX as a canonical list -/

/-- What an unlisted PIX byte reads as: the zero fill of R252 (DESIGN CHOICE, log 3). -/
def Memory.blank : Byte := 0#8

/-- The canonical form: addresses strictly rising, no cell equal to what an unlisted address reads as. -/
abbrev Memory.wf (m : Memory) : Prop :=
  m.Pairwise (fun x y => x.1 < y.1) ∧ ∀ c ∈ m, c.2 ≠ Memory.blank

/-- Read one byte. -/
def Memory.get : Memory → Nat → Byte
  | [], _ => Memory.blank
  | (a, v) :: m, x => if x = a then v else Memory.get m x

/-- Write one byte, keeping the canonical form. -/
def Memory.set : Memory → Nat → Byte → Memory
  | [], x, v => if v = Memory.blank then [] else [(x, v)]
  | (a, w) :: m, x, v =>
    if x < a then (if v = Memory.blank then (a, w) :: m else (x, v) :: (a, w) :: m)
    else if x = a then (if v = Memory.blank then m else (x, v) :: m)
    else (a, w) :: Memory.set m x v

/-- Write bytes at ascending addresses. -/
def Memory.store : Memory → Nat → List Byte → Memory
  | m, _, [] => m
  | m, x, b :: bs => Memory.store (Memory.set m x b) (x + 1) bs

/-- Read `n` bytes at ascending addresses. -/
def Memory.load (m : Memory) : Nat → Nat → List Byte
  | _, 0 => []
  | x, n + 1 => Memory.get m x :: Memory.load m (x + 1) n

/-- Give the bytes at addresses below `n` the values of `f`. -/
def Memory.fill (f : Nat → Byte) : Nat → Memory → Memory
  | 0, m => m
  | n + 1, m => Memory.set (Memory.fill f n m) n (f n)

/-- The pixel that slot `i` holds (R66). -/
def State.slot (s : State) (i : Nat) : Pixel := pixelOfBytes (Memory.load s.pix (slotAddr i) Config.canonBpp)

/-! ### What an operation can answer -/

/-- The answer of an operation inside a step: it goes on, the command has failed (the state is the one after `raise`,
R300), or the machine stops. -/
inductive Result (α : Type) where
  | ok (a : α) (s : State)
  | raised (s : State)
  | fault (f : Fault)
  | refused (r : Refusal)

/-- Go on with `f` where the operation went on. -/
def Result.bind {α β : Type} (x : Result α) (f : α → State → Result β) : Result β :=
  match x with
  | .ok a s => f a s
  | .raised s => .raised s
  | .fault e => .fault e
  | .refused r => .refused r

/-- An answer as an outcome of the machine: a raise is a next state (R300). -/
def Result.outcome {α : Type} : Result α → Host.Outcome State Fault Refusal
  | .ok _ s => .next s
  | .raised s => .next s
  | .fault e => .fault e
  | .refused r => .refused r

/-! ### Free values -/

/-- Working registers of which nothing is known (R22, U7; log 5). -/
def freeWork (tick : Nat) : Working where
  hdr := Config.freeBits 8 .hdr tick
  mode := Config.freeBits 1 .mode tick
  runLength := Config.freeBits 8 .runLength tick
  s := ⟨Config.freeBits 8 .s0 tick, Config.freeBits 8 .s1 tick, Config.freeBits 8 .s2 tick, Config.freeBits 8 .s3 tick⟩
  p := ⟨Config.freeBits 8 .pR tick, Config.freeBits 8 .pG tick, Config.freeBits 8 .pB tick, Config.freeBits 8 .pA tick⟩
  maxRunLen := Config.freeBits 8 .maxRunLen tick
  runLen := Config.freeBits 8 .runLen tick
  count := Config.freeBits 8 .count tick

/-- The working registers become unspecified; the model's latch is emptied (R22; log 5, 14). -/
def dropWork (s : State) : State :=
  { s with work := freeWork s.freeCount, target := [], freeCount := s.freeCount + 1 }

/-- `PIXIDX`, `IPOS`, `OPOS` and the working registers become unspecified (R301, U5; log 6). -/
def voidPositions (s : State) : State :=
  { s with
    pixIdx := Config.freeBits 32 .pixIdx s.freeCount
    iPos := Config.freeBits 64 .iPos s.freeCount
    oPos := Config.freeBits 64 .oPos s.freeCount
    work := freeWork s.freeCount
    target := []
    freeCount := s.freeCount + 1 }

/-- The bytes of PIX slots `0..N−1` become unspecified, the others stay (R301, R332; log 6, 11). -/
def voidPix (s : State) : State :=
  { s with
    pix := Memory.fill (fun a => Config.freeBits 8 (.pixByte a) s.freeCount) (Config.canonBpp * s.pixels) s.pix
    freeCount := s.freeCount + 1 }

/-- A failed read consumed any number of the remaining bytes up to the requested `n` (R63, U4; log 7). What the collaborator
answers after its failure the spec does not say: the bytes left, then the same ending (DESIGN CHOICE, log 30). -/
def takeSome (n : Nat) (s : State) : State :=
  { s with
    inBytes := s.inBytes.drop ((Config.freeBits 32 .inTaken s.freeCount).toNat % (n + 1))
    freeCount := s.freeCount + 1 }

/-- A failed write appended any prefix of `b` (R65, U4; log 7). What the collaborator accepts after its failure the spec does
not say: as much as before it, the prefix not counted (DESIGN CHOICE, log 30). -/
def appendSome (b : List Byte) (s : State) : State :=
  { s with
    outBytes := s.outBytes ++ b.take ((Config.freeBits 32 .outTaken s.freeCount).toNat % (b.length + 1))
    freeCount := s.freeCount + 1 }

/-! ### Taking an exception -/

/-- A decode command fails in a step: the latch of R300, and what R301 leaves unspecified, PIX slots `0..N−1` among it. -/
def failDecode (k : ErrorKind) (info : ErrWord) (s : State) : State :=
  latchError k info (voidPositions (voidPix s))

/-- An encode command fails in a step: as `failDecode`, but no encode rule writes PIX (R205, R301; log 6). -/
def failEncode (k : ErrorKind) (info : ErrWord) (s : State) : State :=
  latchError k info (voidPositions s)

/-! ### Leaving it: `CLR` and reset -/

/-- Every control register takes its reset value, the working registers become unspecified; IN, OUT and PIX are not touched
(R226, R330). The only ways out of phase `FAILED` (R308). -/
def clearRegisters (s : State) : State :=
  dropWork
    { s with
      op := 0, width := 0, height := 0, depth := 0, phase := .idle, errCode := 0, errInfo := 0
      pixIdx := 0, iPos := 0, oPos := 0 }

/-- The platform's reset (R330); while a decode is `BUSY` it also voids PIX slots `0..N−1` (R332). The reset input fires once:
nothing sets the countdown again. The host's pending actions stay, and `step` goes on with them (DESIGN CHOICE, log 11). -/
def platformReset (s : State) : State :=
  { clearRegisters (if s.phase = .busy ∧ (s.op = 1#3 ∨ s.op = 2#3) then voidPix s else s) with resetIn := none }

/-! ### The streams -/

/-- `n` bytes leave IN; `IPOS <- IPOS + n` (R62). -/
def consumeIn (n : Nat) (s : State) : State :=
  { s with inBytes := s.inBytes.drop n, iPos := s.iPos + BitVec.ofNat 64 n }

/-- `InRead(n)` (R62, R63): the next `n` bytes in stream order, or the failure the collaborator reports. -/
def inRead (n : Nat) (s : State) : Result (List Byte) :=
  if n ≤ s.inBytes.length then .ok (s.inBytes.take n) (consumeIn n s)
  else
    match s.inEnd with
    | none => .raised (failDecode .unexpectedEOF 0 (takeSome n s))
    | some e => .raised (failDecode .streamError e (takeSome n s))

/-- The bytes `b` reach OUT; `OPOS <- OPOS + len(b)` (R65). -/
def appendOut (b : List Byte) (s : State) : State :=
  { s with
    outBytes := s.outBytes ++ b
    oPos := s.oPos + BitVec.ofNat 64 b.length
    outRoom := s.outRoom.map fun r => (r.1 - b.length, r.2) }

/-- `OutWrite(b)` (R65): appends all bytes of `b`, or the collaborator fails. -/
def outWrite (b : List Byte) (s : State) : Result Unit :=
  match s.outRoom with
  | none => .ok () (appendOut b s)
  | some (room, e) =>
    if b.length ≤ room then .ok () (appendOut b s) else .raised (failEncode .streamError e (appendSome b s))

/-! ### PIX accesses of the block -/

/-- `MemRead(addr, n)` inside `0 .. 4N−1` (R67). -/
def memRead (addr n : Nat) (s : State) : Result (List Byte) :=
  if addr + n ≤ Config.canonBpp * s.pixels then .ok (Memory.load s.pix addr n) s else .fault .pixOutOfBounds

/-- PIX after the bytes `v` were stored from `addr` on. -/
def storePix (addr : Nat) (v : List Byte) (s : State) : State := { s with pix := Memory.store s.pix addr v }

/-- `MemWrite(addr, n, v)` inside `0 .. 4N−1` (R67). -/
def memWrite (addr : Nat) (v : List Byte) (s : State) : Result Unit :=
  if addr + v.length ≤ Config.canonBpp * s.pixels then .ok () (storePix addr v s)
  else .fault .pixOutOfBounds

/-- `PixRead(i)` (R12). -/
def pixRead (i : Nat) (s : State) : Result Pixel :=
  (memRead (slotAddr i) Config.canonBpp s).bind fun bs s => .ok (pixelOfBytes bs) s

/-- `PixWrite(i, p)` (R12). -/
def pixWrite (i : Nat) (p : Pixel) (s : State) : Result Unit := memWrite (slotAddr i) (pixelBytes p) s

/-- Write `p` to the `n` slots from `i` on, ascending (R164, R81). -/
def writeRun (p : Pixel) : Nat → Nat → State → Result Unit
  | _, 0, s => .ok () s
  | i, n + 1, s => (pixWrite i p s).bind fun _ s => writeRun p (i + 1) n s

/-! ### Commands and steps -/

/-- R46 step 3 after step 1: the registers a command start writes; the working registers become unspecified (R22). -/
def openCommand (op : BitVec 3) (s : State) : State :=
  dropWork { s with op := op, errCode := 0, errInfo := 0, pixIdx := 0, iPos := 0, oPos := 0, phase := .busy }

/-- Command start for a transfer or reserved code in phase `IDLE` or `DONE` (R46 steps 1, 3 to 8). A failure here leaves
`PIXIDX == IPOS == OPOS == 0` and the spaces untouched (R301). -/
def startCommand (op : BitVec 3) (s : State) : Host.Outcome State Fault Refusal :=
  if reservedOp op then .next (latchError .illegalCommand 0 (openCommand op s))
  else if !depthOk op s.depth then .next (latchError .unsupportedBitdepth 0 (openCommand op s))
  else if s.width = 0 ∨ s.height = 0 then .refused .zeroDimension
  else .next (openCommand op s)

/-- The end of a step: working registers unspecified (R22), `DONE` if `PIXIDX == N` (R36). -/
def endStep (s : State) : State := completeIfDone (dropWork s)

/-- One round of a command loop (R163, R193, R222, R224): the test `PIXIDX < N`, the step's body, the end of the step. -/
def loopStep (body : State → Result Unit) (s : State) : Result Unit :=
  if s.index < s.pixels then (body s).bind fun _ s => .ok () (endStep s) else .ok () (finish s)

/-- A transfer command: in phase `BUSY` with this command running, one step of its loop; in `IDLE` or `DONE` its start
(R46); in `FAILED` the write of `CMD` is ignored (R36). Another command's code while `BUSY` can only be a host access
(R47, U6). Log 23. -/
def transfer (op : BitVec 3) (body : State → Result Unit) (s : State) : Host.Outcome State Fault Refusal :=
  match s.phase with
  | .busy => if s.op = op then (loopStep body s).outcome else .refused .hostAccessWhileBusy
  | .failed => .next s
  | .idle => startCommand op s
  | .done => startCommand op s

/-! ### Register reads -/

/-- The register with a number of R38. -/
def regOfNumber (n : Nat) : Option Reg :=
  [Reg.cmd, .width, .height, .depth, .status, .errCode, .errInfo, .pixIdx, .iPos, .oPos][n]?

/-- A host read of a register, without effect on the state (R38, R39, R43): the stored field, zero-extended. What a read of a
RW register (`CMD`, `WIDTH`, `HEIGHT`, `DEPTH`) gives while `BUSY`, when R38 and R47 do not allow it, the spec does not say:
the stored field too (DESIGN CHOICE, log 26). -/
def readReg (r : Reg) (s : State) : BitVec 64 :=
  match r with
  | .cmd => s.op.setWidth 64
  | .width => s.width.setWidth 64
  | .height => s.height.setWidth 64
  | .depth => s.depth.setWidth 64
  | .status => (statusBits s.phase).setWidth 64
  | .errCode => s.errCode.setWidth 64
  | .errInfo => s.errInfo.setWidth 64
  | .pixIdx => s.pixIdx.setWidth 64
  | .iPos => s.iPos
  | .oPos => s.oPos

end Sys2Proof.Machine
end

