-- ==== Sys2Proof/Machine/Converter.lean ====
section
/-! DEFINITION. The pixel converter (R130 to R139): five per-format functions, their dispatch by length, and the meanings of
the five converter operations over the working registers `s` and `p` and the latch `target` (log 14, 15). -/

namespace Sys2Proof.Machine

/-- `TORGBA16` (R131): `s0` is the low byte, `s1` the high byte. -/
def rgbaOf16 (s0 s1 : Byte) : Pixel where
  r := (s1 &&& 0x7c#8) <<< 1
  g := ((s1 &&& 0x03#8) <<< 6) ||| ((s0 &&& 0xe0#8) >>> 2)
  b := (s0 &&& 0x1f#8) <<< 3
  a := s1 &&& 0x80#8

/-- `TORGBA24` (R132). -/
def rgbaOf24 (s0 s1 s2 : Byte) : Pixel := ⟨s2, s1, s0, 0xff#8⟩

/-- `TORGBA32` (R133). -/
def rgbaOf32 (s0 s1 s2 s3 : Byte) : Pixel := ⟨s2, s1, s0, s3⟩

/-- `ToRGBA(n, s)` (R130); no pixel for a length other than 2, 3, 4 (R134). -/
def toRgba (n : Nat) (q : Quad) : Option Pixel :=
  if n = 2 then some (rgbaOf16 q.b0 q.b1)
  else if n = 3 then some (rgbaOf24 q.b0 q.b1 q.b2)
  else if n = 4 then some (rgbaOf32 q.b0 q.b1 q.b2 q.b3)
  else none

/-- `FROMRGBA24` (R137). -/
def bytes24 (p : Pixel) : List Byte := [p.b, p.g, p.r]

/-- `FROMRGBA32` (R138). -/
def bytes32 (p : Pixel) : List Byte := [p.b, p.g, p.r, p.a]

/-- `FromRGBA(n, p)` (R136); no other length than 3 and 4 (R139). -/
def fromRgba (n : Nat) (p : Pixel) : Option (List Byte) :=
  if n = 3 then some (bytes24 p) else if n = 4 then some (bytes32 p) else none

/-- Put a canonical pixel into the working register `p`. -/
def setP (p : Pixel) (s : State) : State := { s with work := { s.work with p := p } }

/-- Put source bytes into the working register `s`. -/
def setS (bs : List Byte) (s : State) : State := { s with work := { s.work with s := loadQuad s.work.s bs } }

/-- Latch the bytes `FromRGBA` returned (log 14). -/
def setTarget (bs : List Byte) (s : State) : State := { s with target := bs }

/-- `TORGBA16`: `p <- ToRGBA(2, s)` (R131). -/
def execToRgba16 (s : State) : Host.Outcome State Fault Refusal :=
  .next (setP (rgbaOf16 s.work.s.b0 s.work.s.b1) s)

/-- `TORGBA24`: `p <- ToRGBA(3, s)` (R132). -/
def execToRgba24 (s : State) : Host.Outcome State Fault Refusal :=
  .next (setP (rgbaOf24 s.work.s.b0 s.work.s.b1 s.work.s.b2) s)

/-- `TORGBA32`: `p <- ToRGBA(4, s)` (R133). -/
def execToRgba32 (s : State) : Host.Outcome State Fault Refusal :=
  .next (setP (rgbaOf32 s.work.s.b0 s.work.s.b1 s.work.s.b2 s.work.s.b3) s)

/-- `FROMRGBA24`: the bytes of `FromRGBA(3, p)` (R137). -/
def execFromRgba24 (s : State) : Host.Outcome State Fault Refusal := .next (setTarget (bytes24 s.work.p) s)

/-- `FROMRGBA32`: the bytes of `FromRGBA(4, p)` (R138). -/
def execFromRgba32 (s : State) : Host.Outcome State Fault Refusal := .next (setTarget (bytes32 s.work.p) s)

/-! ### One pixel across the converter, as the command loops use it -/

/-- `s <- InRead(bpp)` (R164, R165, R222). -/
def readSource (s : State) : Result Unit := (inRead s.bpp s).bind fun bs s => .ok () (setS bs s)

/-- `p <- ToRGBA(bpp, s)`, or no pixel (R134). -/
def convertSource (s : State) : Result (Option Pixel) :=
  match toRgba s.bpp s.work.s with
  | some p => .ok (some p) (setP p s)
  | none => .ok none s

/-- Read, convert and write one pixel to slot `i` (R165, R222); no pixel, no write (R134). -/
def decodePixel (i : Nat) (s : State) : Result Unit :=
  (readSource s).bind fun _ s =>
    (convertSource s).bind fun p s =>
      match p with
      | some p => pixWrite i p s
      | none => .ok () s

/-- Read slot `i`, convert and append its bytes (R195, R196, R224); another target length is refused (R139, U3). -/
def encodePixel (i : Nat) (s : State) : Result Unit :=
  (pixRead i s).bind fun p s =>
    match fromRgba s.bpp p with
    | some bs => outWrite bs (setTarget bs (setP p s))
    | none => .refused .noTargetFormat

end Sys2Proof.Machine
end

