-- ==== Sys2Proof/Machine/Direct.lean ====
section
/-! DEFINITION. The direct transfers `DEC_DIRECT` (R222) and `ENC_DIRECT` (R224), and the control command `CLR` (R226). -/

namespace Sys2Proof.Machine

/-- One step of `DEC_DIRECT` (R222). -/
def directInStep (s : State) : Result Unit :=
  (decodePixel s.index s).bind fun _ s => .ok () (advanceIndex 1 s)

/-- One step of `ENC_DIRECT` (R224). -/
def directOutStep (s : State) : Result Unit :=
  (encodePixel s.index s).bind fun _ s => .ok () (advanceIndex 1 s)

/-- `DEC_DIRECT` (R222, R46). -/
def execDecDirect (s : State) : Host.Outcome State Fault Refusal := transfer 1#3 directInStep s

/-- `ENC_DIRECT` (R224, R46). -/
def execEncDirect (s : State) : Host.Outcome State Fault Refusal := transfer 3#3 directOutStep s

/-- `CLR` (R226): accepted in every phase but `BUSY`, where a write of `CMD` is a breach (R47, U6). -/
def execClr (s : State) : Host.Outcome State Fault Refusal :=
  if s.phase = .busy then .refused .hostAccessWhileBusy else .next (clearRegisters s)

end Sys2Proof.Machine
end

