-- ==== Sys2Proof/Machine/RleDecode.lean ====
section
/-! DEFINITION. RLE decode: the packets `RPT` (R164) and `RAW` (R165), the header fetch (R170) and the command `DEC_RLE`
(R163). -/

namespace Sys2Proof.Machine

/-- The check of R166, made before any payload byte is read: a run longer than the slots left raises `RunOverrun`. -/
def checkRun (n : Nat) (s : State) : Result Unit :=
  if s.slotsLeft < n then .raised (failDecode .runOverrun 0 s) else .ok () s

/-- The body of `RPT` (R164): one source pixel, converted once, written to `n` consecutive slots. -/
def rptBody (n : Nat) (s : State) : Result Unit :=
  (checkRun n (setPacketOperands 1#1 n s)).bind fun _ s =>
    (readSource s).bind fun _ s =>
      (convertSource s).bind fun p s =>
        (match p with
          | some p => writeRun p s.index n s
          | none => .ok () s).bind fun _ s => .ok () (advanceIndex n s)

/-- The pixels of a raw packet: `n` times read, convert, write, from slot `i` on (R165). -/
def readPixels : Nat → Nat → State → Result Unit
  | _, 0, s => .ok () s
  | i, n + 1, s => (decodePixel i s).bind fun _ s => readPixels (i + 1) n s

/-- The body of `RAW` (R165). -/
def rawBody (n : Nat) (s : State) : Result Unit :=
  (checkRun n (setPacketOperands 0#1 n s)).bind fun _ s =>
    (readPixels s.index n s).bind fun _ s => .ok () (advanceIndex n s)

/-- `RPT` (R164), its header already fetched. -/
def execRpt (n : Nat) (s : State) : Host.Outcome State Fault Refusal := (rptBody n s).outcome

/-- `RAW` (R165), its header already fetched. -/
def execRaw (n : Nat) (s : State) : Host.Outcome State Fault Refusal := (rawBody n s).outcome

/-- Put a header byte into the working register `hdr`. -/
def setHdr (h : Byte) (s : State) : State := { s with work := { s.work with hdr := h } }

/-- `hdr <- InRead(1)[0]` (R170). -/
def fetchHeader (s : State) : Result Byte :=
  (inRead 1 s).bind fun bs s => .ok (bs.getD 0 0) (setHdr (bs.getD 0 0) s)

/-- Fetch one packet and execute it (R163, R170): bit 7 selects `RPT` or `RAW`, the low bits give the run length. -/
def packetStep (s : State) : Result Unit :=
  (fetchHeader s).bind fun hdr s =>
    if headerMode hdr = 1#1 then rptBody (headerRunLength hdr) s else rawBody (headerRunLength hdr) s

/-- `DEC_RLE` (R163, R46). -/
def execDecRle (s : State) : Host.Outcome State Fault Refusal := transfer 2#3 packetStep s

end Sys2Proof.Machine
end

