-- ==== Sys2Proof/Machine/RleEncode.lean ====
section
/-! DEFINITION. RLE encode: run detection (R192, R194), the two emissions (R195, R196) and the command `ENC_RLE` (R193). -/

namespace Sys2Proof.Machine

/-- The loop of R192: lengthen the run at `j` from `k` while the slots stay inside the buffer and equal to slot `j` on all
four bytes (R194); at most `fuel` more. -/
def runFrom (s : State) (j : Nat) : Nat → Nat → Nat
  | 0, k => k
  | fuel + 1, k => if j + k < s.pixels ∧ s.slot (j + k) = s.slot j then runFrom s j fuel (k + 1) else k

/-- `run(j)`, the local run length of position `j` (R192); 0 past the end of the buffer. -/
def localRun (s : State) (j : Nat) : Nat := runFrom s j s.maxRun 0

/-- The scan of R196: from `k` positions gathered, go on while the next position's run is exactly 1; at most `fuel` more. -/
def gather (s : State) (i : Nat) : Nat → Nat → Nat
  | 0, k => k
  | fuel + 1, k => if localRun s (i + k) = 1 then gather s i fuel (k + 1) else k

/-- The number of pixels a raw packet at `i` takes: up to `maxRunLen` in total, the first included (R196, D28). -/
def rawCount (s : State) (i : Nat) : Nat := gather s i (s.maxRun - 1) 1

/-- Emit a repeat packet of `n` pixels (R195). -/
def emitRepeat (n : Nat) (s : State) : Result Unit :=
  (outWrite [packetHeader 1#1 n] s).bind fun _ s =>
    (encodePixel s.index s).bind fun _ s => .ok () (advanceIndex n s)

/-- Append the bytes of `n` slots from `i` on, ascending (R196). -/
def writePixels : Nat → Nat → State → Result Unit
  | _, 0, s => .ok () s
  | i, n + 1, s => (encodePixel i s).bind fun _ s => writePixels (i + 1) n s

/-- Emit a raw packet of `n` pixels (R196). -/
def emitRaw (n : Nat) (s : State) : Result Unit :=
  (outWrite [packetHeader 0#1 n] s).bind fun _ s =>
    (writePixels s.index n s).bind fun _ s => .ok () (advanceIndex n s)

/-- `maxRunLen` and `runLen` as the step computes them (R193). -/
def setRun (s : State) : State :=
  { s with
    work := { s.work with
      maxRunLen := BitVec.ofNat 8 s.maxRun, runLen := BitVec.ofNat 8 (localRun s s.index) } }

/-- `count` as the scan leaves it (R196). -/
def setCount (n : Nat) (s : State) : State := { s with work := { s.work with count := BitVec.ofNat 8 n } }

/-- One step of `ENC_RLE` (R193): detect the run at `PIXIDX` and emit one packet; a run of 0 raises `ZeroRunLength` (R197),
which no reachable state does. -/
def emitStep (s : State) : Result Unit :=
  if localRun s s.index = 0 then .raised (failEncode .zeroRunLength 0 (setRun s))
  else if 2 ≤ localRun s s.index then emitRepeat (localRun s s.index) (setRun s)
  else emitRaw (rawCount s s.index) (setCount (rawCount s s.index) (setRun s))

/-- `ENC_RLE` (R193, R46). -/
def execEncRle (s : State) : Host.Outcome State Fault Refusal := transfer 4#3 emitStep s

end Sys2Proof.Machine
end

