-- ==== Sys2Proof/Machine/Dispatch.lean ====
section
/-! DEFINITION. The dispatch: one arm per constructor of Instr. -/

namespace Sys2Proof.Machine

def exec (i : Instr) (s : State) : Host.Outcome State Fault Refusal :=
  match i with
  | .raw n => Sys2Proof.Machine.execRaw n s
  | .rpt n => Sys2Proof.Machine.execRpt n s
  | .clr => Sys2Proof.Machine.execClr s
  | .decDirect => Sys2Proof.Machine.execDecDirect s
  | .decRle => Sys2Proof.Machine.execDecRle s
  | .encDirect => Sys2Proof.Machine.execEncDirect s
  | .encRle => Sys2Proof.Machine.execEncRle s
  | .toRgba16 => Sys2Proof.Machine.execToRgba16 s
  | .toRgba24 => Sys2Proof.Machine.execToRgba24 s
  | .toRgba32 => Sys2Proof.Machine.execToRgba32 s
  | .fromRgba24 => Sys2Proof.Machine.execFromRgba24 s
  | .fromRgba32 => Sys2Proof.Machine.execFromRgba32 s

end Sys2Proof.Machine
end

