-- ==== Sys2Proof/Machine/HostPort.lean ====
section
/-! DEFINITION. What step calls: the host's actions between commands (R20, R38, R46), the running command while `BUSY`
(R44), and the placement of a table word as the next thing step runs (log 2). -/

namespace Sys2Proof.Machine

/-- A host write of `CMD` (R46, R36): the decoded command's meaning; a reserved code starts and fails with
`IllegalCommand`, or is ignored in phase `FAILED`. -/
def writeCommand (v : BitVec 8) (s : State) : Host.Outcome State Fault Refusal :=
  match decodeOp (commandOp v) with
  | .ok i => exec i s
  | .error _ =>
    match s.phase with
    | .busy => .refused .hostAccessWhileBusy
    | .failed => .next s
    | .idle => startCommand (commandOp v) s
    | .done => startCommand (commandOp v) s

/-- One action of the host, while the block is not `BUSY` (R38, R47, U6). -/
def hostAct (a : HostAction) (s : State) : Host.Outcome State Fault Refusal :=
  if s.phase = .busy then .refused .hostAccessWhileBusy
  else
    match a with
    | .writeCmd v => writeCommand v s
    | .writeWidth v => .next { s with width := v }
    | .writeHeight v => .next { s with height := v }
    | .writeDepth v => .next { s with depth := v }
    | .writeReadOnly _ _ => .next s
    | .presentIn bytes ending => .next { s with inBytes := bytes, inEnd := ending }
    | .presentOut bytes room => .next { s with outBytes := bytes, outRoom := room }
    | .allocPix => .next { s with pix := [] }
    | .loadPix bytes => .next { s with pix := Memory.store [] 0 bytes }
    | .storePix addr v =>
      if addr < Config.pixSpace then .next { s with pix := Memory.set s.pix addr v } else .fault .pixOutOfBounds

/-- The transfer command that is running while `BUSY`, by `CMD.OP` (R39). -/
def runningCommand (s : State) : Option Instr :=
  if s.op = 1#3 then some .decDirect
  else if s.op = 2#3 then some .decRle
  else if s.op = 3#3 then some .encDirect
  else if s.op = 4#3 then some .encRle
  else none

/-- One step while `BUSY`: one round of the running command's loop (R44). -/
def blockStep (s : State) : Host.Outcome State Fault Refusal :=
  match runningCommand s with
  | some i => exec i s
  | none => .fault .busyWithoutCommand

/-- One step while not `BUSY`: the host's next action, or nothing (R331). -/
def hostStep (s : State) : Host.Outcome State Fault Refusal :=
  match s.hostQueue with
  | [] => .next s
  | a :: q => hostAct a { s with hostQueue := q }

/-- One step of the system: the platform's reset when it is due (R330), else the block while `BUSY`, else the host. -/
def systemStep (s : State) : Host.Outcome State Fault Refusal :=
  match s.resetIn with
  | some 0 => .next (platformReset s)
  | some (k + 1) =>
    if s.phase = .busy then blockStep { s with resetIn := some k } else hostStep { s with resetIn := some k }
  | none => if s.phase = .busy then blockStep s else hostStep s

/-- The bytes of a packet with header `b` and a payload of zeros, at `bpp` bytes a pixel (R94, R96). -/
def zeroPacket (bpp : Nat) (b : Byte) : List Byte := b :: List.replicate (packetLength bpp b - 1) 0#8

/-- Make a packet with header `b` and a payload of zeros the next thing step runs: a `DEC_RLE` command with room for any
run. A running `DEC_RLE` is kept and only its stream replaced. -/
def placePacket (b : Byte) (s : State) : State :=
  if s.phase = .busy ∧ s.op = 2#3 then { s with resetIn := none, inBytes := zeroPacket s.bpp b, inEnd := none }
  else
    { s with
      resetIn := none, phase := .busy, op := 2#3, errCode := 0, errInfo := 0
      width := 128, height := 1, depth := 24, pixIdx := 0, iPos := 0, oPos := 0
      inBytes := zeroPacket 3 b, inEnd := none }

/-- Make a host write of `b` to `CMD` the next thing step runs. -/
def placeCommand (b : Byte) (s : State) : State :=
  { s with
    resetIn := none
    phase := if s.phase = .busy ∨ s.phase = .failed then .idle else s.phase
    hostQueue := .writeCmd b :: s.hostQueue }

/-- Make a conversion selected by `DEPTH = b` the next thing step runs: a one-pixel direct command `op` over zero bytes. -/
def placeFormat (op : BitVec 3) (b : Byte) (s : State) : State :=
  { s with
    resetIn := none, phase := .busy, op := op, errCode := 0, errInfo := 0
    width := 1, height := 1, depth := b, pixIdx := 0, iPos := 0, oPos := 0
    inBytes := [0, 0, 0, 0], inEnd := none, outRoom := none }

/-- Place a byte as the next thing step runs, at a place (log 2). -/
def placeByte : Place → Byte → State → State
  | .packet, b, s => placePacket b s
  | .command, b, s => placeCommand b s
  | .forward, b, s => placeFormat 1#3 b s
  | .reverse, b, s => placeFormat 3#3 b s

/-- Place a table word as the next thing step runs (log 1, log 2). -/
def placeTableWord (nbits w : Nat) (s : State) : State :=
  if nbits = 0 then s else placeByte (tablePlace (BitVec.ofNat 8 w)) (BitVec.ofNat 8 w) s

end Sys2Proof.Machine
end

