-- ==== Sys2Proof/Machine/Step.lean ====
section
/-! DEFINITION. The step of the system. -/

namespace Sys2Proof.Machine

/-- One step. -/
def step (s : State) : Host.Outcome State Fault Refusal := systemStep s

/-- `s` with a table word placed as the next thing step runs (log 1, log 2). -/
def State.withFetchWord (s : State) (nbits w : Nat) : State := placeTableWord nbits w s

end Sys2Proof.Machine
end

