-- ==== Sys2Proof/Machine/HostCodec.lean ====
section
/-! DEFINITION. The host codec around the block (R6; spec/44_host_codec_context.md): header codec, Image, decoder, encoder.
It drives the block through the host's queue, as the boot requirements ask (R335, R336). No step calls anything here. -/

namespace Sys2Proof.Machine

/-! ### Running the block to rest -/

/-- Nothing is running and nothing is pending. -/
def atRest (s : State) : Bool := decide (s.phase ≠ .busy) && s.hostQueue.isEmpty

/-- Step until the system is at rest, at most `fuel` steps. A platform reset that lands on the way ends it: the host drops
its plans (DESIGN CHOICE, log 27). Where it lands before `CMD` is written, PIX stays as the actions before it left it: the
zero buffer of a decode is not released (DESIGN CHOICE, log 27). -/
def drive : Nat → State → Host.Outcome State Fault Refusal
  | 0, s => .next s
  | fuel + 1, s =>
    if atRest s then .next s
    else
      match step s with
      | .next t => if s.resetIn = some 0 then .next { t with hostQueue := [] } else drive fuel t
      | .fault e => .fault e
      | .refused r => .refused r

/-- Step while `BUSY`, at most `fuel` steps: a whole command as one transition (R44). -/
def runCommand : Nat → State → Host.Outcome State Fault Refusal
  | 0, s => .next s
  | fuel + 1, s =>
    if s.phase = .busy then
      match step s with
      | .next t => runCommand fuel t
      | .fault e => .fault e
      | .refused r => .refused r
    else .next s

/-! ### Header codec -/

/-- The 18-byte header's fields (R241). -/
structure Header where
  idLen : BitVec 8
  colormapType : BitVec 8
  imageType : BitVec 8
  colormapOffset : BitVec 16
  colormapLength : BitVec 16
  colormapDepth : BitVec 8
  imageX : BitVec 16
  imageY : BitVec 16
  imageWidth : BitVec 16
  imageHeight : BitVec 16
  imageDepth : BitVec 8
  imageDescriptor : BitVec 8
deriving DecidableEq, Repr

/-- The nine image types the format names (R242). -/
inductive ImageType
  | noData | uncompressedColormapped | uncompressedTruecolor | uncompressedBW | rleColormapped | rleTruecolor | rleBW
  | compressedColormapped | compressedColormapped4pass
deriving DecidableEq, Repr

/-- The code of an image type (R242). -/
def imageTypeCode : ImageType → Byte
  | .noData => 0#8
  | .uncompressedColormapped => 1#8
  | .uncompressedTruecolor => 2#8
  | .uncompressedBW => 3#8
  | .rleColormapped => 9#8
  | .rleTruecolor => 10#8
  | .rleBW => 11#8
  | .compressedColormapped => 32#8
  | .compressedColormapped4pass => 33#8

/-- The image type a byte names, if any (R242). -/
def imageTypeOf (b : Byte) : Option ImageType :=
  [ImageType.noData, .uncompressedColormapped, .uncompressedTruecolor, .uncompressedBW, .rleColormapped, .rleTruecolor,
    .rleBW, .compressedColormapped, .compressedColormapped4pass].find? fun t => imageTypeCode t == b

/-- A little-endian 16-bit value: `byte[o] | (byte[o+1] << 8)` (R241). -/
def u16 (lo hi : Byte) : BitVec 16 := hi ++ lo

/-- Low and high byte of a 16-bit value. -/
def u16Bytes (v : BitVec 16) : List Byte := [v.extractLsb' 0 8, v.extractLsb' 8 8]

/-- Header parse (R243): the header and the rest of the stream; nothing when fewer than 18 bytes are there. -/
def parseHeader : List Byte → Option (Header × List Byte)
  | idLen :: cmType :: imgType :: off0 :: off1 :: len0 :: len1 :: cmDepth :: x0 :: x1 :: y0 :: y1 :: w0 :: w1 :: h0 :: h1
      :: depth :: descr :: rest =>
    some
      ({ idLen := idLen, colormapType := cmType, imageType := imgType, colormapOffset := u16 off0 off1
         colormapLength := u16 len0 len1, colormapDepth := cmDepth, imageX := u16 x0 x1, imageY := u16 y0 y1
         imageWidth := u16 w0 w1, imageHeight := u16 h0 h1, imageDepth := depth, imageDescriptor := descr }, rest)
  | _ => none

/-- The 18 bytes of a header (R241). -/
def headerBytes (h : Header) : List Byte :=
  [h.idLen, h.colormapType, h.imageType] ++ u16Bytes h.colormapOffset ++ u16Bytes h.colormapLength ++ [h.colormapDepth]
    ++ u16Bytes h.imageX ++ u16Bytes h.imageY ++ u16Bytes h.imageWidth ++ u16Bytes h.imageHeight
    ++ [h.imageDepth, h.imageDescriptor]

/-- Header serialize: only image type, width, height and depth vary (R244). -/
def serialize (imageType : Byte) (width height : BitVec 16) (depth : Byte) : List Byte :=
  headerBytes
    { idLen := 0, colormapType := 0, imageType := imageType, colormapOffset := 0, colormapLength := 0, colormapDepth := 0
      imageX := 0, imageY := 0, imageWidth := width, imageHeight := height, imageDepth := depth, imageDescriptor := 0 }

/-- `skip = idLen + (colormapType × colormapLength × (colormapDepth / 8))` (R251, C3). -/
def skipCount (h : Header) : Nat :=
  h.idLen.toNat + h.colormapType.toNat * h.colormapLength.toNat * (h.colormapDepth.toNat / 8)

/-- The 26-byte footer: two zero offsets, `TRUEVISION-XFILE.` and a NUL (R264, C1). -/
def footer : List Byte :=
  [0x00#8, 0x00#8, 0x00#8, 0x00#8, 0x00#8, 0x00#8, 0x00#8, 0x00#8]
    ++ [0x54#8, 0x52#8, 0x55#8, 0x45#8, 0x56#8, 0x49#8, 0x53#8, 0x49#8, 0x4f#8, 0x4e#8]
    ++ [0x2d#8, 0x58#8, 0x46#8, 0x49#8, 0x4c#8, 0x45#8, 0x2e#8, 0x00#8]

/-! ### The Image -/

/-- The Image resource: dimensions and the pixel buffer it owns (R268). -/
structure Image where
  width : Nat
  height : Nat
  pixels : List Byte
deriving DecidableEq, Repr

/-- The Image invariant (R268). -/
def imageOk (i : Image) : Bool :=
  decide (0 < i.width) && decide (0 < i.height) && decide (i.pixels.length = Config.canonBpp * (i.width * i.height))

/-- Both dimensions fit the registers and the header (D21, U8). -/
def imageFits (i : Image) : Bool := decide (i.width < 2 ^ 16) && decide (i.height < 2 ^ 16)

/-- `isOpaque`: every pixel's alpha byte is 0xff; true of the empty buffer (R266, C4). -/
def isOpaque : List Byte → Bool
  | _ :: _ :: _ :: a :: rest => a == 0xff#8 && isOpaque rest
  | _ => true

/-- Coordinate-indexed accessor: the pixel at `(x, y)`, nothing outside the image (R268, U9). -/
def pixelAt (i : Image) (x y : Nat) : Option Pixel :=
  if x < i.width ∧ y < i.height then
    some (pixelOfBytes ((i.pixels.drop (Config.canonBpp * (y * i.width + x))).take Config.canonBpp))
  else none

/-- Coordinate-indexed accessor: the image with the pixel at `(x, y)` replaced, nothing outside the image (R268, U9). -/
def setPixelAt (i : Image) (x y : Nat) (p : Pixel) : Option Image :=
  if x < i.width ∧ y < i.height then
    some
      { i with
        pixels :=
          i.pixels.take (Config.canonBpp * (y * i.width + x)) ++ pixelBytes p
            ++ i.pixels.drop (Config.canonBpp * (y * i.width + x + 1)) }
  else none

/-! ### What a codec call answers -/

/-- A codec call returns a value; an error of R290 with the collaborator's word; nothing, where the platform's reset has
abandoned it (R332; log 27); or stops as the machine does. The first three with the system's state after it. -/
inductive CodecResult (α : Type) where
  | value (a : α) (s : State)
  | error (k : ErrorKind) (info : ErrWord) (s : State)
  | abandoned (s : State)
  | fault (f : Fault)
  | refused (r : Refusal)

/-- Go on with `f` where the call returned a value. -/
def CodecResult.bind {α β : Type} (x : CodecResult α) (f : α → State → CodecResult β) : CodecResult β :=
  match x with
  | .value a s => f a s
  | .error k info s => .error k info s
  | .abandoned s => .abandoned s
  | .fault e => .fault e
  | .refused r => .refused r

/-! ### The Image's buffer -/

/-- The Image whose buffer is the block's PIX space (R268). -/
def imageOf (w h : BitVec 16) (s : State) : Image :=
  ⟨w.toNat, h.toNat, Memory.load s.pix 0 (Config.canonBpp * (w.toNat * h.toNat))⟩

/-- The sizing constructor (R268), given the allocator's answer: a zero-filled buffer (R252; log 29) or `AllocationFailure`
(R299). Zero dimensions are a precondition violation (U12). The state is not touched: a failed allocation leaves PIX as it
was (DESIGN CHOICE, log 28). -/
def sizeImage (allocates : Bool) (width height : Nat) (s : State) : CodecResult Image :=
  if width = 0 ∨ height = 0 then .refused .imagePrecondition
  else if !allocates then .error .allocationFailure 0 s
  else .value ⟨width, height, List.replicate (Config.canonBpp * (width * height)) 0#8⟩ s

/-- The Image's buffer of `n` bytes is released (R268, R269): PIX holds nothing of it, its bytes are free values (log 28). -/
def releaseImage (n : Nat) (s : State) : State :=
  { s with
    pix := Memory.fill (fun a => Config.freeBits 8 (.pixByte a) s.freeCount) n []
    freeCount := s.freeCount + 1 }

/-! ### Errors of a codec call -/

/-- The kind reported when the stream ends inside the skipped region (D29), and by a failing collaborator (R296). -/
def shortSkip (ending : Option ErrWord) : ErrorKind × ErrWord :=
  match ending with
  | some e => (.streamError, e)
  | none =>
    match Config.skipShortError with
    | .unexpectedEOF => (.unexpectedEOF, 0)
    | .missingHeader => (.missingHeader, 0)
    | .streamError => (.streamError, 0)

/-- The kind reported when the header is short (R243, R291, R296). -/
def shortHeader (ending : Option ErrWord) : ErrorKind × ErrWord :=
  match ending with
  | some e => (.streamError, e)
  | none => (.missingHeader, 0)

/-- A `CLR` first, when the block is still in phase `FAILED` (R335, R336). -/
def clearFirst (s : State) : List HostAction := if s.phase = .failed then [.writeCmd 0] else []

/-- Run host actions and the command they start to rest. -/
def perform (actions : List HostAction) (pixels : Nat) (s : State) : Host.Outcome State Fault Refusal :=
  drive (actions.length + pixels) { s with hostQueue := actions }

/-- What the command reports (R336): the value on `DONE`, the latched error on `ERR`. In phase `IDLE` the platform's reset
has taken the command away: its results are discarded, no value and no kind of R290 is reported (R332; DESIGN CHOICE,
log 27). The other cases are not reached. -/
def report {α : Type} (value : State → α) : Host.Outcome State Fault Refusal → CodecResult α
  | .next s =>
    match s.phase, ErrorKind.ofCode s.errCode with
    | .done, _ => .value (value s) s
    | .failed, some k => .error k s.errInfo s
    | .failed, none => .abandoned s
    | .idle, _ => .abandoned s
    | .busy, _ => .abandoned s
  | .fault e => .fault e
  | .refused r => .refused r

/-! ### Decoder -/

/-- The Decoder's dispatch on the image type: the command to start, or none for `noData` (R253). -/
def decodeCommandFor (imageType : Byte) : Option (Option (BitVec 8)) :=
  match imageTypeOf imageType with
  | some .noData => some none
  | some .uncompressedTruecolor => some (some 1)
  | some .rleTruecolor => some (some 2)
  | _ => none

/-- `decode(reader) -> Image` (R250 to R253) over a stream and its ending, with the allocator's answer, from a block at
rest: header, depth, skip, allocation, dispatch, in that order (R306). The configuration registers are written only where a
command is started (R335; DESIGN CHOICE, log 28). On an unsupported image type the new Image is released (R269). The host reads
the header and the skipped bytes off `stream`, not off the block's IN: a call that starts no command leaves IN as it was
(DESIGN CHOICE, log 31). Past those checks the call is the host's access to PIX and to the block: while `BUSY` it is refused
(R47, R340, U6; DEDUCED, log 10). -/
def decodeImage (allocates : Bool) (stream : List Byte) (ending : Option ErrWord) (s : State) : CodecResult Image :=
  match parseHeader stream with
  | none => .error (shortHeader ending).1 (shortHeader ending).2 s
  | some (h, rest) =>
    if h.imageDepth ∉ Config.srcDepths then .error .unsupportedBitdepth 0 s
    else if rest.length < skipCount h then .error (shortSkip ending).1 (shortSkip ending).2 s
    else if s.phase = .busy then .refused .hostAccessWhileBusy
    else
      (sizeImage allocates h.imageWidth.toNat h.imageHeight.toNat s).bind fun image s =>
        match decodeCommandFor h.imageType with
        | none => .error .unsupportedImageFormat 0 (releaseImage image.pixels.length s)
        | some none => .value image { s with pix := [] }
        | some (some cmd) =>
          report (imageOf h.imageWidth h.imageHeight)
            (perform
              (clearFirst s
                ++ [.allocPix, .presentIn (rest.drop (skipCount h)) ending, .writeWidth h.imageWidth,
                  .writeHeight h.imageHeight, .writeDepth h.imageDepth, .writeCmd cmd])
              (h.imageWidth.toNat * h.imageHeight.toNat) s)

/-! ### Encoder -/

/-- Depth selection: 24 for a fully opaque image, else 32 (R261). -/
def encodeDepth (i : Image) : Byte := if isOpaque i.pixels then 24#8 else 32#8

/-- Image type selection (R261). -/
def encodeType (compress : Bool) : Byte :=
  if compress then imageTypeCode .rleTruecolor else imageTypeCode .uncompressedTruecolor

/-- The command that writes the pixel data (R263). -/
def encodeCommand (compress : Bool) : BitVec 8 := if compress then 4 else 3

/-- The header the Encoder writes (R262). -/
def encodeHeader (i : Image) (compress : Bool) : List Byte :=
  serialize (encodeType compress) (BitVec.ofNat 16 i.width) (BitVec.ofNat 16 i.height) (encodeDepth i)

/-- The host appends bytes to OUT itself (R262, R264, R336): all of them, or the collaborator fails. The spec does not say
how many bytes of a failed write of the host reach OUT (N11): a free prefix, as `OutWrite` leaves it (U4; DESIGN CHOICE,
log 25). -/
def hostAppend (b : List Byte) (s : State) : CodecResult Unit :=
  match s.outRoom with
  | none => .value () { s with outBytes := s.outBytes ++ b }
  | some (room, e) =>
    if b.length ≤ room then .value () { s with outBytes := s.outBytes ++ b, outRoom := some (room - b.length, e) }
    else .error .streamError e (appendSome b s)

/-- The header is written to a new, empty OUT with the given room (R262), the Image standing in PIX (R335). -/
def writeHeader (i : Image) (compress : Bool) (room : Option (Nat × ErrWord)) (s : State) : CodecResult Unit :=
  hostAppend (encodeHeader i compress) { s with pix := Memory.store [] 0 i.pixels, outBytes := [], outRoom := room }

/-- The footer is written after the pixel data (R264, R336); the file is what OUT then holds. -/
def writeFooter (s : State) : CodecResult (List Byte) :=
  (hostAppend footer s).bind fun _ s => .value s.outBytes s

/-- `encode(writer, image, compress)` (R260 to R264) into a sink with the given room, from a block at rest: the whole file.
The footer follows only a command that is `DONE` (R336). While `BUSY` the call is refused before it touches OUT, PIX or the
block (R47, R340, U6; DEDUCED, log 10). -/
def encodeImage (i : Image) (compress : Bool) (room : Option (Nat × ErrWord)) (s : State) : CodecResult (List Byte) :=
  if !imageOk i || !imageFits i then .refused .imagePrecondition
  else if s.phase = .busy then .refused .hostAccessWhileBusy
  else
    (writeHeader i compress room s).bind fun _ h =>
      (report (fun _ => ())
        (perform
          (clearFirst s
            ++ [.loadPix i.pixels, .presentOut h.outBytes h.outRoom, .writeWidth (BitVec.ofNat 16 i.width),
              .writeHeight (BitVec.ofNat 16 i.height), .writeDepth (encodeDepth i), .writeCmd (encodeCommand compress)])
          (i.width * i.height) s)).bind fun _ t => writeFooter t

end Sys2Proof.Machine
end

