-- ==== Sys2Proof/Safety.lean ====
section
/-! DEFINITION. What claims are stated in: the invariant of the system, the frames of a meaning, the packet stream a byte
sequence spells (R104, R174) and the packets the encoder emits. -/

namespace Sys2Proof.Safety

open Sys2Proof.Machine

/-- The codes the block itself can latch (R290). -/
def blockCode (c : BitVec 4) : Bool :=
  [ErrorKind.unsupportedBitdepth, .unexpectedEOF, .zeroRunLength, .runOverrun, .illegalCommand, .streamError].any
    fun k => k.code == c

/-- What holds of a command in progress (R32, R35, R46): a transfer command, legal dimensions and depth, slots left. -/
def runningOk (s : State) : Bool :=
  decide (s.op = 1#3 ∨ s.op = 2#3 ∨ s.op = 3#3 ∨ s.op = 4#3) && depthOk s.op s.depth && decide (s.width ≠ 0)
    && decide (s.height ≠ 0) && decide (s.index < s.pixels)

/-- What holds of the error latch (R35, R43, R290, R300). -/
def latchOk (s : State) : Bool :=
  if s.phase = .failed then blockCode s.errCode && (decide (s.errCode = ErrorKind.streamError.code) || decide (s.errInfo = 0))
  else decide (s.errCode = 0) && decide (s.errInfo = 0)

/-- What holds of the positions outside phase `FAILED` (R30, R31, R55, R204): each pixel costs at most 5 bytes, so no
position register wraps; in phase `IDLE` they are 0. -/
def positionsOk (s : State) : Bool :=
  decide (s.phase = .failed)
    || (decide (s.iPos.toNat ≤ 5 * s.index) && decide (s.oPos.toNat ≤ 5 * s.index)
      && (decide (s.phase ≠ .idle) || (decide (s.op = 0) && decide (s.index = 0))))

/-- The invariant of the system. -/
def SystemInv (s : State) : Prop :=
  Memory.wf s.pix ∧ (s.phase = .busy → runningOk s = true) ∧ latchOk s = true ∧ positionsOk s = true

/-! ### Frames -/

/-- Nothing of the spec's state is changed but the working registers. -/
def WorkFrame (s t : State) : Prop := { t with work := s.work, target := s.target, freeCount := s.freeCount } = s

/-- Nothing of the spec's state is changed but what a decode step that succeeds may write: PIX, IN, `PIXIDX`, `IPOS`, the
phase and the working registers (R74). -/
def DecodeFrame (s t : State) : Prop :=
  { t with
    pix := s.pix, inBytes := s.inBytes, pixIdx := s.pixIdx, iPos := s.iPos, phase := s.phase, work := s.work
    target := s.target, freeCount := s.freeCount } = s

/-- Nothing of the spec's state is changed but what an encode step that succeeds may write: OUT, `PIXIDX`, `OPOS`, the phase
and the working registers (R74). All of PIX reads as before. -/
def EncodeFrame (s t : State) : Prop :=
  { t with
    outBytes := s.outBytes, outRoom := s.outRoom, pixIdx := s.pixIdx, oPos := s.oPos, phase := s.phase, work := s.work
    target := s.target, freeCount := s.freeCount } = s

/-- Every PIX byte outside slots `i .. i+n−1` reads as before. -/
def PixSameOutside (i n : Nat) (s t : State) : Prop :=
  ∀ a, a < 4 * i ∨ 4 * (i + n) ≤ a → Memory.get t.pix a = Memory.get s.pix a

/-- A command has failed with kind `k` and word `info` (R300), and what R301 leaves defined: the configuration and `CMD.OP`
unchanged, appended bytes still there, consumed bytes still gone, no PIX byte beyond slot `N−1` touched; the host's own
plans unchanged. That IN's ending stays, also after a failed read, is no rule's: log 30 (and log 8, the ending's form). -/
def FailedFrom (k : ErrorKind) (info : ErrWord) (s t : State) : Prop :=
  t.phase = .failed ∧ t.errCode = k.code ∧ t.errInfo = info ∧ t.op = s.op ∧ t.width = s.width ∧ t.height = s.height
    ∧ t.depth = s.depth ∧ s.outBytes <+: t.outBytes ∧ t.inBytes <:+ s.inBytes ∧ t.inEnd = s.inEnd
    ∧ t.hostQueue = s.hostQueue ∧ t.resetIn = s.resetIn
    ∧ (∀ a, 4 * s.pixels ≤ a → Memory.get t.pix a = Memory.get s.pix a)

/-- The kind and word that a read past the listed bytes of IN reports (R63). -/
def inFailure (s : State) : ErrorKind × ErrWord :=
  match s.inEnd with
  | none => (.unexpectedEOF, 0)
  | some e => (.streamError, e)

/-- A collaborator that accepts as many bytes as `room` says accepts `n` (R65; log 9). -/
def roomHolds (n : Nat) (room : Option (Nat × ErrWord)) : Prop := ∀ r, room = some r → n ≤ r.1

/-- OUT's collaborator accepts `n` more bytes (R65; log 9). -/
def roomFor (n : Nat) (s : State) : Prop := roomHolds n s.outRoom

/-- What OUT's collaborator accepts after `n` more bytes (R65; log 9). -/
def roomAfter (n : Nat) (s : State) : Option (Nat × ErrWord) := s.outRoom.map fun r => (r.1 - n, r.2)

/-- The phase after a step that leaves `PIXIDX` at `i` (R36). -/
def phaseAt (i : Nat) (s : State) : Phase := if i = s.pixels then .done else .busy

/-! ### Packet streams -/

/-- A packet as the notation of R104 writes it: the source pixels stand as byte sequences. -/
inductive Packet
  | rpt (n : Nat) (pixel : List Byte)
  | raw (pixels : List (List Byte))
deriving DecidableEq, Repr

/-- The number of pixels a packet stands for. -/
def Packet.run : Packet → Nat
  | .rpt n _ => n
  | .raw ps => ps.length

/-- A packet that can be written at `bpp` bytes per pixel (R93, R94). -/
def Packet.ok (bpp : Nat) : Packet → Bool
  | .rpt n px => runLengthOk n && decide (px.length = bpp)
  | .raw ps => runLengthOk ps.length && ps.all fun px => decide (px.length = bpp)

/-- The instruction that a packet's header selects. -/
def Packet.instr : Packet → Instr
  | .rpt n _ => .rpt n
  | .raw ps => .raw ps.length

/-- The payload of a packet (R94). -/
def Packet.payload : Packet → List Byte
  | .rpt _ px => px
  | .raw ps => ps.flatten

/-- The bytes of a packet: header, then payload (R90, R104). -/
def Packet.bytes (p : Packet) : List Byte := encode p.instr ++ p.payload

/-- The canonical pixel of a source pixel's bytes (R130), at 2, 3 or 4 bytes. -/
def pixelOfSource (px : List Byte) : Pixel :=
  (toRgba px.length (loadQuad ⟨0, 0, 0, 0⟩ px)).getD ⟨0, 0, 0, 0⟩

/-- `expand` (R174): the pixels a packet writes. -/
def Packet.expand : Packet → List Pixel
  | .rpt n px => List.replicate n (pixelOfSource px)
  | .raw ps => ps.map pixelOfSource

/-- The bytes of a packet stream (R90). -/
def streamBytes (ps : List Packet) : List Byte := (ps.map Packet.bytes).flatten

/-- The pixels of a packet stream (R174). -/
def streamPixels (ps : List Packet) : List Pixel := (ps.map Packet.expand).flatten

/-- The number of pixels of a packet stream. -/
def streamRun (ps : List Packet) : Nat := (ps.map Packet.run).sum

/-- The pixels of slots `i .. i+n−1`. -/
def slots (s : State) (i n : Nat) : List Pixel := (List.range' i n).map s.slot

/-- The bytes of canonical pixels at `bpp` bytes each (R136). -/
def wireBytes (bpp : Nat) (ps : List Pixel) : List Byte := ps.flatMap fun p => (fromRgba bpp p).getD []

/-- What is left of a pixel after a trip through `DEPTH` (R143, R206): 24 bits force alpha to 0xff. -/
def throughDepth (depth : Byte) (p : Pixel) : Pixel := if depth = 24#8 then { p with a := 0xff#8 } else p

/-- The little-endian 16-bit value at offset `o`: `byte[o] | (byte[o+1] << 8)` (R241). -/
def wordAt (bs : List Byte) (o : Nat) : Nat := (bs.getD o 0).toNat + 256 * (bs.getD (o + 1) 0).toNat

/-! ### Commands -/

/-- The four transfer commands with their codes (R100). -/
def transferCommands : List (Instr × BitVec 3) :=
  [(.decDirect, 1#3), (.decRle, 2#3), (.encDirect, 3#3), (.encRle, 4#3)]

/-- The state in which a command can start and run undisturbed: no reset on the way, no failure, a command not running. -/
def ReadyFor (op : BitVec 3) (s : State) : Prop :=
  (s.phase = .idle ∨ s.phase = .done) ∧ s.resetIn = none ∧ Memory.wf s.pix ∧ s.width ≠ 0 ∧ s.height ≠ 0
    ∧ depthOk op s.depth = true

/-- Command `i` started from `s` and run to its end by steps of the machine is `t` (R44, R46 step 8). -/
def RunsTo (i : Instr) (s t : State) : Prop :=
  ∃ b, exec i s = .next b ∧ b.phase = .busy ∧ runCommand s.pixels b = .next t ∧ t.phase ≠ .busy

end Sys2Proof.Safety
end

