-- ==== Sys2Proof/Certificates/Slice0/Obligations.lean ====
section
/-! DEFINITION. The statements for the provers. Each docstring names the rules of spec/ it formalises; where a clause is the
model's own choice the log entry is named. `exec i s = .next t` says that the instruction completes. -/

open Sys2Proof Sys2Proof.Machine Sys2Proof.Safety

/-! ### Encodings -/

/-- Decode and encode agree for every well-formed instruction, every run length, whatever bytes follow (R92, R93, R100,
R107). -/
def Obligations.DecodeInvertsEncode : Prop :=
  ∀ (i : Instr) (rest : List Byte), i.wellFormed = true → decode i.place (encode i ++ rest) = .ok (i, rest)

/-- Every header byte is a legal packet, of the mode bit 7 gives and the run length the low bits give, and is the encoding
of that packet (R92, R97, R107). -/
def Obligations.EveryHeaderByteIsAPacket : Prop :=
  ∀ (hdr : Byte) (rest : List Byte),
    ∃ i : Instr, decode .packet (hdr :: rest) = .ok (i, rest) ∧ i.wellFormed = true ∧ encode i = [hdr]
      ∧ (hdr &&& 0x80#8 = 0x80#8 → i = .rpt ((hdr &&& 0x7f#8).toNat + 1))
      ∧ (hdr &&& 0x80#8 = 0x00#8 → i = .raw ((hdr &&& 0x7f#8).toNat + 1))

/-- Command codes 5, 6, 7 are no command, 0 to 4 are the five of R100, and bits 7..3 do not matter (R39, R100; the codes are the
spec's decision D4). -/
def Obligations.CommandCodesDecode : Prop :=
  ∀ (v : Byte) (rest : List Byte),
    let op := v.extractLsb' 0 3
    (op = 0#3 → decode .command (v :: rest) = .ok (.clr, rest))
      ∧ (op = 1#3 → decode .command (v :: rest) = .ok (.decDirect, rest))
      ∧ (op = 2#3 → decode .command (v :: rest) = .ok (.decRle, rest))
      ∧ (op = 3#3 → decode .command (v :: rest) = .ok (.encDirect, rest))
      ∧ (op = 4#3 → decode .command (v :: rest) = .ok (.encRle, rest))
      ∧ (5 ≤ op.toNat → decode .command (v :: rest) = .error (.reservedCommand op))

/-- The length of a packet follows from its header byte and `bpp` alone (R96). -/
def Obligations.PacketLengthFollowsHeader : Prop :=
  ∀ (bpp : Nat) (p : Packet) (hdr : Byte) (tail : List Byte),
    p.ok bpp = true → p.bytes = hdr :: tail →
      p.bytes.length = packetLength bpp hdr
        ∧ (hdr &&& 0x80#8 = 0x80#8 → p.bytes.length = 1 + bpp)
        ∧ (hdr &&& 0x80#8 = 0x00#8 → p.bytes.length = 1 + ((hdr &&& 0x7f#8).toNat + 1) * bpp)

/-- A few words of the spec's tables decode to the instructions they stand for (R92, R100, R107). -/
def Obligations.SpecWordsDecode : Prop :=
  decode .packet [0x83#8, 0x01#8, 0x02#8, 0x03#8] = .ok (.rpt 4, [0x01#8, 0x02#8, 0x03#8])
    ∧ decode .packet [0x7f#8] = .ok (.raw 128, []) ∧ decode .packet [0x80#8] = .ok (.rpt 1, [])
    ∧ decode .command [0x02#8] = .ok (.decRle, []) ∧ decode .command [0x04#8] = .ok (.encRle, [])
    ∧ decode .command [0x06#8] = .error (.reservedCommand 6#3)
    ∧ decode .forward [0x10#8] = .ok (.toRgba16, []) ∧ decode .reverse [0x18#8] = .ok (.fromRgba24, [])
    ∧ decode .reverse [0x10#8] = .error (.noFormat 0x10#8)

/-! ### Converter -/

/-- `TORGBA16` completes and puts each field of the little-endian word where R110's table says, low bits zero, alpha 0x00
or 0x80; nothing but the working register `p` changes (R110; that the operation stands alone over `s` and `p` is log 15). -/
def Obligations.ToRgba16PlacesFields : Prop :=
  ∀ s : State,
    let w : BitVec 16 := s.work.s.b0.setWidth 16 ||| s.work.s.b1.setWidth 16 <<< 8
    exec .toRgba16 s =
      .next { s with work := { s.work with
        p := ⟨(w.extractLsb' 10 5).setWidth 8 <<< 3, (w.extractLsb' 5 5).setWidth 8 <<< 3,
          (w.extractLsb' 0 5).setWidth 8 <<< 3, (w.extractLsb' 15 1).setWidth 8 <<< 7⟩ } }

/-- `TORGBA24` and `TORGBA32` complete; 24 bits give alpha 0xff, 32 bits keep it; nothing but `p` changes (R132, R133; log
15). -/
def Obligations.ToRgba24And32Swap : Prop :=
  ∀ s : State,
    exec .toRgba24 s =
        .next { s with work := { s.work with p := ⟨s.work.s.b2, s.work.s.b1, s.work.s.b0, 0xff#8⟩ } }
      ∧ exec .toRgba32 s =
        .next { s with work := { s.work with p := ⟨s.work.s.b2, s.work.s.b1, s.work.s.b0, s.work.s.b3⟩ } }

/-- `FROMRGBA24` and `FROMRGBA32` complete and return BGR and BGRA; nothing but the model's latch for the returned bytes
changes (R137, R138; the latch is log 14). -/
def Obligations.FromRgbaSwaps : Prop :=
  ∀ s : State,
    exec .fromRgba24 s = .next { s with target := [s.work.p.b, s.work.p.g, s.work.p.r] }
      ∧ exec .fromRgba32 s = .next { s with target := [s.work.p.b, s.work.p.g, s.work.p.r, s.work.p.a] }

/-- The four inverse laws of R143. -/
def Obligations.ConverterInverses : Prop :=
  (∀ (p : Pixel) (q : Quad) (bs : List Byte), fromRgba 4 p = some bs → toRgba 4 (loadQuad q bs) = some p)
    ∧ (∀ (p : Pixel) (q : Quad) (bs : List Byte), fromRgba 3 p = some bs →
        toRgba 3 (loadQuad q bs) = some { p with a := 0xff#8 } ∧ ({ p with a := 0xff#8 } = p ↔ p.a = 0xff#8))
    ∧ (∀ (q : Quad) (p : Pixel), toRgba 3 q = some p → fromRgba 3 p = some [q.b0, q.b1, q.b2])
    ∧ (∀ (q : Quad) (p : Pixel), toRgba 4 q = some p → fromRgba 4 p = some [q.b0, q.b1, q.b2, q.b3])

/-- The value sets of R142: 16-bit pixels have multiples of 8 and alpha 0x00 or 0x80, and the conversion loses no bit;
24-bit pixels are those with alpha 0xff; the 32-bit conversion reaches every pixel exactly once. -/
def Obligations.ConverterImages : Prop :=
  (∀ a b : Byte,
      (rgbaOf16 a b).r &&& 7#8 = 0#8 ∧ (rgbaOf16 a b).g &&& 7#8 = 0#8 ∧ (rgbaOf16 a b).b &&& 7#8 = 0#8
        ∧ ((rgbaOf16 a b).a = 0x00#8 ∨ (rgbaOf16 a b).a = 0x80#8))
    ∧ (∀ p : Pixel, p.r &&& 7#8 = 0#8 → p.g &&& 7#8 = 0#8 → p.b &&& 7#8 = 0#8 → p.a = 0x00#8 ∨ p.a = 0x80#8 →
        ∃ a b : Byte, rgbaOf16 a b = p)
    ∧ (∀ a b c d : Byte, rgbaOf16 a b = rgbaOf16 c d → a = c ∧ b = d)
    ∧ (∀ p : Pixel, p.a = 0xff#8 ↔ ∃ a b c : Byte, rgbaOf24 a b c = p)
    ∧ (∀ a b c d e f : Byte, rgbaOf24 a b c = rgbaOf24 d e f → a = d ∧ b = e ∧ c = f)
    ∧ (∀ p : Pixel, ∃ a b c d : Byte, rgbaOf32 a b c d = p ∧
        ∀ e f g h : Byte, rgbaOf32 e f g h = p → e = a ∧ f = b ∧ g = c ∧ h = d)

/-- The converter operation that `DEPTH` selects in a direction is the dispatch by length `bpp`, and a length outside the
domain gives no pixel and no bytes (R107, R130, R134, R136, R139). The model's own: that the operations stand alone over
`s` and `p` (log 15), the latch `target` for the returned bytes (log 14), and that a length outside the domain is `none`
(the spec's decisions D25 and D26; log 19). -/
def Obligations.DepthSelectsConversion : Prop :=
  (∀ (s : State) (i : Instr), decode .forward [s.depth] = .ok (i, []) →
      ∃ p, toRgba s.bpp s.work.s = some p ∧ exec i s = .next { s with work := { s.work with p := p } })
    ∧ (∀ (s : State) (i : Instr), decode .reverse [s.depth] = .ok (i, []) →
      ∃ bs, fromRgba s.bpp s.work.p = some bs ∧ exec i s = .next { s with target := bs })
    ∧ (∀ (n : Nat) (q : Quad), toRgba n q = none ↔ n ≠ 2 ∧ n ≠ 3 ∧ n ≠ 4)
    ∧ (∀ (n : Nat) (p : Pixel), fromRgba n p = none ↔ n ≠ 3 ∧ n ≠ 4)

/-! ### PIX -/

/-- A slot write is read back as the pixel, byte R at address `4i`, G, B, A after it; every byte outside the slot and all
other state keep their values, and the canonical form holds (R66, R67; R113 of 30_encoding.md; the form is the model's). -/
def Obligations.PixWriteThenRead : Prop :=
  ∀ (s : State) (i : Nat) (p : Pixel), Memory.wf s.pix → i < s.pixels →
    ∃ t, pixWrite i p s = .ok () t ∧ pixRead i t = .ok p t ∧ Memory.wf t.pix ∧ PixSameOutside i 1 s t
      ∧ Memory.get t.pix (4 * i) = p.r ∧ Memory.get t.pix (4 * i + 1) = p.g ∧ Memory.get t.pix (4 * i + 2) = p.b
      ∧ Memory.get t.pix (4 * i + 3) = p.a ∧ { t with pix := s.pix } = s

/-! ### Packets -/

/-- `RPT`: for every run length that fits and every depth the command accepts, the packet completes: one source pixel
consumed, converted once, written to `n` consecutive slots; `PIXIDX` and `IPOS` advance; no flag changes, nothing else
changes (R164). The header is already fetched. -/
def Obligations.RptWritesRun : Prop :=
  ∀ (s : State) (n : Nat) (px rest : List Byte), runLengthOk n = true → s.depth ∈ Config.srcDepths → Memory.wf s.pix →
    n ≤ s.slotsLeft → px.length = s.bpp → s.inBytes = px ++ rest →
    ∃ t, exec (.rpt n) s = .next t ∧ t.inBytes = rest ∧ t.index = s.index + n
      ∧ t.iPos = s.iPos + BitVec.ofNat 64 s.bpp ∧ (∀ k, k < n → t.slot (s.index + k) = pixelOfSource px)
      ∧ PixSameOutside s.index n s t ∧ Memory.wf t.pix ∧ t.phase = s.phase ∧ DecodeFrame s t

/-- `RAW`: for every run length that fits and every depth the command accepts, the packet completes: each source pixel is
consumed, converted and written to its slot; `PIXIDX` and `IPOS` advance; no flag changes, nothing else changes (R165). The
header is already fetched. -/
def Obligations.RawWritesPixels : Prop :=
  ∀ (s : State) (pss : List (List Byte)) (rest : List Byte), runLengthOk pss.length = true →
    s.depth ∈ Config.srcDepths → Memory.wf s.pix → pss.length ≤ s.slotsLeft → (∀ px ∈ pss, px.length = s.bpp) →
    s.inBytes = pss.flatten ++ rest →
    ∃ t, exec (.raw pss.length) s = .next t ∧ t.inBytes = rest ∧ t.index = s.index + pss.length
      ∧ t.iPos = s.iPos + BitVec.ofNat 64 (pss.length * s.bpp)
      ∧ (∀ (k : Nat) (h : k < pss.length), t.slot (s.index + k) = pixelOfSource pss[k])
      ∧ PixSameOutside s.index pss.length s t ∧ Memory.wf t.pix ∧ t.phase = s.phase ∧ DecodeFrame s t

/-- A packet longer than the slots left raises `RunOverrun` before any payload byte is read, whatever IN holds, and touches no
PIX byte from `4N` on (R166, R297; the spec's decision D7). Slots `0 .. N−1` are free values after it (R301; log 6), and
that the packet itself makes the check is log 13. -/
def Obligations.OverrunRaises : Prop :=
  ∀ (s : State) (n : Nat), Memory.wf s.pix → s.slotsLeft < n → ∀ i, i = Instr.rpt n ∨ i = Instr.raw n →
    ∃ t, exec i s = .next t ∧ FailedFrom .runOverrun 0 s t ∧ t.inBytes = s.inBytes ∧ t.outBytes = s.outBytes

/-- A packet that fits but whose payload IN cannot serve raises `UnexpectedEOF`, or `StreamError` with the collaborator's
word where the collaborator fails (R167 b and c, R63, R296, R301).
That IN's ending stays after a failed read is the model's choice (log 30; the ending's form is log 8). -/
def Obligations.ShortPayloadRaises : Prop :=
  ∀ (s : State) (n : Nat), Memory.wf s.pix → s.depth ∈ Config.srcDepths → runLengthOk n = true → n ≤ s.slotsLeft →
    (s.inBytes.length < s.bpp →
      ∃ t, exec (.rpt n) s = .next t ∧ FailedFrom (inFailure s).1 (inFailure s).2 s t ∧ t.outBytes = s.outBytes)
    ∧ (s.inBytes.length < n * s.bpp →
      ∃ t, exec (.raw n) s = .next t ∧ FailedFrom (inFailure s).1 (inFailure s).2 s t)

/-- A repeat packet has the effect of the raw packet with its pixel written `n` times, but for `IPOS` (R174). -/
def Obligations.RepeatActsAsRaw : Prop :=
  ∀ (s : State) (n : Nat) (px rest : List Byte), runLengthOk n = true → s.depth ∈ Config.srcDepths →
    n ≤ s.slotsLeft → px.length = s.bpp →
    ∃ t u, exec (.rpt n) { s with inBytes := px ++ rest } = .next t
      ∧ exec (.raw n) { s with inBytes := (List.replicate n px).flatten ++ rest } = .next u
      ∧ t.pix = u.pix ∧ t.pixIdx = u.pixIdx ∧ t.inBytes = u.inBytes
      ∧ t.iPos = s.iPos + BitVec.ofNat 64 s.bpp ∧ u.iPos = s.iPos + BitVec.ofNat 64 (n * s.bpp)

/-! ### Command start, `CLR`, phases -/

/-- A transfer command started in phase `IDLE` or `DONE` with a legal depth and nonzero dimensions goes to `BUSY` with its
code, positions and error latch cleared; configuration, IN, OUT and PIX as before (R46 steps 1, 3, 8; the spec's
decisions D4, D11). -/
def Obligations.TransferCommandStarts : Prop :=
  ∀ (i : Instr) (op : BitVec 3) (s : State), (i, op) ∈ transferCommands → s.phase = .idle ∨ s.phase = .done →
    depthOk op s.depth = true → s.width ≠ 0 → s.height ≠ 0 →
    ∃ t, exec i s = .next t ∧ t.phase = .busy ∧ t.op = op ∧ t.errCode = 0 ∧ t.errInfo = 0 ∧ t.pixIdx = 0 ∧ t.iPos = 0
      ∧ t.oPos = 0
      ∧ WorkFrame { s with phase := .busy, op := op, errCode := 0, errInfo := 0, pixIdx := 0, iPos := 0, oPos := 0 } t

/-- A transfer command with a depth outside its set fails at its start with `UnsupportedBitdepth`, positions 0, the spaces
and the configuration untouched (R46 steps 5 and 6, R292, R301 "Exception"; the spec's decisions D11, D13). -/
def Obligations.UnsupportedDepthRaises : Prop :=
  ∀ (i : Instr) (op : BitVec 3) (s : State), (i, op) ∈ transferCommands → s.phase = .idle ∨ s.phase = .done →
    ((op = 1#3 ∨ op = 2#3) ∧ s.depth ≠ 16#8 ∧ s.depth ≠ 24#8 ∧ s.depth ≠ 32#8
      ∨ (op = 3#3 ∨ op = 4#3) ∧ s.depth ≠ 24#8 ∧ s.depth ≠ 32#8) →
    ∃ t, exec i s = .next t ∧ t.phase = .failed ∧ t.errCode = 2#4
      ∧ WorkFrame
        { s with phase := .failed, op := op, errCode := 2#4, errInfo := 0, pixIdx := 0, iPos := 0, oPos := 0 } t

/-- A host write of a reserved code starts nothing: `CMD.OP` takes the code and the command fails with `IllegalCommand`,
before the depth is looked at, the spaces untouched (R46 step 4, R298, R306; the spec's decision D4). -/
def Obligations.ReservedCodeRaises : Prop :=
  ∀ (v : BitVec 8) (s : State), s.phase = .idle ∨ s.phase = .done → 5 ≤ (v.extractLsb' 0 3).toNat →
    ∃ t, hostAct (.writeCmd v) s = .next t ∧ t.phase = .failed ∧ t.errCode = 7#4
      ∧ WorkFrame
        { s with phase := .failed, op := v.extractLsb' 0 3, errCode := 7#4, errInfo := 0, pixIdx := 0, iPos := 0, oPos := 0 }
        t

/-- In phase `FAILED` every write of `CMD` but `CLR`'s is ignored: the state does not change at all (R36; the spec's
decision D13). -/
def Obligations.FailedIgnoresCommands : Prop :=
  ∀ (v : BitVec 8) (s : State), s.phase = .failed → v.extractLsb' 0 3 ≠ 0#3 → hostAct (.writeCmd v) s = .next s

/-- `CLR` in any phase but `BUSY` gives every control register its reset value and leaves IN, OUT and PIX alone (R226; the spec's
decision D13). -/
def Obligations.ClrResetsRegisters : Prop :=
  ∀ s : State, s.phase ≠ .busy →
    ∃ t, exec .clr s = .next t
      ∧ t.op = State.reset.op ∧ t.width = State.reset.width ∧ t.height = State.reset.height
      ∧ t.depth = State.reset.depth ∧ t.phase = State.reset.phase ∧ t.errCode = State.reset.errCode
      ∧ t.errInfo = State.reset.errInfo ∧ t.pixIdx = State.reset.pixIdx ∧ t.iPos = State.reset.iPos
      ∧ t.oPos = State.reset.oPos
      ∧ t.inBytes = s.inBytes ∧ t.inEnd = s.inEnd ∧ t.outBytes = s.outBytes ∧ t.outRoom = s.outRoom ∧ t.pix = s.pix
      ∧ t.hostQueue = s.hostQueue ∧ t.resetIn = s.resetIn

/-- A transfer command with a legal depth and a zero dimension has no meaning: the model refuses it, as D8 asks (R46 step
7). -/
def Obligations.ZeroDimensionRefused : Prop :=
  ∀ (i : Instr) (op : BitVec 3) (s : State), (i, op) ∈ transferCommands → s.phase = .idle ∨ s.phase = .done →
    depthOk op s.depth = true → s.width = 0 ∨ s.height = 0 → exec i s = .refused .zeroDimension

/-- Writes of the configuration registers take effect in every phase but `BUSY`, and writes of read-only registers are
ignored (R38; the spec's decision D3). -/
def Obligations.RegisterWrites : Prop :=
  ∀ s : State, s.phase ≠ .busy →
    (∀ v, hostAct (.writeWidth v) s = .next { s with width := v })
      ∧ (∀ v, hostAct (.writeHeight v) s = .next { s with height := v })
      ∧ (∀ v, hostAct (.writeDepth v) s = .next { s with depth := v })
      ∧ (∀ r v, hostAct (.writeReadOnly r v) s = .next s)

/-! ### Steps of the command loops -/

/-- One step of `DEC_DIRECT` completes: one source pixel of IN into slot `PIXIDX`, `PIXIDX` and `IPOS` advance, `DONE` when
`PIXIDX` reaches `N`; nothing else changes (R222, R36). -/
def Obligations.DecDirectStep : Prop :=
  ∀ (s : State) (px rest : List Byte), s.phase = .busy → s.op = 1#3 → s.depth ∈ Config.srcDepths → Memory.wf s.pix →
    s.index < s.pixels → px.length = s.bpp → s.inBytes = px ++ rest →
    ∃ t, exec .decDirect s = .next t ∧ t.slot s.index = pixelOfSource px ∧ PixSameOutside s.index 1 s t
      ∧ t.inBytes = rest ∧ t.index = s.index + 1 ∧ t.iPos = s.iPos + BitVec.ofNat 64 s.bpp
      ∧ t.phase = phaseAt (s.index + 1) s ∧ Memory.wf t.pix ∧ DecodeFrame s t

/-- One step of `ENC_DIRECT` completes: slot `PIXIDX` converted and appended to OUT, `PIXIDX` and `OPOS` advance, `DONE` when
`PIXIDX` reaches `N`; PIX and everything else unchanged (R224, R36).
The room that OUT's collaborator has left shrinks by the bytes appended: the model's own field (R65; log 9). -/
def Obligations.EncDirectStep : Prop :=
  ∀ s : State, s.phase = .busy → s.op = 3#3 → s.depth ∈ Config.dstDepths → s.index < s.pixels → roomFor s.bpp s →
    ∃ t bs, exec .encDirect s = .next t ∧ fromRgba s.bpp (s.slot s.index) = some bs ∧ t.outBytes = s.outBytes ++ bs
      ∧ t.index = s.index + 1 ∧ t.oPos = s.oPos + BitVec.ofNat 64 s.bpp ∧ t.phase = phaseAt (s.index + 1) s
      ∧ t.outRoom = roomAfter s.bpp s ∧ EncodeFrame s t

/-- One step of `DEC_RLE` completes for every packet that fits: header and payload leave IN, the slots from `PIXIDX` on hold
its expansion, `PIXIDX` advances by its run and `IPOS` by its length, `DONE` when `PIXIDX` reaches `N`; nothing else changes
(R163, R170, R171, R174). Runs may cross row ends (R168). -/
def Obligations.DecRleStep : Prop :=
  ∀ (s : State) (p : Packet) (rest : List Byte), s.phase = .busy → s.op = 2#3 → s.depth ∈ Config.srcDepths →
    Memory.wf s.pix → p.ok s.bpp = true → p.run ≤ s.slotsLeft → s.inBytes = p.bytes ++ rest →
    ∃ t, exec .decRle s = .next t ∧ slots t s.index p.run = p.expand ∧ PixSameOutside s.index p.run s t
      ∧ t.inBytes = rest ∧ t.index = s.index + p.run ∧ t.iPos = s.iPos + BitVec.ofNat 64 p.bytes.length
      ∧ t.phase = phaseAt (s.index + p.run) s ∧ Memory.wf t.pix ∧ DecodeFrame s t

/-- A step of `DEC_RLE` with no header byte left, or of `DEC_DIRECT` with less than a pixel left, fails with
`UnexpectedEOF`, or `StreamError` where the collaborator fails (R167 a, R222, R63); what stays
defined is R301's. That IN's ending stays after a failed read is the model's choice (log 30; the ending's form is log 8). -/
def Obligations.ShortStreamRaises : Prop :=
  ∀ s : State, s.phase = .busy → Memory.wf s.pix → s.index < s.pixels →
    (s.op = 2#3 → s.inBytes = [] →
      ∃ t, exec .decRle s = .next t ∧ FailedFrom (inFailure s).1 (inFailure s).2 s t)
    ∧ (s.op = 1#3 → s.inBytes.length < s.bpp →
      ∃ t, exec .decDirect s = .next t ∧ FailedFrom (inFailure s).1 (inFailure s).2 s t)

/-- One step of `ENC_RLE` on a run of two or more completes: a repeat packet header and the pixel once (R193, R195).
The room that OUT's collaborator has left shrinks by the bytes appended: the model's own field (R65; log 9). -/
def Obligations.EncRleRepeatStep : Prop :=
  ∀ s : State, s.phase = .busy → s.op = 4#3 → s.depth ∈ Config.dstDepths → s.index < s.pixels → roomFor (1 + s.bpp) s →
    2 ≤ localRun s s.index →
    ∃ t, exec .encRle s = .next t
      ∧ t.outBytes = s.outBytes ++ encode (.rpt (localRun s s.index)) ++ wireBytes s.bpp [s.slot s.index]
      ∧ t.index = s.index + localRun s s.index ∧ t.oPos = s.oPos + BitVec.ofNat 64 (1 + s.bpp)
      ∧ t.phase = phaseAt (s.index + localRun s s.index) s ∧ t.outRoom = roomAfter (1 + s.bpp) s ∧ EncodeFrame s t

/-- One step of `ENC_RLE` on a run of one completes: a raw packet header and the isolated pixels in order (R193, R196).
The room that OUT's collaborator has left shrinks by the bytes appended: the model's own field (R65; log 9). -/
def Obligations.EncRleRawStep : Prop :=
  ∀ s : State, s.phase = .busy → s.op = 4#3 → s.depth ∈ Config.dstDepths → s.index < s.pixels →
    roomFor (1 + rawCount s s.index * s.bpp) s → localRun s s.index = 1 →
    ∃ t, exec .encRle s = .next t
      ∧ t.outBytes = s.outBytes ++ encode (.raw (rawCount s s.index)) ++ wireBytes s.bpp (slots s s.index (rawCount s s.index))
      ∧ t.index = s.index + rawCount s s.index ∧ t.oPos = s.oPos + BitVec.ofNat 64 (1 + rawCount s s.index * s.bpp)
      ∧ t.phase = phaseAt (s.index + rawCount s s.index) s ∧ t.outRoom = roomAfter (1 + rawCount s s.index * s.bpp) s
      ∧ EncodeFrame s t

/-- `run(j)` is the longest run R192 describes: equal pixels, inside the buffer, at most `maxRunLen`; at least 1 inside the
buffer of an image, and 0 exactly where `j ≥ N` or `maxRunLen` is 0 (R192, R194; identity on four bytes is the spec's
decision D9). -/
def Obligations.RunDetection : Prop :=
  ∀ (s : State) (j : Nat),
    (localRun s j = 0 ↔ s.pixels ≤ j ∨ s.maxRun = 0)
      ∧ localRun s j ≤ min 128 s.width.toNat
      ∧ (j < s.pixels → j + localRun s j ≤ s.pixels)
      ∧ (∀ c, c < localRun s j → s.slot (j + c) = s.slot j)
      ∧ (j < s.pixels → localRun s j = s.maxRun ∨ j + localRun s j = s.pixels ∨ s.slot (j + localRun s j) ≠ s.slot j)

/-- The literal scan of R196: from a position whose run is 1, at least one and at most `maxRunLen` pixels, all inside the
buffer and each with run 1, ended by the cap, the end of the buffer or a position that opens a run (the cap counts the first
pixel: the spec's decision D28). -/
def Obligations.RawScan : Prop :=
  ∀ (s : State) (i : Nat), i < s.pixels → localRun s i = 1 →
    1 ≤ rawCount s i ∧ rawCount s i ≤ min 128 s.width.toNat ∧ i + rawCount s i ≤ s.pixels
      ∧ (∀ c, c < rawCount s i → localRun s (i + c) = 1)
      ∧ (rawCount s i = min 128 s.width.toNat ∨ i + rawCount s i = s.pixels ∨ 2 ≤ localRun s (i + rawCount s i))

/-- A step of an encode command whose sink has no room for the bytes the step needs (`bpp`; `1 + bpp` on a run of two or more;
`1 + rawCount × bpp` on a run of one) fails with `StreamError` and the collaborator's word (R65, R296, R301; the sink's room
is log 9). PIX is unchanged: no encode step writes it (R74; that R301 keeps it so after a failure is log 6). -/
def Obligations.FullSinkRaises : Prop :=
  ∀ (s : State) (room : Nat) (e : ErrWord), s.phase = .busy → s.depth ∈ Config.dstDepths → s.index < s.pixels →
    s.outRoom = some (room, e) →
    (s.op = 3#3 → room < s.bpp →
      ∃ t, exec .encDirect s = .next t ∧ FailedFrom .streamError e s t ∧ t.pix = s.pix ∧ t.inBytes = s.inBytes)
    ∧ (s.op = 4#3 →
      (2 ≤ localRun s s.index ∧ room < 1 + s.bpp
        ∨ localRun s s.index = 1 ∧ room < 1 + rawCount s s.index * s.bpp) →
      ∃ t, exec .encRle s = .next t ∧ FailedFrom .streamError e s t ∧ t.pix = s.pix ∧ t.inBytes = s.inBytes)

/-! ### Whole commands -/

/-- The expansion law: an IN that begins with packets whose runs sum to `N` decodes, in at most `N` steps, to their
expansion; exactly their bytes are consumed (R171, R174). -/
def Obligations.DecodeExpandsPackets : Prop :=
  ∀ (s : State) (ps : List Packet) (rest : List Byte), ReadyFor 2#3 s → (∀ p ∈ ps, p.ok s.bpp = true) →
    streamRun ps = s.pixels → s.inBytes = streamBytes ps ++ rest →
    ∃ t, RunsTo .decRle s t ∧ t.phase = .done ∧ slots t 0 s.pixels = streamPixels ps ∧ t.index = s.pixels
      ∧ t.inBytes = rest ∧ t.iPos.toNat = (streamBytes ps).length ∧ t.outBytes = s.outBytes ∧ t.oPos = 0
      ∧ (∀ a, 4 * s.pixels ≤ a → Memory.get t.pix a = Memory.get s.pix a)

/-- The packet that crosses `N` raises `RunOverrun` (R174, R166), whatever follows its header. -/
def Obligations.CrossingPacketOverruns : Prop :=
  ∀ (s : State) (ps : List Packet) (i : Instr) (rest : List Byte), ReadyFor 2#3 s → (∀ p ∈ ps, p.ok s.bpp = true) →
    streamRun ps < s.pixels → (∃ n, (i = .rpt n ∨ i = .raw n) ∧ runLengthOk n = true ∧ s.pixels < streamRun ps + n) →
    s.inBytes = streamBytes ps ++ encode i ++ rest →
    ∃ t, RunsTo .decRle s t ∧ t.phase = .failed ∧ t.errCode = 6#4 ∧ t.errInfo = 0
      ∧ (∀ a, 4 * s.pixels ≤ a → Memory.get t.pix a = Memory.get s.pix a)

/-- `DEC_DIRECT` on `N` source pixels: every slot is the conversion of its pixel, `IPOS` is `N × bpp`, what follows stays
unread (R222). -/
def Obligations.DirectDecodeFillsImage : Prop :=
  ∀ (s : State) (pss : List (List Byte)) (rest : List Byte), ReadyFor 1#3 s → (∀ px ∈ pss, px.length = s.bpp) →
    pss.length = s.pixels → s.inBytes = pss.flatten ++ rest →
    ∃ t, RunsTo .decDirect s t ∧ t.phase = .done ∧ slots t 0 s.pixels = pss.map pixelOfSource ∧ t.index = s.pixels
      ∧ t.iPos.toNat = s.pixels * s.bpp ∧ t.inBytes = rest

/-- `ENC_DIRECT` with room for `N × bpp` bytes: OUT is extended by every slot's bytes in order, `OPOS` is `N × bpp`, PIX is
unchanged (R224; the sink's room is log 9). -/
def Obligations.DirectEncodeWritesImage : Prop :=
  ∀ s : State, ReadyFor 3#3 s → roomFor (s.pixels * s.bpp) s →
    ∃ t, RunsTo .encDirect s t ∧ t.phase = .done ∧ t.outBytes = s.outBytes ++ wireBytes s.bpp (slots s 0 s.pixels)
      ∧ t.index = s.pixels ∧ t.oPos.toNat = s.pixels * s.bpp ∧ t.pix = s.pix

/-- `ENC_RLE` has one packet stream for each image: it covers exactly `N` pixels, every run in 1..min(128, WIDTH), repeat
runs at least 2; and into every sink that has room for that stream's bytes, unbounded or not, the command appends it and
ends in at most `N` steps with `PIXIDX == N`; PIX is unchanged (R203; the end of the loop is R198, the spec's decision D10;
the sink's room is log 9). -/
def Obligations.EncodeEmitsBoundedPackets : Prop :=
  ∀ s : State, ReadyFor 4#3 s →
    ∃ ps : List Packet, streamRun ps = s.pixels
      ∧ (∀ p ∈ ps, p.ok s.bpp = true ∧ 1 ≤ p.run ∧ p.run ≤ min 128 s.width.toNat ∧ ∀ n px, p = .rpt n px → 2 ≤ n)
      ∧ ∀ room, roomHolds (streamBytes ps).length room →
          ∃ t, RunsTo .encRle { s with outRoom := room } t ∧ t.phase = .done ∧ t.index = s.pixels ∧ t.pix = s.pix
            ∧ t.outBytes = s.outBytes ++ streamBytes ps ∧ t.oPos.toNat = (streamBytes ps).length

/-- The size of the output of every `ENC_RLE` that ends with `DONE`, whatever its sink: `⌈N / m⌉ × (1 + bpp) ≤ OPOS` and
`OPOS ≤ N × (1 + bpp)` (R204). -/
def Obligations.EncodeSizeBounds : Prop :=
  ∀ s t : State, ReadyFor 4#3 s → RunsTo .encRle s t → t.phase = .done →
    (s.pixels + s.maxRun - 1) / s.maxRun * (1 + s.bpp) ≤ t.oPos.toNat ∧ t.oPos.toNat ≤ s.pixels * (1 + s.bpp)

/-- With `WIDTH == 1` every pixel is a raw packet of its own: `00` and its bytes, `OPOS = N × (1 + bpp)`, into every sink with
room for them (R199; the sink's room is log 9). -/
def Obligations.WidthOneEncodesSingly : Prop :=
  ∀ s : State, ReadyFor 4#3 s → roomFor (s.pixels * (1 + s.bpp)) s → s.width = 1 →
    ∃ t, RunsTo .encRle s t ∧ t.phase = .done
      ∧ t.outBytes = s.outBytes ++ (slots s 0 s.pixels).flatMap (fun p => 0x00#8 :: wireBytes s.bpp [p])
      ∧ t.oPos.toNat = s.pixels * (1 + s.bpp)

/-- The round trip of `ENC_RLE` and `DEC_RLE`: the bytes that the one appends, into every sink with room for them, the other
decodes, with the same dimensions and depth, to the same pixels, alpha forced to 0xff at 24 bits; exactly `OPOS` bytes are
consumed (R206; the sink's room is log 9). -/
def Obligations.RleRoundTrip : Prop :=
  ∀ s : State, ReadyFor 4#3 s →
    ∃ out : List Byte,
      (∀ room, roomHolds out.length room →
        ∃ t, RunsTo .encRle { s with outRoom := room } t ∧ t.phase = .done ∧ t.outBytes = s.outBytes ++ out
          ∧ t.oPos.toNat = out.length)
      ∧ ∀ (u : State) (rest : List Byte), ReadyFor 2#3 u → u.width = s.width → u.height = s.height → u.depth = s.depth →
          u.inBytes = out ++ rest →
          ∃ v, RunsTo .decRle u v ∧ v.phase = .done ∧ v.inBytes = rest ∧ v.iPos.toNat = out.length
            ∧ ∀ j, j < s.pixels → v.slot j = throughDepth s.depth (s.slot j)

/-- The round trip of `ENC_DIRECT`, with room for `N × bpp` bytes, and `DEC_DIRECT` (R225; the sink's room is log 9). -/
def Obligations.DirectRoundTrip : Prop :=
  ∀ s : State, ReadyFor 3#3 s → roomFor (s.pixels * s.bpp) s →
    ∃ (t : State) (out : List Byte), RunsTo .encDirect s t ∧ t.phase = .done ∧ t.outBytes = s.outBytes ++ out
      ∧ ∀ (u : State) (rest : List Byte), ReadyFor 1#3 u → u.width = s.width → u.height = s.height → u.depth = s.depth →
          u.inBytes = out ++ rest →
          ∃ v, RunsTo .decDirect u v ∧ v.phase = .done ∧ v.inBytes = rest ∧ v.iPos.toNat = s.pixels * s.bpp
            ∧ ∀ j, j < s.pixels → v.slot j = throughDepth s.depth (s.slot j)

/-! ### The whole machine -/

/-- Reset leaves every control register 0 and phase `IDLE` (R55; the spec's decision D16). In every state a read gives the
register's own value with the bits above its width 0 (R38, R39, R43; the map is the spec's decision D3), and `STATUS` reads
as its phase's single flag (R35; that the phase is what State holds is log 20). The reads of the four RW registers are
claimed where R38 allows them, outside `BUSY` (log 26). -/
def Obligations.ResetValues : Prop :=
  (∀ r : Reg, readReg r State.reset = 0#64) ∧ State.reset.phase = .idle
    ∧ ∀ s : State,
        (readReg .status s =
          match s.phase with
          | .idle => 0b000#64
          | .busy => 0b001#64
          | .done => 0b010#64
          | .failed => 0b100#64)
        ∧ (readReg .errCode s).toNat = s.errCode.toNat ∧ (readReg .errInfo s).toNat = s.errInfo.toNat
        ∧ (readReg .pixIdx s).toNat = s.pixIdx.toNat ∧ readReg .iPos s = s.iPos ∧ readReg .oPos s = s.oPos
        ∧ (s.phase ≠ .busy →
            (readReg .cmd s).toNat = s.op.toNat ∧ (readReg .width s).toNat = s.width.toNat
              ∧ (readReg .height s).toNat = s.height.toNat ∧ (readReg .depth s).toNat = s.depth.toNat)

/-- The invariant holds at reset (the reset contents of PIX are log 3's choice). -/
def Obligations.ResetMeetsInvariant : Prop := SystemInv State.reset

/-- Every step of the system keeps the invariant: PIX canonical; a running command has a transfer code, a legal depth,
nonzero dimensions and `PIXIDX < N`; the error latch is set exactly in phase `FAILED`, with a kind the block can raise and a
word only for `StreamError`; outside `FAILED` no position exceeds `5 × PIXIDX` (R30, R31, R32, R35, R43, R290, R300). -/
def Obligations.StepKeepsInvariant : Prop :=
  ∀ s t : State, SystemInv s → step s = .next t → SystemInv t

/-- While `BUSY` the machine always goes on: no step faults (no access leaves `0 .. 4N−1`, R67) and none is refused. -/
def Obligations.BusyStepsComplete : Prop :=
  ∀ s : State, SystemInv s → s.phase = .busy → ∃ t, step s = .next t

/-- The phase changes only as R36 lists (the spec's decision D13). -/
def Obligations.PhaseTransitions : Prop :=
  ∀ s t : State, SystemInv s → step s = .next t → t.phase ≠ s.phase →
    (s.resetIn = some 0 ∧ t.phase = .idle)
      ∨ (s.phase = .busy ∧ t.phase = .done ∧ t.index = t.pixels)
      ∨ (s.phase = .busy ∧ t.phase = .failed)
      ∨ (∃ v q, s.phase ≠ .busy ∧ s.hostQueue = .writeCmd v :: q
          ∧ ((v.extractLsb' 0 3 = 0#3 ∧ t.phase = .idle)
            ∨ (v.extractLsb' 0 3 ≠ 0#3 ∧ s.phase ≠ .failed ∧ (t.phase = .busy ∨ t.phase = .failed))))

/-- A step while `BUSY` that does not fail advances `PIXIDX` by at least 1 and never beyond `N`, and moves no position back
(R32, R33, R172, R198). -/
def Obligations.PositionsAdvance : Prop :=
  ∀ s t : State, SystemInv s → s.phase = .busy → s.resetIn ≠ some 0 → step s = .next t → t.phase ≠ .failed →
    s.index < t.index ∧ t.index ≤ s.pixels ∧ s.iPos.toNat ≤ t.iPos.toNat ∧ s.oPos.toNat ≤ t.oPos.toNat

/-- A step while `BUSY` that fails leaves what R301 lists: the configuration and `CMD.OP`, the appended bytes, no PIX byte
beyond slot `N−1`, the error code of a kind the block raises; an encode command leaves all of PIX (R300, R301; R74 and R205:
no encode step writes PIX; that R301 keeps it so after a failure is log 6; the spec's decision D13). A reset countdown that
is running goes down by one (log 11).
That IN's ending stays after a failed read is the model's choice (log 30; the ending's form is log 8). -/
def Obligations.FailureLeavesConfiguration : Prop :=
  ∀ s t : State, SystemInv s → s.phase = .busy → s.resetIn ≠ some 0 → step s = .next t → t.phase = .failed →
    (∃ (k : ErrorKind) (info : ErrWord), k.raisedByBlock = true
        ∧ FailedFrom k info { s with resetIn := s.resetIn.map (· - 1) } t ∧ (k ≠ .streamError → info = 0))
      ∧ (s.op = 3#3 ∨ s.op = 4#3 → t.pix = s.pix)

/-- Decode commands never touch OUT; encode commands never touch IN nor write PIX (R74), in a step that fails too: that a
failed encode command leaves PIX as it was is log 6 (DEDUCED from R74, R205, R301; U5, D13 and R348 leave PIX open after any
failed command). The collaborators' form is logs 8 and 9. -/
def Obligations.CommandsKeepOtherSpaces : Prop :=
  ∀ s t : State, SystemInv s → s.phase = .busy → s.resetIn ≠ some 0 → step s = .next t →
    (s.op = 1#3 ∨ s.op = 2#3 → t.outBytes = s.outBytes ∧ t.outRoom = s.outRoom)
      ∧ (s.op = 3#3 ∨ s.op = 4#3 → t.inBytes = s.inBytes ∧ t.inEnd = s.inEnd ∧ t.pix = s.pix)

/-- Nothing happens while no command runs and nothing is pending (R331, decision D16; the queue is log 2). -/
def Obligations.IdleDoesNothing : Prop :=
  ∀ s : State, s.phase ≠ .busy → s.hostQueue = [] → s.resetIn = none → step s = .next s

/-- A reset that is due clears the registers as R330 says and leaves IN and OUT; PIX stays too, but for slots `0 .. N−1` of
a decode in progress (R330, R332, decision D16; the countdown, and that the host's pending actions stay, is log 11). -/
def Obligations.PlatformResetClears : Prop :=
  ∀ s : State, Memory.wf s.pix → s.resetIn = some 0 →
    ∃ t, step s = .next t ∧ (∀ r : Reg, readReg r t = 0#64) ∧ t.phase = .idle ∧ t.resetIn = none
      ∧ t.inBytes = s.inBytes ∧ t.inEnd = s.inEnd ∧ t.outBytes = s.outBytes ∧ t.outRoom = s.outRoom
      ∧ t.hostQueue = s.hostQueue
      ∧ (s.phase ≠ .busy ∨ (s.op ≠ 1#3 ∧ s.op ≠ 2#3) → t.pix = s.pix)
      ∧ (∀ a, 4 * s.pixels ≤ a → Memory.get t.pix a = Memory.get s.pix a)

/-! ### A step runs the decoded instruction -/

/-- A pending write of `CMD` whose byte decodes to a command runs that command, the action taken off the queue (R46; the
queue is log 2). -/
def Obligations.StepRunsWrittenCommand : Prop :=
  ∀ (s : State) (v : Byte) (q : List HostAction) (i : Instr), s.resetIn = none → s.phase ≠ .busy →
    s.hostQueue = .writeCmd v :: q → decode .command [v] = .ok (i, []) →
    step s = exec i { s with hostQueue := q }

/-- While `BUSY` a step is the meaning of the command that `CMD.OP` names (R39, R44; log 23). -/
def Obligations.StepRunsRunningCommand : Prop :=
  ∀ (s : State) (i : Instr) (op : BitVec 3), (i, op) ∈ transferCommands → s.resetIn = none → s.phase = .busy →
    s.op = op → step s = exec i s

/-- A step of `DEC_RLE` runs the packet that the byte at IN's read position decodes to: the header leaves IN into `hdr`, the
packet's meaning runs, and the step ends (R163, R170). -/
def Obligations.StepRunsFetchedPacket : Prop :=
  ∀ (s : State) (hdr : Byte) (rest : List Byte) (i : Instr), s.resetIn = none → s.phase = .busy → s.op = 2#3 →
    s.index < s.pixels → s.inBytes = hdr :: rest → decode .packet (hdr :: rest) = .ok (i, rest) →
    step s =
      match exec i { s with
          inBytes := rest, iPos := s.iPos + BitVec.ofNat 64 1, work := { s.work with hdr := hdr } } with
      | .next t => .next (if t.phase = .failed then t else endStep t)
      | o => o

/-- A step of a direct command runs the converter operation that `DEPTH` selects, between reading a pixel and writing it
(R222, R224, R107). -/
def Obligations.StepRunsSelectedConversion : Prop :=
  (∀ (s : State) (px rest : List Byte) (i : Instr), s.resetIn = none → s.phase = .busy → s.op = 1#3 →
      s.index < s.pixels → s.inBytes = px ++ rest → px.length = s.bpp → decode .forward [s.depth] = .ok (i, []) →
      ∃ t u, exec i (setS px (consumeIn s.bpp s)) = .next t ∧ pixWrite s.index t.work.p t = .ok () u
        ∧ step s = .next (endStep (advanceIndex 1 u)))
    ∧ (∀ (s : State) (i : Instr), s.resetIn = none → s.phase = .busy → s.op = 3#3 → s.index < s.pixels →
      roomFor s.bpp s → decode .reverse [s.depth] = .ok (i, []) →
      ∃ t u, exec i (setP (s.slot s.index) s) = .next t ∧ outWrite t.target t = .ok () u
        ∧ step s = .next (endStep (advanceIndex 1 u)))

/-! ### The host codec -/

/-- Header parse: 18 bytes give the fields at their offsets, two-byte fields little-endian, and serialize back to the same
bytes; fewer than 18 bytes are no header, and the Decoder then fails with `MissingHeader` (R243, R241, R291). That the
state, IN with it, is then as before the call is log 31. -/
def Obligations.HeaderParsesLittleEndian : Prop :=
  ∀ bs : List Byte,
    (bs.length = 18 → ∀ rest, ∃ h : Header, parseHeader (bs ++ rest) = some (h, rest) ∧ headerBytes h = bs
      ∧ h.idLen = bs.getD 0 0 ∧ h.colormapType = bs.getD 1 0 ∧ h.imageType = bs.getD 2 0
      ∧ h.colormapOffset.toNat = wordAt bs 3 ∧ h.colormapLength.toNat = wordAt bs 5 ∧ h.colormapDepth = bs.getD 7 0
      ∧ h.imageX.toNat = wordAt bs 8 ∧ h.imageY.toNat = wordAt bs 10 ∧ h.imageWidth.toNat = wordAt bs 12
      ∧ h.imageHeight.toNat = wordAt bs 14 ∧ h.imageDepth = bs.getD 16 0 ∧ h.imageDescriptor = bs.getD 17 0)
    ∧ (bs.length < 18 → parseHeader bs = none
      ∧ ∀ (allocates : Bool) (s : State), decodeImage allocates bs none s = .error .missingHeader 0 s)

/-- `isOpaque` is true exactly when every alpha byte is 0xff, also of the empty buffer (R266). -/
def Obligations.OpaqueMeansAllAlphaFull : Prop :=
  ∀ ps : List Pixel, isOpaque (ps.flatMap pixelBytes) = true ↔ ∀ p ∈ ps, p.a = 0xff#8

/-- The Decoder's checks in order: a short header, then the depth, whatever the image type; the image type only after both
(R250, R291, R292, R293; the place of the last check is the spec's decision D20). A call that passes the checks of header,
depth and skip while the block is `BUSY` is refused before it touches PIX (R47, R340, U6; the place of this refusal is log 10). That the state, IN with it, is as before the
call after a short header or an unsupported depth is log 31. -/
def Obligations.DecoderChecksInOrder : Prop :=
  (∀ (bs : List Byte) (s : State), bs.length < 18 → decodeImage true bs none s = .error .missingHeader 0 s)
    ∧ (∀ (h : Header) (rest : List Byte) (s : State), h.imageDepth ≠ 16#8 → h.imageDepth ≠ 24#8 → h.imageDepth ≠ 32#8 →
        decodeImage true (headerBytes h ++ rest) none s = .error .unsupportedBitdepth 0 s)
    ∧ (∀ (h : Header) (rest : List Byte) (s : State), h.imageDepth ∈ Config.srcDepths → skipCount h ≤ rest.length →
        s.phase ≠ .busy → h.imageWidth ≠ 0 → h.imageHeight ≠ 0 → h.imageType ≠ 0#8 → h.imageType ≠ 2#8 → h.imageType ≠ 10#8 →
        ∃ t, decodeImage true (headerBytes h ++ rest) none s = .error .unsupportedImageFormat 0 t)
    ∧ (∀ (allocates : Bool) (h : Header) (rest : List Byte) (ending : Option ErrWord) (s : State),
        h.imageDepth ∈ Config.srcDepths → skipCount h ≤ rest.length → s.phase = .busy →
        decodeImage allocates (headerBytes h ++ rest) ending s = .refused .hostAccessWhileBusy)

/-- The codec's round trip: every image that keeps the Image invariant and fits the header (16-bit dimensions: R270's derived
part, the spec's decision D21) encodes, compressed or not, into every sink with room for the file (log 9), to a file that
decodes to the same image where the allocator grants the buffer (log 22), from any blocks at rest with no reset on the way
(log 27) (R270). -/
def Obligations.CodecRoundTrip : Prop :=
  ∀ (img : Image) (compress : Bool) (s : State), imageOk img = true → imageFits img = true → s.phase ≠ .busy →
    s.resetIn = none →
    ∃ file : List Byte,
      (∀ room, roomHolds file.length room → ∃ t, encodeImage img compress room s = .value file t)
      ∧ ∀ u : State, u.phase ≠ .busy → u.resetIn = none → ∃ v, decodeImage true file none u = .value img v
end

