-- ==== Sys2Proof/Laws/Encoding.lean ====
section
/-! SUPPORT. Facts about header bytes, by running through all of them (R92, R93). -/

namespace Sys2Proof

theorem runLengthOk_iff {n : Nat} : runLengthOk n = true ↔ 1 ≤ n ∧ n ≤ 128 := by
  rw [runLengthOk, Bool.and_eq_true, decide_eq_true_iff, decide_eq_true_iff]; rfl

/-- A header's mode is one of two. -/
theorem headerMode_cases (hdr : Byte) : headerMode hdr = 1#1 ∨ headerMode hdr = 0#1 := by
  generalize headerMode hdr = m; revert m; decide

/-- What the fields of a header byte are, and that they make it up. -/
theorem header_fields : ∀ hdr : BitVec 8,
    (headerMode hdr = 1#1 ↔ hdr &&& 0x80#8 = 0x80#8) ∧ (headerMode hdr = 0#1 ↔ hdr &&& 0x80#8 = 0x00#8) ∧
      1 ≤ headerRunLength hdr ∧ headerRunLength hdr ≤ 128 ∧
      packetHeader (headerMode hdr) (headerRunLength hdr) = hdr := by decide

theorem packetHeader_fields_fin : ∀ k : Fin 128,
    headerMode (packetHeader 0#1 (k.val + 1)) = 0#1 ∧ headerMode (packetHeader 1#1 (k.val + 1)) = 1#1 ∧
      headerRunLength (packetHeader 0#1 (k.val + 1)) = k.val + 1 ∧
      headerRunLength (packetHeader 1#1 (k.val + 1)) = k.val + 1 := by decide

/-- The header byte of a packet has its mode and its run length. -/
theorem packetHeader_fields {n : Nat} (h : runLengthOk n = true) :
    headerMode (packetHeader 0#1 n) = 0#1 ∧ headerMode (packetHeader 1#1 n) = 1#1 ∧
      headerRunLength (packetHeader 0#1 n) = n ∧ headerRunLength (packetHeader 1#1 n) = n := by
  obtain ⟨h1, h2⟩ := runLengthOk_iff.1 h
  have h3 : n - 1 < 128 := by omega
  have h4 : n - 1 + 1 = n := by omega
  simpa only [h4] using packetHeader_fields_fin ⟨n - 1, h3⟩

end Sys2Proof
end

