-- ==== Sys2Proof/Laws/Memory.lean ====
section
/-! SUPPORT. PIX as a canonical list: what reads see after writes, that every memory operation keeps the canonical form, and
that canonical memories with equal reads are equal. -/

namespace Sys2Proof.Machine

theorem Memory.wf_nil : Memory.wf [] := by simp [Memory.wf]

theorem Memory.wf_tail {c : Host.Cell} {m : Memory} (h : Memory.wf (c :: m)) : Memory.wf m :=
  ⟨(List.pairwise_cons.1 h.1).2, fun d hd => h.2 d (List.mem_cons_of_mem _ hd)⟩

theorem Memory.lt_of_wf {c : Host.Cell} {m : Memory} (h : Memory.wf (c :: m)) {d : Host.Cell} (hd : d ∈ m) : c.1 < d.1 :=
  (List.pairwise_cons.1 h.1).1 d hd

/-- An address below every cell reads as blank. -/
theorem Memory.get_of_forall_ne {m : Memory} {x : Nat} (h : ∀ c ∈ m, c.1 ≠ x) : Memory.get m x = Memory.blank := by
  induction m with
  | nil => rfl
  | cons c m ih =>
    obtain ⟨a, v⟩ := c
    have ha : x ≠ a := fun e => h (a, v) (by simp) e.symm
    simp [Memory.get, ha, ih fun d hd => h d (List.mem_cons_of_mem _ hd)]

/-- A cell of a written memory is the written one or an old one. -/
theorem Memory.mem_set {m : Memory} {x : Nat} {v : Byte} {c : Host.Cell} (hc : c ∈ Memory.set m x v) :
    (c = (x, v) ∧ v ≠ Memory.blank) ∨ c ∈ m := by
  induction m with
  | nil =>
    by_cases hv : v = Memory.blank
    · simp [Memory.set, hv] at hc
    · simp only [Memory.set, hv, if_false, List.mem_singleton] at hc
      exact .inl ⟨hc, hv⟩
  | cons d m ih =>
    obtain ⟨a, w⟩ := d
    simp only [Memory.set] at hc
    split at hc
    · split at hc
      · exact .inr hc
      · rcases List.mem_cons.1 hc with h | h
        · exact .inl ⟨h, ‹_›⟩
        · exact .inr h
    · split at hc
      · split at hc
        · exact .inr (List.mem_cons_of_mem _ hc)
        · rcases List.mem_cons.1 hc with h | h
          · exact .inl ⟨h, ‹_›⟩
          · exact .inr (List.mem_cons_of_mem _ h)
      · rcases List.mem_cons.1 hc with h | h
        · exact .inr (by simp [h])
        · rcases ih h with h | h
          · exact .inl h
          · exact .inr (List.mem_cons_of_mem _ h)

/-- A write keeps the canonical form. -/
theorem Memory.set_wf {m : Memory} (h : Memory.wf m) (x : Nat) (v : Byte) : Memory.wf (Memory.set m x v) := by
  induction m with
  | nil => by_cases hv : v = Memory.blank <;> simp [Memory.set, hv, Memory.wf]
  | cons d m ih =>
    obtain ⟨a, w⟩ := d
    have ht := ih (Memory.wf_tail h)
    have hw : w ≠ Memory.blank := h.2 (a, w) (by simp)
    simp only [Memory.set]
    split
    · rename_i hx
      split
      · exact h
      · rename_i hv
        refine ⟨List.pairwise_cons.2 ⟨?_, h.1⟩, ?_⟩
        · intro c hc
          rcases List.mem_cons.1 hc with e | e
          · rw [e]; exact hx
          · exact Nat.lt_trans hx (Memory.lt_of_wf h e)
        · intro c hc
          rcases List.mem_cons.1 hc with e | e
          · rw [e]; exact hv
          · exact h.2 c e
    · split
      · rename_i hx
        split
        · exact Memory.wf_tail h
        · rename_i hv
          refine ⟨List.pairwise_cons.2 ⟨?_, (Memory.wf_tail h).1⟩, ?_⟩
          · intro c hc; rw [hx]; exact Memory.lt_of_wf h hc
          · intro c hc
            rcases List.mem_cons.1 hc with e | e
            · rw [e]; exact hv
            · exact h.2 c (List.mem_cons_of_mem _ e)
      · refine ⟨List.pairwise_cons.2 ⟨?_, ht.1⟩, ?_⟩
        · intro c hc
          rcases Memory.mem_set hc with ⟨e, -⟩ | e
          · rw [e]; simp only; omega
          · exact Memory.lt_of_wf h e
        · intro c hc
          rcases List.mem_cons.1 hc with e | e
          · rw [e]; exact hw
          · exact ht.2 c e

/-- A read after a write. -/
theorem Memory.get_set {m : Memory} (h : Memory.wf m) (x : Nat) (v : Byte) (y : Nat) :
    Memory.get (Memory.set m x v) y = if y = x then v else Memory.get m y := by
  induction m with
  | nil =>
    by_cases hv : v = Memory.blank
    · simp [Memory.set, hv, Memory.get]
    · simp [Memory.set, hv, Memory.get]
  | cons d m ih =>
    obtain ⟨a, w⟩ := d
    have ih := ih (Memory.wf_tail h)
    simp only [Memory.set]
    split
    · rename_i hx
      split
      · rename_i hv
        by_cases hy : y = x
        · subst hy
          rw [if_pos rfl, hv]
          apply Memory.get_of_forall_ne
          intro c hc
          rcases List.mem_cons.1 hc with e | e
          · rw [e]; simp only; omega
          · have := Memory.lt_of_wf h e; simp only at this; omega
        · simp [hy]
      · simp [Memory.get]
    · split
      · rename_i hx
        subst hx
        split
        · rename_i hv
          by_cases hy : y = x
          · subst hy
            rw [if_pos rfl, hv]
            apply Memory.get_of_forall_ne
            intro c hc
            have := Memory.lt_of_wf h hc; simp only at this; omega
          · simp [hy, Memory.get]
        · by_cases hy : y = x <;> simp [Memory.get, hy]
      · rename_i hx1 hx2
        simp only [Memory.get, ih]
        by_cases hy : y = a
        · subst hy; simp [Ne.symm hx2]
        · simp [hy]

theorem Memory.store_wf {m : Memory} (h : Memory.wf m) (x : Nat) (bs : List Byte) : Memory.wf (Memory.store m x bs) := by
  induction bs generalizing m x with
  | nil => exact h
  | cons b bs ih => exact ih (Memory.set_wf h x b) (x + 1)

theorem Memory.fill_wf {m : Memory} (h : Memory.wf m) (f : Nat → Byte) (n : Nat) : Memory.wf (Memory.fill f n m) := by
  induction n with
  | zero => exact h
  | succ n ih => exact Memory.set_wf ih n (f n)

/-- A read after a write of several bytes. -/
theorem Memory.get_store {m : Memory} (h : Memory.wf m) (x : Nat) (bs : List Byte) (y : Nat) :
    Memory.get (Memory.store m x bs) y =
      if x ≤ y ∧ y < x + bs.length then bs.getD (y - x) 0 else Memory.get m y := by
  induction bs generalizing m x with
  | nil => simp [Memory.store]
  | cons b bs ih =>
    rw [Memory.store, ih (Memory.set_wf h x b), Memory.get_set h]
    by_cases h1 : y = x
    · subst h1; simp
    · by_cases h2 : x + 1 ≤ y ∧ y < x + 1 + bs.length
      · have h3 : x ≤ y ∧ y < x + (b :: bs).length := by simp only [List.length_cons]; omega
        obtain ⟨k, hk⟩ : ∃ k, y - x = k + 1 := ⟨y - x - 1, by omega⟩
        have hk2 : y - (x + 1) = k := by omega
        rw [if_pos h2, if_pos h3, hk, hk2]
        simp
      · have h3 : ¬ (x ≤ y ∧ y < x + (b :: bs).length) := by simp only [List.length_cons]; omega
        rw [if_neg h2, if_neg h3, if_neg h1]

/-- A read after a fill. -/
theorem Memory.get_fill {m : Memory} (h : Memory.wf m) (f : Nat → Byte) (n y : Nat) :
    Memory.get (Memory.fill f n m) y = if y < n then f y else Memory.get m y := by
  induction n with
  | zero => simp [Memory.fill]
  | succ n ih =>
    rw [Memory.fill, Memory.get_set (Memory.fill_wf h f n), ih]
    by_cases h1 : y = n
    · subst h1; simp
    · by_cases h2 : y < n
      · simp [h1, h2, Nat.lt_succ_of_lt h2]
      · have : ¬ y < n + 1 := by omega
        simp [h1, h2, this]

@[simp] theorem Memory.load_length (m : Memory) (x n : Nat) : (Memory.load m x n).length = n := by
  induction n generalizing x with
  | zero => rfl
  | succ n ih => simp [Memory.load, ih]

/-- A byte of a read of several. -/
theorem Memory.getElem?_load (m : Memory) (x n k : Nat) (hk : k < n) :
    (Memory.load m x n)[k]? = some (Memory.get m (x + k)) := by
  induction n generalizing x k with
  | zero => omega
  | succ n ih =>
    cases k with
    | zero => simp [Memory.load]
    | succ k =>
      simp only [Memory.load, List.getElem?_cons_succ]
      rw [ih (x + 1) k (by omega)]
      congr 2; omega

/-- Two reads agree where the bytes do. -/
theorem Memory.load_congr {m m' : Memory} {x n : Nat} (h : ∀ y, x ≤ y → y < x + n → Memory.get m y = Memory.get m' y) :
    Memory.load m x n = Memory.load m' x n := by
  induction n generalizing x with
  | zero => rfl
  | succ n ih =>
    simp only [Memory.load]
    rw [h x (by omega) (by omega), ih fun y h1 h2 => h y (by omega) (by omega)]

/-- A read of what was just written. -/
theorem Memory.load_store {m : Memory} (h : Memory.wf m) (x : Nat) (bs : List Byte) :
    Memory.load (Memory.store m x bs) x bs.length = bs := by
  apply List.ext_getElem?
  intro k
  by_cases hk : k < bs.length
  · rw [Memory.getElem?_load _ _ _ _ hk, Memory.get_store h]
    have h1 : x ≤ x + k ∧ x + k < x + bs.length := by omega
    simp [h1, List.getD_eq_getElem?_getD, List.getElem?_eq_getElem hk]
  · rw [List.getElem?_eq_none (by simpa using hk), List.getElem?_eq_none (by simpa using hk)]

/-- A listed cell is what a read of its address gives. -/
theorem Memory.get_of_mem {m : Memory} (h : Memory.wf m) {c : Host.Cell} (hc : c ∈ m) : Memory.get m c.1 = c.2 := by
  induction m with
  | nil => simp at hc
  | cons d m ih =>
    obtain ⟨a, w⟩ := d
    rcases List.mem_cons.1 hc with e | e
    · simp [e, Memory.get]
    · have := Memory.lt_of_wf h e
      simp only at this
      simp [Memory.get, Nat.ne_of_gt this, ih (Memory.wf_tail h) e]

/-- Canonical memories that read alike are equal. -/
theorem Memory.eq_of_get {m m' : Memory} (h : Memory.wf m) (h' : Memory.wf m')
    (hg : ∀ x, Memory.get m x = Memory.get m' x) : m = m' := by
  induction m generalizing m' with
  | nil =>
    cases m' with
    | nil => rfl
    | cons d m' =>
      have h1 := hg d.1
      rw [Memory.get_of_mem h' (List.mem_cons_self ..)] at h1
      exact absurd h1.symm (h'.2 d (List.mem_cons_self ..))
  | cons c m ih =>
    cases m' with
    | nil =>
      have h1 := hg c.1
      rw [Memory.get_of_mem h (List.mem_cons_self ..)] at h1
      exact absurd h1 (h.2 c (List.mem_cons_self ..))
    | cons d m' =>
      have key : ∀ {e f : Host.Cell} {n n' : Memory}, Memory.wf (e :: n) → Memory.wf (f :: n') →
          (∀ x, Memory.get (e :: n) x = Memory.get (f :: n') x) → ¬ e.1 < f.1 := by
        intro e f n n' he hf hgg hlt
        have h1 := hgg e.1
        rw [Memory.get_of_mem he (List.mem_cons_self ..), Memory.get_of_forall_ne] at h1
        · exact he.2 e (List.mem_cons_self ..) h1
        · intro x hx
          rcases List.mem_cons.1 hx with r | r
          · rw [r]; omega
          · have := Memory.lt_of_wf hf r; omega
      have hcd : c.1 = d.1 := by
        have := key h h' hg
        have := key h' h fun x => (hg x).symm
        omega
      have hv : c.2 = d.2 := by
        have h1 := hg c.1
        rw [Memory.get_of_mem h (List.mem_cons_self ..), hcd, Memory.get_of_mem h' (List.mem_cons_self ..)] at h1
        exact h1
      have hc : c = d := Prod.ext hcd hv
      subst hc
      rw [ih (Memory.wf_tail h) (Memory.wf_tail h') fun x => ?_]
      have h1 := hg x
      by_cases hx : x = c.1
      · subst hx
        rw [Memory.get_of_forall_ne fun e he => Nat.ne_of_gt (Memory.lt_of_wf h he),
          Memory.get_of_forall_ne fun e he => Nat.ne_of_gt (Memory.lt_of_wf h' he)]
      · obtain ⟨a, v⟩ := c
        simpa [Memory.get, hx] using h1

/-- The slot a pixel was written to reads as that pixel. -/
theorem pixelOfBytes_pixelBytes (p : Pixel) : pixelOfBytes (pixelBytes p) = p := rfl

@[simp] theorem pixelBytes_length (p : Pixel) : (pixelBytes p).length = 4 := rfl

end Sys2Proof.Machine
end

