-- ==== Sys2Proof/Laws/State.lean ====
section
/-! SUPPORT. One lemma per field per update of the state, each true by rfl, so that no later proof unfolds a record update. -/

namespace Sys2Proof.Machine

/-! ### setPacketOperands -/

@[simp] theorem setPacketOperands_op (mode : BitVec 1) (n : Nat) (s : State) : (setPacketOperands mode n s).op = s.op := rfl
@[simp] theorem setPacketOperands_width (mode : BitVec 1) (n : Nat) (s : State) : (setPacketOperands mode n s).width = s.width := rfl
@[simp] theorem setPacketOperands_height (mode : BitVec 1) (n : Nat) (s : State) : (setPacketOperands mode n s).height = s.height := rfl
@[simp] theorem setPacketOperands_depth (mode : BitVec 1) (n : Nat) (s : State) : (setPacketOperands mode n s).depth = s.depth := rfl
@[simp] theorem setPacketOperands_phase (mode : BitVec 1) (n : Nat) (s : State) : (setPacketOperands mode n s).phase = s.phase := rfl
@[simp] theorem setPacketOperands_errCode (mode : BitVec 1) (n : Nat) (s : State) : (setPacketOperands mode n s).errCode = s.errCode := rfl
@[simp] theorem setPacketOperands_errInfo (mode : BitVec 1) (n : Nat) (s : State) : (setPacketOperands mode n s).errInfo = s.errInfo := rfl
@[simp] theorem setPacketOperands_pixIdx (mode : BitVec 1) (n : Nat) (s : State) : (setPacketOperands mode n s).pixIdx = s.pixIdx := rfl
@[simp] theorem setPacketOperands_iPos (mode : BitVec 1) (n : Nat) (s : State) : (setPacketOperands mode n s).iPos = s.iPos := rfl
@[simp] theorem setPacketOperands_oPos (mode : BitVec 1) (n : Nat) (s : State) : (setPacketOperands mode n s).oPos = s.oPos := rfl
@[simp] theorem setPacketOperands_work (mode : BitVec 1) (n : Nat) (s : State) : (setPacketOperands mode n s).work = { s.work with mode := mode, runLength := BitVec.ofNat 8 n } := rfl
@[simp] theorem setPacketOperands_pix (mode : BitVec 1) (n : Nat) (s : State) : (setPacketOperands mode n s).pix = s.pix := rfl
@[simp] theorem setPacketOperands_inBytes (mode : BitVec 1) (n : Nat) (s : State) : (setPacketOperands mode n s).inBytes = s.inBytes := rfl
@[simp] theorem setPacketOperands_inEnd (mode : BitVec 1) (n : Nat) (s : State) : (setPacketOperands mode n s).inEnd = s.inEnd := rfl
@[simp] theorem setPacketOperands_outBytes (mode : BitVec 1) (n : Nat) (s : State) : (setPacketOperands mode n s).outBytes = s.outBytes := rfl
@[simp] theorem setPacketOperands_outRoom (mode : BitVec 1) (n : Nat) (s : State) : (setPacketOperands mode n s).outRoom = s.outRoom := rfl
@[simp] theorem setPacketOperands_hostQueue (mode : BitVec 1) (n : Nat) (s : State) : (setPacketOperands mode n s).hostQueue = s.hostQueue := rfl
@[simp] theorem setPacketOperands_resetIn (mode : BitVec 1) (n : Nat) (s : State) : (setPacketOperands mode n s).resetIn = s.resetIn := rfl
@[simp] theorem setPacketOperands_target (mode : BitVec 1) (n : Nat) (s : State) : (setPacketOperands mode n s).target = s.target := rfl
@[simp] theorem setPacketOperands_freeCount (mode : BitVec 1) (n : Nat) (s : State) : (setPacketOperands mode n s).freeCount = s.freeCount := rfl
@[simp] theorem setPacketOperands_pixels (mode : BitVec 1) (n : Nat) (s : State) : (setPacketOperands mode n s).pixels = s.pixels := rfl
@[simp] theorem setPacketOperands_maxRun (mode : BitVec 1) (n : Nat) (s : State) : (setPacketOperands mode n s).maxRun = s.maxRun := rfl
@[simp] theorem setPacketOperands_bpp (mode : BitVec 1) (n : Nat) (s : State) : (setPacketOperands mode n s).bpp = s.bpp := rfl
@[simp] theorem setPacketOperands_index (mode : BitVec 1) (n : Nat) (s : State) : (setPacketOperands mode n s).index = s.index := rfl
@[simp] theorem setPacketOperands_slotsLeft (mode : BitVec 1) (n : Nat) (s : State) : (setPacketOperands mode n s).slotsLeft = s.slotsLeft := rfl
@[simp] theorem setPacketOperands_slot (mode : BitVec 1) (n : Nat) (s : State) (i : Nat) : (setPacketOperands mode n s).slot i = s.slot i := rfl

/-! ### advanceIndex -/

@[simp] theorem advanceIndex_op (n : Nat) (s : State) : (advanceIndex n s).op = s.op := rfl
@[simp] theorem advanceIndex_width (n : Nat) (s : State) : (advanceIndex n s).width = s.width := rfl
@[simp] theorem advanceIndex_height (n : Nat) (s : State) : (advanceIndex n s).height = s.height := rfl
@[simp] theorem advanceIndex_depth (n : Nat) (s : State) : (advanceIndex n s).depth = s.depth := rfl
@[simp] theorem advanceIndex_phase (n : Nat) (s : State) : (advanceIndex n s).phase = s.phase := rfl
@[simp] theorem advanceIndex_errCode (n : Nat) (s : State) : (advanceIndex n s).errCode = s.errCode := rfl
@[simp] theorem advanceIndex_errInfo (n : Nat) (s : State) : (advanceIndex n s).errInfo = s.errInfo := rfl
@[simp] theorem advanceIndex_pixIdx (n : Nat) (s : State) : (advanceIndex n s).pixIdx = s.pixIdx + BitVec.ofNat 32 n := rfl
@[simp] theorem advanceIndex_iPos (n : Nat) (s : State) : (advanceIndex n s).iPos = s.iPos := rfl
@[simp] theorem advanceIndex_oPos (n : Nat) (s : State) : (advanceIndex n s).oPos = s.oPos := rfl
@[simp] theorem advanceIndex_work (n : Nat) (s : State) : (advanceIndex n s).work = s.work := rfl
@[simp] theorem advanceIndex_pix (n : Nat) (s : State) : (advanceIndex n s).pix = s.pix := rfl
@[simp] theorem advanceIndex_inBytes (n : Nat) (s : State) : (advanceIndex n s).inBytes = s.inBytes := rfl
@[simp] theorem advanceIndex_inEnd (n : Nat) (s : State) : (advanceIndex n s).inEnd = s.inEnd := rfl
@[simp] theorem advanceIndex_outBytes (n : Nat) (s : State) : (advanceIndex n s).outBytes = s.outBytes := rfl
@[simp] theorem advanceIndex_outRoom (n : Nat) (s : State) : (advanceIndex n s).outRoom = s.outRoom := rfl
@[simp] theorem advanceIndex_hostQueue (n : Nat) (s : State) : (advanceIndex n s).hostQueue = s.hostQueue := rfl
@[simp] theorem advanceIndex_resetIn (n : Nat) (s : State) : (advanceIndex n s).resetIn = s.resetIn := rfl
@[simp] theorem advanceIndex_target (n : Nat) (s : State) : (advanceIndex n s).target = s.target := rfl
@[simp] theorem advanceIndex_freeCount (n : Nat) (s : State) : (advanceIndex n s).freeCount = s.freeCount := rfl
@[simp] theorem advanceIndex_pixels (n : Nat) (s : State) : (advanceIndex n s).pixels = s.pixels := rfl
@[simp] theorem advanceIndex_maxRun (n : Nat) (s : State) : (advanceIndex n s).maxRun = s.maxRun := rfl
@[simp] theorem advanceIndex_bpp (n : Nat) (s : State) : (advanceIndex n s).bpp = s.bpp := rfl
@[simp] theorem advanceIndex_slot (n : Nat) (s : State) (i : Nat) : (advanceIndex n s).slot i = s.slot i := rfl

/-! ### latchError -/

@[simp] theorem latchError_op (k : ErrorKind) (info : ErrWord) (s : State) : (latchError k info s).op = s.op := rfl
@[simp] theorem latchError_width (k : ErrorKind) (info : ErrWord) (s : State) : (latchError k info s).width = s.width := rfl
@[simp] theorem latchError_height (k : ErrorKind) (info : ErrWord) (s : State) : (latchError k info s).height = s.height := rfl
@[simp] theorem latchError_depth (k : ErrorKind) (info : ErrWord) (s : State) : (latchError k info s).depth = s.depth := rfl
@[simp] theorem latchError_phase (k : ErrorKind) (info : ErrWord) (s : State) : (latchError k info s).phase = .failed := rfl
@[simp] theorem latchError_errCode (k : ErrorKind) (info : ErrWord) (s : State) : (latchError k info s).errCode = k.code := rfl
@[simp] theorem latchError_errInfo (k : ErrorKind) (info : ErrWord) (s : State) : (latchError k info s).errInfo = if k = .streamError then info else 0 := rfl
@[simp] theorem latchError_pixIdx (k : ErrorKind) (info : ErrWord) (s : State) : (latchError k info s).pixIdx = s.pixIdx := rfl
@[simp] theorem latchError_iPos (k : ErrorKind) (info : ErrWord) (s : State) : (latchError k info s).iPos = s.iPos := rfl
@[simp] theorem latchError_oPos (k : ErrorKind) (info : ErrWord) (s : State) : (latchError k info s).oPos = s.oPos := rfl
@[simp] theorem latchError_work (k : ErrorKind) (info : ErrWord) (s : State) : (latchError k info s).work = s.work := rfl
@[simp] theorem latchError_pix (k : ErrorKind) (info : ErrWord) (s : State) : (latchError k info s).pix = s.pix := rfl
@[simp] theorem latchError_inBytes (k : ErrorKind) (info : ErrWord) (s : State) : (latchError k info s).inBytes = s.inBytes := rfl
@[simp] theorem latchError_inEnd (k : ErrorKind) (info : ErrWord) (s : State) : (latchError k info s).inEnd = s.inEnd := rfl
@[simp] theorem latchError_outBytes (k : ErrorKind) (info : ErrWord) (s : State) : (latchError k info s).outBytes = s.outBytes := rfl
@[simp] theorem latchError_outRoom (k : ErrorKind) (info : ErrWord) (s : State) : (latchError k info s).outRoom = s.outRoom := rfl
@[simp] theorem latchError_hostQueue (k : ErrorKind) (info : ErrWord) (s : State) : (latchError k info s).hostQueue = s.hostQueue := rfl
@[simp] theorem latchError_resetIn (k : ErrorKind) (info : ErrWord) (s : State) : (latchError k info s).resetIn = s.resetIn := rfl
@[simp] theorem latchError_target (k : ErrorKind) (info : ErrWord) (s : State) : (latchError k info s).target = s.target := rfl
@[simp] theorem latchError_freeCount (k : ErrorKind) (info : ErrWord) (s : State) : (latchError k info s).freeCount = s.freeCount := rfl
@[simp] theorem latchError_pixels (k : ErrorKind) (info : ErrWord) (s : State) : (latchError k info s).pixels = s.pixels := rfl
@[simp] theorem latchError_maxRun (k : ErrorKind) (info : ErrWord) (s : State) : (latchError k info s).maxRun = s.maxRun := rfl
@[simp] theorem latchError_bpp (k : ErrorKind) (info : ErrWord) (s : State) : (latchError k info s).bpp = s.bpp := rfl
@[simp] theorem latchError_index (k : ErrorKind) (info : ErrWord) (s : State) : (latchError k info s).index = s.index := rfl
@[simp] theorem latchError_slotsLeft (k : ErrorKind) (info : ErrWord) (s : State) : (latchError k info s).slotsLeft = s.slotsLeft := rfl
@[simp] theorem latchError_slot (k : ErrorKind) (info : ErrWord) (s : State) (i : Nat) : (latchError k info s).slot i = s.slot i := rfl

/-! ### finish -/

@[simp] theorem finish_op (s : State) : (finish s).op = s.op := rfl
@[simp] theorem finish_width (s : State) : (finish s).width = s.width := rfl
@[simp] theorem finish_height (s : State) : (finish s).height = s.height := rfl
@[simp] theorem finish_depth (s : State) : (finish s).depth = s.depth := rfl
@[simp] theorem finish_phase (s : State) : (finish s).phase = .done := rfl
@[simp] theorem finish_errCode (s : State) : (finish s).errCode = s.errCode := rfl
@[simp] theorem finish_errInfo (s : State) : (finish s).errInfo = s.errInfo := rfl
@[simp] theorem finish_pixIdx (s : State) : (finish s).pixIdx = s.pixIdx := rfl
@[simp] theorem finish_iPos (s : State) : (finish s).iPos = s.iPos := rfl
@[simp] theorem finish_oPos (s : State) : (finish s).oPos = s.oPos := rfl
@[simp] theorem finish_work (s : State) : (finish s).work = s.work := rfl
@[simp] theorem finish_pix (s : State) : (finish s).pix = s.pix := rfl
@[simp] theorem finish_inBytes (s : State) : (finish s).inBytes = s.inBytes := rfl
@[simp] theorem finish_inEnd (s : State) : (finish s).inEnd = s.inEnd := rfl
@[simp] theorem finish_outBytes (s : State) : (finish s).outBytes = s.outBytes := rfl
@[simp] theorem finish_outRoom (s : State) : (finish s).outRoom = s.outRoom := rfl
@[simp] theorem finish_hostQueue (s : State) : (finish s).hostQueue = s.hostQueue := rfl
@[simp] theorem finish_resetIn (s : State) : (finish s).resetIn = s.resetIn := rfl
@[simp] theorem finish_target (s : State) : (finish s).target = s.target := rfl
@[simp] theorem finish_freeCount (s : State) : (finish s).freeCount = s.freeCount := rfl
@[simp] theorem finish_pixels (s : State) : (finish s).pixels = s.pixels := rfl
@[simp] theorem finish_maxRun (s : State) : (finish s).maxRun = s.maxRun := rfl
@[simp] theorem finish_bpp (s : State) : (finish s).bpp = s.bpp := rfl
@[simp] theorem finish_index (s : State) : (finish s).index = s.index := rfl
@[simp] theorem finish_slotsLeft (s : State) : (finish s).slotsLeft = s.slotsLeft := rfl
@[simp] theorem finish_slot (s : State) (i : Nat) : (finish s).slot i = s.slot i := rfl

/-! ### dropWork -/

@[simp] theorem dropWork_op (s : State) : (dropWork s).op = s.op := rfl
@[simp] theorem dropWork_width (s : State) : (dropWork s).width = s.width := rfl
@[simp] theorem dropWork_height (s : State) : (dropWork s).height = s.height := rfl
@[simp] theorem dropWork_depth (s : State) : (dropWork s).depth = s.depth := rfl
@[simp] theorem dropWork_phase (s : State) : (dropWork s).phase = s.phase := rfl
@[simp] theorem dropWork_errCode (s : State) : (dropWork s).errCode = s.errCode := rfl
@[simp] theorem dropWork_errInfo (s : State) : (dropWork s).errInfo = s.errInfo := rfl
@[simp] theorem dropWork_pixIdx (s : State) : (dropWork s).pixIdx = s.pixIdx := rfl
@[simp] theorem dropWork_iPos (s : State) : (dropWork s).iPos = s.iPos := rfl
@[simp] theorem dropWork_oPos (s : State) : (dropWork s).oPos = s.oPos := rfl
@[simp] theorem dropWork_work (s : State) : (dropWork s).work = freeWork s.freeCount := rfl
@[simp] theorem dropWork_pix (s : State) : (dropWork s).pix = s.pix := rfl
@[simp] theorem dropWork_inBytes (s : State) : (dropWork s).inBytes = s.inBytes := rfl
@[simp] theorem dropWork_inEnd (s : State) : (dropWork s).inEnd = s.inEnd := rfl
@[simp] theorem dropWork_outBytes (s : State) : (dropWork s).outBytes = s.outBytes := rfl
@[simp] theorem dropWork_outRoom (s : State) : (dropWork s).outRoom = s.outRoom := rfl
@[simp] theorem dropWork_hostQueue (s : State) : (dropWork s).hostQueue = s.hostQueue := rfl
@[simp] theorem dropWork_resetIn (s : State) : (dropWork s).resetIn = s.resetIn := rfl
@[simp] theorem dropWork_target (s : State) : (dropWork s).target = [] := rfl
@[simp] theorem dropWork_freeCount (s : State) : (dropWork s).freeCount = s.freeCount + 1 := rfl
@[simp] theorem dropWork_pixels (s : State) : (dropWork s).pixels = s.pixels := rfl
@[simp] theorem dropWork_maxRun (s : State) : (dropWork s).maxRun = s.maxRun := rfl
@[simp] theorem dropWork_bpp (s : State) : (dropWork s).bpp = s.bpp := rfl
@[simp] theorem dropWork_index (s : State) : (dropWork s).index = s.index := rfl
@[simp] theorem dropWork_slotsLeft (s : State) : (dropWork s).slotsLeft = s.slotsLeft := rfl
@[simp] theorem dropWork_slot (s : State) (i : Nat) : (dropWork s).slot i = s.slot i := rfl

/-! ### voidPositions -/

@[simp] theorem voidPositions_op (s : State) : (voidPositions s).op = s.op := rfl
@[simp] theorem voidPositions_width (s : State) : (voidPositions s).width = s.width := rfl
@[simp] theorem voidPositions_height (s : State) : (voidPositions s).height = s.height := rfl
@[simp] theorem voidPositions_depth (s : State) : (voidPositions s).depth = s.depth := rfl
@[simp] theorem voidPositions_phase (s : State) : (voidPositions s).phase = s.phase := rfl
@[simp] theorem voidPositions_errCode (s : State) : (voidPositions s).errCode = s.errCode := rfl
@[simp] theorem voidPositions_errInfo (s : State) : (voidPositions s).errInfo = s.errInfo := rfl
@[simp] theorem voidPositions_work (s : State) : (voidPositions s).work = freeWork s.freeCount := rfl
@[simp] theorem voidPositions_pix (s : State) : (voidPositions s).pix = s.pix := rfl
@[simp] theorem voidPositions_inBytes (s : State) : (voidPositions s).inBytes = s.inBytes := rfl
@[simp] theorem voidPositions_inEnd (s : State) : (voidPositions s).inEnd = s.inEnd := rfl
@[simp] theorem voidPositions_outBytes (s : State) : (voidPositions s).outBytes = s.outBytes := rfl
@[simp] theorem voidPositions_outRoom (s : State) : (voidPositions s).outRoom = s.outRoom := rfl
@[simp] theorem voidPositions_hostQueue (s : State) : (voidPositions s).hostQueue = s.hostQueue := rfl
@[simp] theorem voidPositions_resetIn (s : State) : (voidPositions s).resetIn = s.resetIn := rfl
@[simp] theorem voidPositions_target (s : State) : (voidPositions s).target = [] := rfl
@[simp] theorem voidPositions_freeCount (s : State) : (voidPositions s).freeCount = s.freeCount + 1 := rfl
@[simp] theorem voidPositions_pixels (s : State) : (voidPositions s).pixels = s.pixels := rfl
@[simp] theorem voidPositions_maxRun (s : State) : (voidPositions s).maxRun = s.maxRun := rfl
@[simp] theorem voidPositions_bpp (s : State) : (voidPositions s).bpp = s.bpp := rfl
@[simp] theorem voidPositions_slot (s : State) (i : Nat) : (voidPositions s).slot i = s.slot i := rfl

/-! ### voidPix -/

@[simp] theorem voidPix_op (s : State) : (voidPix s).op = s.op := rfl
@[simp] theorem voidPix_width (s : State) : (voidPix s).width = s.width := rfl
@[simp] theorem voidPix_height (s : State) : (voidPix s).height = s.height := rfl
@[simp] theorem voidPix_depth (s : State) : (voidPix s).depth = s.depth := rfl
@[simp] theorem voidPix_phase (s : State) : (voidPix s).phase = s.phase := rfl
@[simp] theorem voidPix_errCode (s : State) : (voidPix s).errCode = s.errCode := rfl
@[simp] theorem voidPix_errInfo (s : State) : (voidPix s).errInfo = s.errInfo := rfl
@[simp] theorem voidPix_pixIdx (s : State) : (voidPix s).pixIdx = s.pixIdx := rfl
@[simp] theorem voidPix_iPos (s : State) : (voidPix s).iPos = s.iPos := rfl
@[simp] theorem voidPix_oPos (s : State) : (voidPix s).oPos = s.oPos := rfl
@[simp] theorem voidPix_work (s : State) : (voidPix s).work = s.work := rfl
@[simp] theorem voidPix_inBytes (s : State) : (voidPix s).inBytes = s.inBytes := rfl
@[simp] theorem voidPix_inEnd (s : State) : (voidPix s).inEnd = s.inEnd := rfl
@[simp] theorem voidPix_outBytes (s : State) : (voidPix s).outBytes = s.outBytes := rfl
@[simp] theorem voidPix_outRoom (s : State) : (voidPix s).outRoom = s.outRoom := rfl
@[simp] theorem voidPix_hostQueue (s : State) : (voidPix s).hostQueue = s.hostQueue := rfl
@[simp] theorem voidPix_resetIn (s : State) : (voidPix s).resetIn = s.resetIn := rfl
@[simp] theorem voidPix_target (s : State) : (voidPix s).target = s.target := rfl
@[simp] theorem voidPix_freeCount (s : State) : (voidPix s).freeCount = s.freeCount + 1 := rfl
@[simp] theorem voidPix_pixels (s : State) : (voidPix s).pixels = s.pixels := rfl
@[simp] theorem voidPix_maxRun (s : State) : (voidPix s).maxRun = s.maxRun := rfl
@[simp] theorem voidPix_bpp (s : State) : (voidPix s).bpp = s.bpp := rfl
@[simp] theorem voidPix_index (s : State) : (voidPix s).index = s.index := rfl
@[simp] theorem voidPix_slotsLeft (s : State) : (voidPix s).slotsLeft = s.slotsLeft := rfl

/-! ### takeSome -/

@[simp] theorem takeSome_op (n : Nat) (s : State) : (takeSome n s).op = s.op := rfl
@[simp] theorem takeSome_width (n : Nat) (s : State) : (takeSome n s).width = s.width := rfl
@[simp] theorem takeSome_height (n : Nat) (s : State) : (takeSome n s).height = s.height := rfl
@[simp] theorem takeSome_depth (n : Nat) (s : State) : (takeSome n s).depth = s.depth := rfl
@[simp] theorem takeSome_phase (n : Nat) (s : State) : (takeSome n s).phase = s.phase := rfl
@[simp] theorem takeSome_errCode (n : Nat) (s : State) : (takeSome n s).errCode = s.errCode := rfl
@[simp] theorem takeSome_errInfo (n : Nat) (s : State) : (takeSome n s).errInfo = s.errInfo := rfl
@[simp] theorem takeSome_pixIdx (n : Nat) (s : State) : (takeSome n s).pixIdx = s.pixIdx := rfl
@[simp] theorem takeSome_iPos (n : Nat) (s : State) : (takeSome n s).iPos = s.iPos := rfl
@[simp] theorem takeSome_oPos (n : Nat) (s : State) : (takeSome n s).oPos = s.oPos := rfl
@[simp] theorem takeSome_work (n : Nat) (s : State) : (takeSome n s).work = s.work := rfl
@[simp] theorem takeSome_pix (n : Nat) (s : State) : (takeSome n s).pix = s.pix := rfl
@[simp] theorem takeSome_inEnd (n : Nat) (s : State) : (takeSome n s).inEnd = s.inEnd := rfl
@[simp] theorem takeSome_outBytes (n : Nat) (s : State) : (takeSome n s).outBytes = s.outBytes := rfl
@[simp] theorem takeSome_outRoom (n : Nat) (s : State) : (takeSome n s).outRoom = s.outRoom := rfl
@[simp] theorem takeSome_hostQueue (n : Nat) (s : State) : (takeSome n s).hostQueue = s.hostQueue := rfl
@[simp] theorem takeSome_resetIn (n : Nat) (s : State) : (takeSome n s).resetIn = s.resetIn := rfl
@[simp] theorem takeSome_target (n : Nat) (s : State) : (takeSome n s).target = s.target := rfl
@[simp] theorem takeSome_freeCount (n : Nat) (s : State) : (takeSome n s).freeCount = s.freeCount + 1 := rfl
@[simp] theorem takeSome_pixels (n : Nat) (s : State) : (takeSome n s).pixels = s.pixels := rfl
@[simp] theorem takeSome_maxRun (n : Nat) (s : State) : (takeSome n s).maxRun = s.maxRun := rfl
@[simp] theorem takeSome_bpp (n : Nat) (s : State) : (takeSome n s).bpp = s.bpp := rfl
@[simp] theorem takeSome_index (n : Nat) (s : State) : (takeSome n s).index = s.index := rfl
@[simp] theorem takeSome_slotsLeft (n : Nat) (s : State) : (takeSome n s).slotsLeft = s.slotsLeft := rfl
@[simp] theorem takeSome_slot (n : Nat) (s : State) (i : Nat) : (takeSome n s).slot i = s.slot i := rfl

/-! ### appendSome -/

@[simp] theorem appendSome_op (b : List Byte) (s : State) : (appendSome b s).op = s.op := rfl
@[simp] theorem appendSome_width (b : List Byte) (s : State) : (appendSome b s).width = s.width := rfl
@[simp] theorem appendSome_height (b : List Byte) (s : State) : (appendSome b s).height = s.height := rfl
@[simp] theorem appendSome_depth (b : List Byte) (s : State) : (appendSome b s).depth = s.depth := rfl
@[simp] theorem appendSome_phase (b : List Byte) (s : State) : (appendSome b s).phase = s.phase := rfl
@[simp] theorem appendSome_errCode (b : List Byte) (s : State) : (appendSome b s).errCode = s.errCode := rfl
@[simp] theorem appendSome_errInfo (b : List Byte) (s : State) : (appendSome b s).errInfo = s.errInfo := rfl
@[simp] theorem appendSome_pixIdx (b : List Byte) (s : State) : (appendSome b s).pixIdx = s.pixIdx := rfl
@[simp] theorem appendSome_iPos (b : List Byte) (s : State) : (appendSome b s).iPos = s.iPos := rfl
@[simp] theorem appendSome_oPos (b : List Byte) (s : State) : (appendSome b s).oPos = s.oPos := rfl
@[simp] theorem appendSome_work (b : List Byte) (s : State) : (appendSome b s).work = s.work := rfl
@[simp] theorem appendSome_pix (b : List Byte) (s : State) : (appendSome b s).pix = s.pix := rfl
@[simp] theorem appendSome_inBytes (b : List Byte) (s : State) : (appendSome b s).inBytes = s.inBytes := rfl
@[simp] theorem appendSome_inEnd (b : List Byte) (s : State) : (appendSome b s).inEnd = s.inEnd := rfl
@[simp] theorem appendSome_outRoom (b : List Byte) (s : State) : (appendSome b s).outRoom = s.outRoom := rfl
@[simp] theorem appendSome_hostQueue (b : List Byte) (s : State) : (appendSome b s).hostQueue = s.hostQueue := rfl
@[simp] theorem appendSome_resetIn (b : List Byte) (s : State) : (appendSome b s).resetIn = s.resetIn := rfl
@[simp] theorem appendSome_target (b : List Byte) (s : State) : (appendSome b s).target = s.target := rfl
@[simp] theorem appendSome_freeCount (b : List Byte) (s : State) : (appendSome b s).freeCount = s.freeCount + 1 := rfl
@[simp] theorem appendSome_pixels (b : List Byte) (s : State) : (appendSome b s).pixels = s.pixels := rfl
@[simp] theorem appendSome_maxRun (b : List Byte) (s : State) : (appendSome b s).maxRun = s.maxRun := rfl
@[simp] theorem appendSome_bpp (b : List Byte) (s : State) : (appendSome b s).bpp = s.bpp := rfl
@[simp] theorem appendSome_index (b : List Byte) (s : State) : (appendSome b s).index = s.index := rfl
@[simp] theorem appendSome_slotsLeft (b : List Byte) (s : State) : (appendSome b s).slotsLeft = s.slotsLeft := rfl
@[simp] theorem appendSome_slot (b : List Byte) (s : State) (i : Nat) : (appendSome b s).slot i = s.slot i := rfl

/-! ### clearRegisters -/

@[simp] theorem clearRegisters_op (s : State) : (clearRegisters s).op = 0 := rfl
@[simp] theorem clearRegisters_width (s : State) : (clearRegisters s).width = 0 := rfl
@[simp] theorem clearRegisters_height (s : State) : (clearRegisters s).height = 0 := rfl
@[simp] theorem clearRegisters_depth (s : State) : (clearRegisters s).depth = 0 := rfl
@[simp] theorem clearRegisters_phase (s : State) : (clearRegisters s).phase = .idle := rfl
@[simp] theorem clearRegisters_errCode (s : State) : (clearRegisters s).errCode = 0 := rfl
@[simp] theorem clearRegisters_errInfo (s : State) : (clearRegisters s).errInfo = 0 := rfl
@[simp] theorem clearRegisters_pixIdx (s : State) : (clearRegisters s).pixIdx = 0 := rfl
@[simp] theorem clearRegisters_iPos (s : State) : (clearRegisters s).iPos = 0 := rfl
@[simp] theorem clearRegisters_oPos (s : State) : (clearRegisters s).oPos = 0 := rfl
@[simp] theorem clearRegisters_work (s : State) : (clearRegisters s).work = freeWork s.freeCount := rfl
@[simp] theorem clearRegisters_pix (s : State) : (clearRegisters s).pix = s.pix := rfl
@[simp] theorem clearRegisters_inBytes (s : State) : (clearRegisters s).inBytes = s.inBytes := rfl
@[simp] theorem clearRegisters_inEnd (s : State) : (clearRegisters s).inEnd = s.inEnd := rfl
@[simp] theorem clearRegisters_outBytes (s : State) : (clearRegisters s).outBytes = s.outBytes := rfl
@[simp] theorem clearRegisters_outRoom (s : State) : (clearRegisters s).outRoom = s.outRoom := rfl
@[simp] theorem clearRegisters_hostQueue (s : State) : (clearRegisters s).hostQueue = s.hostQueue := rfl
@[simp] theorem clearRegisters_resetIn (s : State) : (clearRegisters s).resetIn = s.resetIn := rfl
@[simp] theorem clearRegisters_target (s : State) : (clearRegisters s).target = [] := rfl
@[simp] theorem clearRegisters_freeCount (s : State) : (clearRegisters s).freeCount = s.freeCount + 1 := rfl
@[simp] theorem clearRegisters_slot (s : State) (i : Nat) : (clearRegisters s).slot i = s.slot i := rfl

/-! ### openCommand -/

@[simp] theorem openCommand_op (op : BitVec 3) (s : State) : (openCommand op s).op = op := rfl
@[simp] theorem openCommand_width (op : BitVec 3) (s : State) : (openCommand op s).width = s.width := rfl
@[simp] theorem openCommand_height (op : BitVec 3) (s : State) : (openCommand op s).height = s.height := rfl
@[simp] theorem openCommand_depth (op : BitVec 3) (s : State) : (openCommand op s).depth = s.depth := rfl
@[simp] theorem openCommand_phase (op : BitVec 3) (s : State) : (openCommand op s).phase = .busy := rfl
@[simp] theorem openCommand_errCode (op : BitVec 3) (s : State) : (openCommand op s).errCode = 0 := rfl
@[simp] theorem openCommand_errInfo (op : BitVec 3) (s : State) : (openCommand op s).errInfo = 0 := rfl
@[simp] theorem openCommand_pixIdx (op : BitVec 3) (s : State) : (openCommand op s).pixIdx = 0 := rfl
@[simp] theorem openCommand_iPos (op : BitVec 3) (s : State) : (openCommand op s).iPos = 0 := rfl
@[simp] theorem openCommand_oPos (op : BitVec 3) (s : State) : (openCommand op s).oPos = 0 := rfl
@[simp] theorem openCommand_work (op : BitVec 3) (s : State) : (openCommand op s).work = freeWork s.freeCount := rfl
@[simp] theorem openCommand_pix (op : BitVec 3) (s : State) : (openCommand op s).pix = s.pix := rfl
@[simp] theorem openCommand_inBytes (op : BitVec 3) (s : State) : (openCommand op s).inBytes = s.inBytes := rfl
@[simp] theorem openCommand_inEnd (op : BitVec 3) (s : State) : (openCommand op s).inEnd = s.inEnd := rfl
@[simp] theorem openCommand_outBytes (op : BitVec 3) (s : State) : (openCommand op s).outBytes = s.outBytes := rfl
@[simp] theorem openCommand_outRoom (op : BitVec 3) (s : State) : (openCommand op s).outRoom = s.outRoom := rfl
@[simp] theorem openCommand_hostQueue (op : BitVec 3) (s : State) : (openCommand op s).hostQueue = s.hostQueue := rfl
@[simp] theorem openCommand_resetIn (op : BitVec 3) (s : State) : (openCommand op s).resetIn = s.resetIn := rfl
@[simp] theorem openCommand_target (op : BitVec 3) (s : State) : (openCommand op s).target = [] := rfl
@[simp] theorem openCommand_freeCount (op : BitVec 3) (s : State) : (openCommand op s).freeCount = s.freeCount + 1 := rfl
@[simp] theorem openCommand_pixels (op : BitVec 3) (s : State) : (openCommand op s).pixels = s.pixels := rfl
@[simp] theorem openCommand_maxRun (op : BitVec 3) (s : State) : (openCommand op s).maxRun = s.maxRun := rfl
@[simp] theorem openCommand_bpp (op : BitVec 3) (s : State) : (openCommand op s).bpp = s.bpp := rfl
@[simp] theorem openCommand_slot (op : BitVec 3) (s : State) (i : Nat) : (openCommand op s).slot i = s.slot i := rfl

/-! ### setP -/

@[simp] theorem setP_op (p : Pixel) (s : State) : (setP p s).op = s.op := rfl
@[simp] theorem setP_width (p : Pixel) (s : State) : (setP p s).width = s.width := rfl
@[simp] theorem setP_height (p : Pixel) (s : State) : (setP p s).height = s.height := rfl
@[simp] theorem setP_depth (p : Pixel) (s : State) : (setP p s).depth = s.depth := rfl
@[simp] theorem setP_phase (p : Pixel) (s : State) : (setP p s).phase = s.phase := rfl
@[simp] theorem setP_errCode (p : Pixel) (s : State) : (setP p s).errCode = s.errCode := rfl
@[simp] theorem setP_errInfo (p : Pixel) (s : State) : (setP p s).errInfo = s.errInfo := rfl
@[simp] theorem setP_pixIdx (p : Pixel) (s : State) : (setP p s).pixIdx = s.pixIdx := rfl
@[simp] theorem setP_iPos (p : Pixel) (s : State) : (setP p s).iPos = s.iPos := rfl
@[simp] theorem setP_oPos (p : Pixel) (s : State) : (setP p s).oPos = s.oPos := rfl
@[simp] theorem setP_work (p : Pixel) (s : State) : (setP p s).work = { s.work with p := p } := rfl
@[simp] theorem setP_pix (p : Pixel) (s : State) : (setP p s).pix = s.pix := rfl
@[simp] theorem setP_inBytes (p : Pixel) (s : State) : (setP p s).inBytes = s.inBytes := rfl
@[simp] theorem setP_inEnd (p : Pixel) (s : State) : (setP p s).inEnd = s.inEnd := rfl
@[simp] theorem setP_outBytes (p : Pixel) (s : State) : (setP p s).outBytes = s.outBytes := rfl
@[simp] theorem setP_outRoom (p : Pixel) (s : State) : (setP p s).outRoom = s.outRoom := rfl
@[simp] theorem setP_hostQueue (p : Pixel) (s : State) : (setP p s).hostQueue = s.hostQueue := rfl
@[simp] theorem setP_resetIn (p : Pixel) (s : State) : (setP p s).resetIn = s.resetIn := rfl
@[simp] theorem setP_target (p : Pixel) (s : State) : (setP p s).target = s.target := rfl
@[simp] theorem setP_freeCount (p : Pixel) (s : State) : (setP p s).freeCount = s.freeCount := rfl
@[simp] theorem setP_pixels (p : Pixel) (s : State) : (setP p s).pixels = s.pixels := rfl
@[simp] theorem setP_maxRun (p : Pixel) (s : State) : (setP p s).maxRun = s.maxRun := rfl
@[simp] theorem setP_bpp (p : Pixel) (s : State) : (setP p s).bpp = s.bpp := rfl
@[simp] theorem setP_index (p : Pixel) (s : State) : (setP p s).index = s.index := rfl
@[simp] theorem setP_slotsLeft (p : Pixel) (s : State) : (setP p s).slotsLeft = s.slotsLeft := rfl
@[simp] theorem setP_slot (p : Pixel) (s : State) (i : Nat) : (setP p s).slot i = s.slot i := rfl

/-! ### setS -/

@[simp] theorem setS_op (bs : List Byte) (s : State) : (setS bs s).op = s.op := rfl
@[simp] theorem setS_width (bs : List Byte) (s : State) : (setS bs s).width = s.width := rfl
@[simp] theorem setS_height (bs : List Byte) (s : State) : (setS bs s).height = s.height := rfl
@[simp] theorem setS_depth (bs : List Byte) (s : State) : (setS bs s).depth = s.depth := rfl
@[simp] theorem setS_phase (bs : List Byte) (s : State) : (setS bs s).phase = s.phase := rfl
@[simp] theorem setS_errCode (bs : List Byte) (s : State) : (setS bs s).errCode = s.errCode := rfl
@[simp] theorem setS_errInfo (bs : List Byte) (s : State) : (setS bs s).errInfo = s.errInfo := rfl
@[simp] theorem setS_pixIdx (bs : List Byte) (s : State) : (setS bs s).pixIdx = s.pixIdx := rfl
@[simp] theorem setS_iPos (bs : List Byte) (s : State) : (setS bs s).iPos = s.iPos := rfl
@[simp] theorem setS_oPos (bs : List Byte) (s : State) : (setS bs s).oPos = s.oPos := rfl
@[simp] theorem setS_work (bs : List Byte) (s : State) : (setS bs s).work = { s.work with s := loadQuad s.work.s bs } := rfl
@[simp] theorem setS_pix (bs : List Byte) (s : State) : (setS bs s).pix = s.pix := rfl
@[simp] theorem setS_inBytes (bs : List Byte) (s : State) : (setS bs s).inBytes = s.inBytes := rfl
@[simp] theorem setS_inEnd (bs : List Byte) (s : State) : (setS bs s).inEnd = s.inEnd := rfl
@[simp] theorem setS_outBytes (bs : List Byte) (s : State) : (setS bs s).outBytes = s.outBytes := rfl
@[simp] theorem setS_outRoom (bs : List Byte) (s : State) : (setS bs s).outRoom = s.outRoom := rfl
@[simp] theorem setS_hostQueue (bs : List Byte) (s : State) : (setS bs s).hostQueue = s.hostQueue := rfl
@[simp] theorem setS_resetIn (bs : List Byte) (s : State) : (setS bs s).resetIn = s.resetIn := rfl
@[simp] theorem setS_target (bs : List Byte) (s : State) : (setS bs s).target = s.target := rfl
@[simp] theorem setS_freeCount (bs : List Byte) (s : State) : (setS bs s).freeCount = s.freeCount := rfl
@[simp] theorem setS_pixels (bs : List Byte) (s : State) : (setS bs s).pixels = s.pixels := rfl
@[simp] theorem setS_maxRun (bs : List Byte) (s : State) : (setS bs s).maxRun = s.maxRun := rfl
@[simp] theorem setS_bpp (bs : List Byte) (s : State) : (setS bs s).bpp = s.bpp := rfl
@[simp] theorem setS_index (bs : List Byte) (s : State) : (setS bs s).index = s.index := rfl
@[simp] theorem setS_slotsLeft (bs : List Byte) (s : State) : (setS bs s).slotsLeft = s.slotsLeft := rfl
@[simp] theorem setS_slot (bs : List Byte) (s : State) (i : Nat) : (setS bs s).slot i = s.slot i := rfl

/-! ### setTarget -/

@[simp] theorem setTarget_op (bs : List Byte) (s : State) : (setTarget bs s).op = s.op := rfl
@[simp] theorem setTarget_width (bs : List Byte) (s : State) : (setTarget bs s).width = s.width := rfl
@[simp] theorem setTarget_height (bs : List Byte) (s : State) : (setTarget bs s).height = s.height := rfl
@[simp] theorem setTarget_depth (bs : List Byte) (s : State) : (setTarget bs s).depth = s.depth := rfl
@[simp] theorem setTarget_phase (bs : List Byte) (s : State) : (setTarget bs s).phase = s.phase := rfl
@[simp] theorem setTarget_errCode (bs : List Byte) (s : State) : (setTarget bs s).errCode = s.errCode := rfl
@[simp] theorem setTarget_errInfo (bs : List Byte) (s : State) : (setTarget bs s).errInfo = s.errInfo := rfl
@[simp] theorem setTarget_pixIdx (bs : List Byte) (s : State) : (setTarget bs s).pixIdx = s.pixIdx := rfl
@[simp] theorem setTarget_iPos (bs : List Byte) (s : State) : (setTarget bs s).iPos = s.iPos := rfl
@[simp] theorem setTarget_oPos (bs : List Byte) (s : State) : (setTarget bs s).oPos = s.oPos := rfl
@[simp] theorem setTarget_work (bs : List Byte) (s : State) : (setTarget bs s).work = s.work := rfl
@[simp] theorem setTarget_pix (bs : List Byte) (s : State) : (setTarget bs s).pix = s.pix := rfl
@[simp] theorem setTarget_inBytes (bs : List Byte) (s : State) : (setTarget bs s).inBytes = s.inBytes := rfl
@[simp] theorem setTarget_inEnd (bs : List Byte) (s : State) : (setTarget bs s).inEnd = s.inEnd := rfl
@[simp] theorem setTarget_outBytes (bs : List Byte) (s : State) : (setTarget bs s).outBytes = s.outBytes := rfl
@[simp] theorem setTarget_outRoom (bs : List Byte) (s : State) : (setTarget bs s).outRoom = s.outRoom := rfl
@[simp] theorem setTarget_hostQueue (bs : List Byte) (s : State) : (setTarget bs s).hostQueue = s.hostQueue := rfl
@[simp] theorem setTarget_resetIn (bs : List Byte) (s : State) : (setTarget bs s).resetIn = s.resetIn := rfl
@[simp] theorem setTarget_target (bs : List Byte) (s : State) : (setTarget bs s).target = bs := rfl
@[simp] theorem setTarget_freeCount (bs : List Byte) (s : State) : (setTarget bs s).freeCount = s.freeCount := rfl
@[simp] theorem setTarget_pixels (bs : List Byte) (s : State) : (setTarget bs s).pixels = s.pixels := rfl
@[simp] theorem setTarget_maxRun (bs : List Byte) (s : State) : (setTarget bs s).maxRun = s.maxRun := rfl
@[simp] theorem setTarget_bpp (bs : List Byte) (s : State) : (setTarget bs s).bpp = s.bpp := rfl
@[simp] theorem setTarget_index (bs : List Byte) (s : State) : (setTarget bs s).index = s.index := rfl
@[simp] theorem setTarget_slotsLeft (bs : List Byte) (s : State) : (setTarget bs s).slotsLeft = s.slotsLeft := rfl
@[simp] theorem setTarget_slot (bs : List Byte) (s : State) (i : Nat) : (setTarget bs s).slot i = s.slot i := rfl

/-! ### setRun -/

@[simp] theorem setRun_op (s : State) : (setRun s).op = s.op := rfl
@[simp] theorem setRun_width (s : State) : (setRun s).width = s.width := rfl
@[simp] theorem setRun_height (s : State) : (setRun s).height = s.height := rfl
@[simp] theorem setRun_depth (s : State) : (setRun s).depth = s.depth := rfl
@[simp] theorem setRun_phase (s : State) : (setRun s).phase = s.phase := rfl
@[simp] theorem setRun_errCode (s : State) : (setRun s).errCode = s.errCode := rfl
@[simp] theorem setRun_errInfo (s : State) : (setRun s).errInfo = s.errInfo := rfl
@[simp] theorem setRun_pixIdx (s : State) : (setRun s).pixIdx = s.pixIdx := rfl
@[simp] theorem setRun_iPos (s : State) : (setRun s).iPos = s.iPos := rfl
@[simp] theorem setRun_oPos (s : State) : (setRun s).oPos = s.oPos := rfl
@[simp] theorem setRun_pix (s : State) : (setRun s).pix = s.pix := rfl
@[simp] theorem setRun_inBytes (s : State) : (setRun s).inBytes = s.inBytes := rfl
@[simp] theorem setRun_inEnd (s : State) : (setRun s).inEnd = s.inEnd := rfl
@[simp] theorem setRun_outBytes (s : State) : (setRun s).outBytes = s.outBytes := rfl
@[simp] theorem setRun_outRoom (s : State) : (setRun s).outRoom = s.outRoom := rfl
@[simp] theorem setRun_hostQueue (s : State) : (setRun s).hostQueue = s.hostQueue := rfl
@[simp] theorem setRun_resetIn (s : State) : (setRun s).resetIn = s.resetIn := rfl
@[simp] theorem setRun_target (s : State) : (setRun s).target = s.target := rfl
@[simp] theorem setRun_freeCount (s : State) : (setRun s).freeCount = s.freeCount := rfl
@[simp] theorem setRun_pixels (s : State) : (setRun s).pixels = s.pixels := rfl
@[simp] theorem setRun_maxRun (s : State) : (setRun s).maxRun = s.maxRun := rfl
@[simp] theorem setRun_bpp (s : State) : (setRun s).bpp = s.bpp := rfl
@[simp] theorem setRun_index (s : State) : (setRun s).index = s.index := rfl
@[simp] theorem setRun_slotsLeft (s : State) : (setRun s).slotsLeft = s.slotsLeft := rfl
@[simp] theorem setRun_slot (s : State) (i : Nat) : (setRun s).slot i = s.slot i := rfl

/-! ### consumeIn -/

@[simp] theorem consumeIn_op (n : Nat) (s : State) : (consumeIn n s).op = s.op := rfl
@[simp] theorem consumeIn_width (n : Nat) (s : State) : (consumeIn n s).width = s.width := rfl
@[simp] theorem consumeIn_height (n : Nat) (s : State) : (consumeIn n s).height = s.height := rfl
@[simp] theorem consumeIn_depth (n : Nat) (s : State) : (consumeIn n s).depth = s.depth := rfl
@[simp] theorem consumeIn_phase (n : Nat) (s : State) : (consumeIn n s).phase = s.phase := rfl
@[simp] theorem consumeIn_errCode (n : Nat) (s : State) : (consumeIn n s).errCode = s.errCode := rfl
@[simp] theorem consumeIn_errInfo (n : Nat) (s : State) : (consumeIn n s).errInfo = s.errInfo := rfl
@[simp] theorem consumeIn_pixIdx (n : Nat) (s : State) : (consumeIn n s).pixIdx = s.pixIdx := rfl
@[simp] theorem consumeIn_iPos (n : Nat) (s : State) : (consumeIn n s).iPos = s.iPos + BitVec.ofNat 64 n := rfl
@[simp] theorem consumeIn_oPos (n : Nat) (s : State) : (consumeIn n s).oPos = s.oPos := rfl
@[simp] theorem consumeIn_work (n : Nat) (s : State) : (consumeIn n s).work = s.work := rfl
@[simp] theorem consumeIn_pix (n : Nat) (s : State) : (consumeIn n s).pix = s.pix := rfl
@[simp] theorem consumeIn_inBytes (n : Nat) (s : State) : (consumeIn n s).inBytes = s.inBytes.drop n := rfl
@[simp] theorem consumeIn_inEnd (n : Nat) (s : State) : (consumeIn n s).inEnd = s.inEnd := rfl
@[simp] theorem consumeIn_outBytes (n : Nat) (s : State) : (consumeIn n s).outBytes = s.outBytes := rfl
@[simp] theorem consumeIn_outRoom (n : Nat) (s : State) : (consumeIn n s).outRoom = s.outRoom := rfl
@[simp] theorem consumeIn_hostQueue (n : Nat) (s : State) : (consumeIn n s).hostQueue = s.hostQueue := rfl
@[simp] theorem consumeIn_resetIn (n : Nat) (s : State) : (consumeIn n s).resetIn = s.resetIn := rfl
@[simp] theorem consumeIn_target (n : Nat) (s : State) : (consumeIn n s).target = s.target := rfl
@[simp] theorem consumeIn_freeCount (n : Nat) (s : State) : (consumeIn n s).freeCount = s.freeCount := rfl
@[simp] theorem consumeIn_pixels (n : Nat) (s : State) : (consumeIn n s).pixels = s.pixels := rfl
@[simp] theorem consumeIn_maxRun (n : Nat) (s : State) : (consumeIn n s).maxRun = s.maxRun := rfl
@[simp] theorem consumeIn_bpp (n : Nat) (s : State) : (consumeIn n s).bpp = s.bpp := rfl
@[simp] theorem consumeIn_index (n : Nat) (s : State) : (consumeIn n s).index = s.index := rfl
@[simp] theorem consumeIn_slotsLeft (n : Nat) (s : State) : (consumeIn n s).slotsLeft = s.slotsLeft := rfl
@[simp] theorem consumeIn_slot (n : Nat) (s : State) (i : Nat) : (consumeIn n s).slot i = s.slot i := rfl

/-! ### appendOut -/

@[simp] theorem appendOut_op (b : List Byte) (s : State) : (appendOut b s).op = s.op := rfl
@[simp] theorem appendOut_width (b : List Byte) (s : State) : (appendOut b s).width = s.width := rfl
@[simp] theorem appendOut_height (b : List Byte) (s : State) : (appendOut b s).height = s.height := rfl
@[simp] theorem appendOut_depth (b : List Byte) (s : State) : (appendOut b s).depth = s.depth := rfl
@[simp] theorem appendOut_phase (b : List Byte) (s : State) : (appendOut b s).phase = s.phase := rfl
@[simp] theorem appendOut_errCode (b : List Byte) (s : State) : (appendOut b s).errCode = s.errCode := rfl
@[simp] theorem appendOut_errInfo (b : List Byte) (s : State) : (appendOut b s).errInfo = s.errInfo := rfl
@[simp] theorem appendOut_pixIdx (b : List Byte) (s : State) : (appendOut b s).pixIdx = s.pixIdx := rfl
@[simp] theorem appendOut_iPos (b : List Byte) (s : State) : (appendOut b s).iPos = s.iPos := rfl
@[simp] theorem appendOut_oPos (b : List Byte) (s : State) : (appendOut b s).oPos = s.oPos + BitVec.ofNat 64 b.length := rfl
@[simp] theorem appendOut_work (b : List Byte) (s : State) : (appendOut b s).work = s.work := rfl
@[simp] theorem appendOut_pix (b : List Byte) (s : State) : (appendOut b s).pix = s.pix := rfl
@[simp] theorem appendOut_inBytes (b : List Byte) (s : State) : (appendOut b s).inBytes = s.inBytes := rfl
@[simp] theorem appendOut_inEnd (b : List Byte) (s : State) : (appendOut b s).inEnd = s.inEnd := rfl
@[simp] theorem appendOut_outBytes (b : List Byte) (s : State) : (appendOut b s).outBytes = s.outBytes ++ b := rfl
@[simp] theorem appendOut_outRoom (b : List Byte) (s : State) : (appendOut b s).outRoom = s.outRoom.map fun r => (r.1 - b.length, r.2) := rfl
@[simp] theorem appendOut_hostQueue (b : List Byte) (s : State) : (appendOut b s).hostQueue = s.hostQueue := rfl
@[simp] theorem appendOut_resetIn (b : List Byte) (s : State) : (appendOut b s).resetIn = s.resetIn := rfl
@[simp] theorem appendOut_target (b : List Byte) (s : State) : (appendOut b s).target = s.target := rfl
@[simp] theorem appendOut_freeCount (b : List Byte) (s : State) : (appendOut b s).freeCount = s.freeCount := rfl
@[simp] theorem appendOut_pixels (b : List Byte) (s : State) : (appendOut b s).pixels = s.pixels := rfl
@[simp] theorem appendOut_maxRun (b : List Byte) (s : State) : (appendOut b s).maxRun = s.maxRun := rfl
@[simp] theorem appendOut_bpp (b : List Byte) (s : State) : (appendOut b s).bpp = s.bpp := rfl
@[simp] theorem appendOut_index (b : List Byte) (s : State) : (appendOut b s).index = s.index := rfl
@[simp] theorem appendOut_slotsLeft (b : List Byte) (s : State) : (appendOut b s).slotsLeft = s.slotsLeft := rfl
@[simp] theorem appendOut_slot (b : List Byte) (s : State) (i : Nat) : (appendOut b s).slot i = s.slot i := rfl

/-! ### storePix -/

@[simp] theorem storePix_op (x : Nat) (v : List Byte) (s : State) : (storePix x v s).op = s.op := rfl
@[simp] theorem storePix_width (x : Nat) (v : List Byte) (s : State) : (storePix x v s).width = s.width := rfl
@[simp] theorem storePix_height (x : Nat) (v : List Byte) (s : State) : (storePix x v s).height = s.height := rfl
@[simp] theorem storePix_depth (x : Nat) (v : List Byte) (s : State) : (storePix x v s).depth = s.depth := rfl
@[simp] theorem storePix_phase (x : Nat) (v : List Byte) (s : State) : (storePix x v s).phase = s.phase := rfl
@[simp] theorem storePix_errCode (x : Nat) (v : List Byte) (s : State) : (storePix x v s).errCode = s.errCode := rfl
@[simp] theorem storePix_errInfo (x : Nat) (v : List Byte) (s : State) : (storePix x v s).errInfo = s.errInfo := rfl
@[simp] theorem storePix_pixIdx (x : Nat) (v : List Byte) (s : State) : (storePix x v s).pixIdx = s.pixIdx := rfl
@[simp] theorem storePix_iPos (x : Nat) (v : List Byte) (s : State) : (storePix x v s).iPos = s.iPos := rfl
@[simp] theorem storePix_oPos (x : Nat) (v : List Byte) (s : State) : (storePix x v s).oPos = s.oPos := rfl
@[simp] theorem storePix_work (x : Nat) (v : List Byte) (s : State) : (storePix x v s).work = s.work := rfl
@[simp] theorem storePix_pix (x : Nat) (v : List Byte) (s : State) : (storePix x v s).pix = Memory.store s.pix x v := rfl
@[simp] theorem storePix_inBytes (x : Nat) (v : List Byte) (s : State) : (storePix x v s).inBytes = s.inBytes := rfl
@[simp] theorem storePix_inEnd (x : Nat) (v : List Byte) (s : State) : (storePix x v s).inEnd = s.inEnd := rfl
@[simp] theorem storePix_outBytes (x : Nat) (v : List Byte) (s : State) : (storePix x v s).outBytes = s.outBytes := rfl
@[simp] theorem storePix_outRoom (x : Nat) (v : List Byte) (s : State) : (storePix x v s).outRoom = s.outRoom := rfl
@[simp] theorem storePix_hostQueue (x : Nat) (v : List Byte) (s : State) : (storePix x v s).hostQueue = s.hostQueue := rfl
@[simp] theorem storePix_resetIn (x : Nat) (v : List Byte) (s : State) : (storePix x v s).resetIn = s.resetIn := rfl
@[simp] theorem storePix_target (x : Nat) (v : List Byte) (s : State) : (storePix x v s).target = s.target := rfl
@[simp] theorem storePix_freeCount (x : Nat) (v : List Byte) (s : State) : (storePix x v s).freeCount = s.freeCount := rfl
@[simp] theorem storePix_pixels (x : Nat) (v : List Byte) (s : State) : (storePix x v s).pixels = s.pixels := rfl
@[simp] theorem storePix_maxRun (x : Nat) (v : List Byte) (s : State) : (storePix x v s).maxRun = s.maxRun := rfl
@[simp] theorem storePix_bpp (x : Nat) (v : List Byte) (s : State) : (storePix x v s).bpp = s.bpp := rfl
@[simp] theorem storePix_index (x : Nat) (v : List Byte) (s : State) : (storePix x v s).index = s.index := rfl
@[simp] theorem storePix_slotsLeft (x : Nat) (v : List Byte) (s : State) : (storePix x v s).slotsLeft = s.slotsLeft := rfl

/-! ### setHdr -/

@[simp] theorem setHdr_op (h : Byte) (s : State) : (setHdr h s).op = s.op := rfl
@[simp] theorem setHdr_width (h : Byte) (s : State) : (setHdr h s).width = s.width := rfl
@[simp] theorem setHdr_height (h : Byte) (s : State) : (setHdr h s).height = s.height := rfl
@[simp] theorem setHdr_depth (h : Byte) (s : State) : (setHdr h s).depth = s.depth := rfl
@[simp] theorem setHdr_phase (h : Byte) (s : State) : (setHdr h s).phase = s.phase := rfl
@[simp] theorem setHdr_errCode (h : Byte) (s : State) : (setHdr h s).errCode = s.errCode := rfl
@[simp] theorem setHdr_errInfo (h : Byte) (s : State) : (setHdr h s).errInfo = s.errInfo := rfl
@[simp] theorem setHdr_pixIdx (h : Byte) (s : State) : (setHdr h s).pixIdx = s.pixIdx := rfl
@[simp] theorem setHdr_iPos (h : Byte) (s : State) : (setHdr h s).iPos = s.iPos := rfl
@[simp] theorem setHdr_oPos (h : Byte) (s : State) : (setHdr h s).oPos = s.oPos := rfl
@[simp] theorem setHdr_work (h : Byte) (s : State) : (setHdr h s).work = { s.work with hdr := h } := rfl
@[simp] theorem setHdr_pix (h : Byte) (s : State) : (setHdr h s).pix = s.pix := rfl
@[simp] theorem setHdr_inBytes (h : Byte) (s : State) : (setHdr h s).inBytes = s.inBytes := rfl
@[simp] theorem setHdr_inEnd (h : Byte) (s : State) : (setHdr h s).inEnd = s.inEnd := rfl
@[simp] theorem setHdr_outBytes (h : Byte) (s : State) : (setHdr h s).outBytes = s.outBytes := rfl
@[simp] theorem setHdr_outRoom (h : Byte) (s : State) : (setHdr h s).outRoom = s.outRoom := rfl
@[simp] theorem setHdr_hostQueue (h : Byte) (s : State) : (setHdr h s).hostQueue = s.hostQueue := rfl
@[simp] theorem setHdr_resetIn (h : Byte) (s : State) : (setHdr h s).resetIn = s.resetIn := rfl
@[simp] theorem setHdr_target (h : Byte) (s : State) : (setHdr h s).target = s.target := rfl
@[simp] theorem setHdr_freeCount (h : Byte) (s : State) : (setHdr h s).freeCount = s.freeCount := rfl
@[simp] theorem setHdr_pixels (h : Byte) (s : State) : (setHdr h s).pixels = s.pixels := rfl
@[simp] theorem setHdr_maxRun (h : Byte) (s : State) : (setHdr h s).maxRun = s.maxRun := rfl
@[simp] theorem setHdr_bpp (h : Byte) (s : State) : (setHdr h s).bpp = s.bpp := rfl
@[simp] theorem setHdr_index (h : Byte) (s : State) : (setHdr h s).index = s.index := rfl
@[simp] theorem setHdr_slotsLeft (h : Byte) (s : State) : (setHdr h s).slotsLeft = s.slotsLeft := rfl
@[simp] theorem setHdr_slot (h : Byte) (s : State) (i : Nat) : (setHdr h s).slot i = s.slot i := rfl

/-! ### setCount -/

@[simp] theorem setCount_op (n : Nat) (s : State) : (setCount n s).op = s.op := rfl
@[simp] theorem setCount_width (n : Nat) (s : State) : (setCount n s).width = s.width := rfl
@[simp] theorem setCount_height (n : Nat) (s : State) : (setCount n s).height = s.height := rfl
@[simp] theorem setCount_depth (n : Nat) (s : State) : (setCount n s).depth = s.depth := rfl
@[simp] theorem setCount_phase (n : Nat) (s : State) : (setCount n s).phase = s.phase := rfl
@[simp] theorem setCount_errCode (n : Nat) (s : State) : (setCount n s).errCode = s.errCode := rfl
@[simp] theorem setCount_errInfo (n : Nat) (s : State) : (setCount n s).errInfo = s.errInfo := rfl
@[simp] theorem setCount_pixIdx (n : Nat) (s : State) : (setCount n s).pixIdx = s.pixIdx := rfl
@[simp] theorem setCount_iPos (n : Nat) (s : State) : (setCount n s).iPos = s.iPos := rfl
@[simp] theorem setCount_oPos (n : Nat) (s : State) : (setCount n s).oPos = s.oPos := rfl
@[simp] theorem setCount_work (n : Nat) (s : State) : (setCount n s).work = { s.work with count := BitVec.ofNat 8 n } := rfl
@[simp] theorem setCount_pix (n : Nat) (s : State) : (setCount n s).pix = s.pix := rfl
@[simp] theorem setCount_inBytes (n : Nat) (s : State) : (setCount n s).inBytes = s.inBytes := rfl
@[simp] theorem setCount_inEnd (n : Nat) (s : State) : (setCount n s).inEnd = s.inEnd := rfl
@[simp] theorem setCount_outBytes (n : Nat) (s : State) : (setCount n s).outBytes = s.outBytes := rfl
@[simp] theorem setCount_outRoom (n : Nat) (s : State) : (setCount n s).outRoom = s.outRoom := rfl
@[simp] theorem setCount_hostQueue (n : Nat) (s : State) : (setCount n s).hostQueue = s.hostQueue := rfl
@[simp] theorem setCount_resetIn (n : Nat) (s : State) : (setCount n s).resetIn = s.resetIn := rfl
@[simp] theorem setCount_target (n : Nat) (s : State) : (setCount n s).target = s.target := rfl
@[simp] theorem setCount_freeCount (n : Nat) (s : State) : (setCount n s).freeCount = s.freeCount := rfl
@[simp] theorem setCount_pixels (n : Nat) (s : State) : (setCount n s).pixels = s.pixels := rfl
@[simp] theorem setCount_maxRun (n : Nat) (s : State) : (setCount n s).maxRun = s.maxRun := rfl
@[simp] theorem setCount_bpp (n : Nat) (s : State) : (setCount n s).bpp = s.bpp := rfl
@[simp] theorem setCount_index (n : Nat) (s : State) : (setCount n s).index = s.index := rfl
@[simp] theorem setCount_slotsLeft (n : Nat) (s : State) : (setCount n s).slotsLeft = s.slotsLeft := rfl
@[simp] theorem setCount_slot (n : Nat) (s : State) (i : Nat) : (setCount n s).slot i = s.slot i := rfl

end Sys2Proof.Machine
end

