-- ==== Sys2Proof/Laws/Slots.lean ====
section
/-! SUPPORT. What slots read after pixels were stored (R66, R67). -/

namespace Sys2Proof.Machine

/-- Storing two sequences one after the other is storing their concatenation. -/
theorem Memory.store_append (m : Memory) (x : Nat) (bs cs : List Byte) :
    Memory.store m x (bs ++ cs) = Memory.store (Memory.store m x bs) (x + bs.length) cs := by
  induction bs generalizing m x with
  | nil => simp [Memory.store]
  | cons b bs ih =>
    simp only [List.cons_append, Memory.store, ih, List.length_cons]
    congr 1; omega

/-- PIX after the pixels `ps` were written to the slots from `i` on. -/
def putPixels (i : Nat) (ps : List Pixel) (s : State) : State := storePix (slotAddr i) (ps.flatMap pixelBytes) s

theorem putPixels_nil (i : Nat) (s : State) : putPixels i [] s = s := rfl

theorem putPixels_cons (i : Nat) (p : Pixel) (ps : List Pixel) (s : State) :
    putPixels i (p :: ps) s = putPixels (i + 1) ps (storePix (slotAddr i) (pixelBytes p) s) := by
  simp only [putPixels, storePix, List.flatMap_cons, Memory.store_append]
  congr 2

theorem flatMap_pixelBytes_length (ps : List Pixel) : (ps.flatMap pixelBytes).length = 4 * ps.length := by
  induction ps with
  | nil => rfl
  | cons p ps ih => simp only [List.flatMap_cons, List.length_append, ih, pixelBytes_length, List.length_cons]; omega

theorem putPixels_wf {s : State} (h : Memory.wf s.pix) (i : Nat) (ps : List Pixel) : Memory.wf (putPixels i ps s).pix :=
  Memory.store_wf h _ _

/-- Bytes outside the written slots read as before. -/
theorem putPixels_get {s : State} (h : Memory.wf s.pix) (i : Nat) (ps : List Pixel) (a : Nat)
    (ha : a < 4 * i ∨ 4 * (i + ps.length) ≤ a) : Memory.get (putPixels i ps s).pix a = Memory.get s.pix a := by
  show Memory.get (Memory.store s.pix (slotAddr i) (ps.flatMap pixelBytes)) a = _
  rw [Memory.get_store h, flatMap_pixelBytes_length, if_neg]
  simp only [slotAddr, Config.canonBpp]; omega

/-- A slot is what its four bytes read as. -/
theorem slot_eq (s : State) (i : Nat) :
    s.slot i = ⟨Memory.get s.pix (4 * i), Memory.get s.pix (4 * i + 1), Memory.get s.pix (4 * i + 2),
      Memory.get s.pix (4 * i + 3)⟩ := rfl

theorem slot_congr {s t : State} {i : Nat} (h : ∀ a, 4 * i ≤ a → a < 4 * i + 4 → Memory.get t.pix a = Memory.get s.pix a) :
    t.slot i = s.slot i := by
  rw [slot_eq, slot_eq, h (4 * i) (by omega) (by omega), h (4 * i + 1) (by omega) (by omega),
    h (4 * i + 2) (by omega) (by omega), h (4 * i + 3) (by omega) (by omega)]

/-- The slot just written reads as the pixel written. -/
theorem slot_storePix_same {s : State} (h : Memory.wf s.pix) (i : Nat) (p : Pixel) :
    (storePix (slotAddr i) (pixelBytes p) s).slot i = p := by
  show pixelOfBytes (Memory.load (Memory.store s.pix (slotAddr i) (pixelBytes p)) (slotAddr i) (pixelBytes p).length) = p
  rw [Memory.load_store h]; rfl

theorem slot_storePix_other {s : State} (h : Memory.wf s.pix) {i j : Nat} (p : Pixel) (hj : j ≠ i) :
    (storePix (slotAddr i) (pixelBytes p) s).slot j = s.slot j := by
  apply slot_congr
  intro a h1 h2
  show Memory.get (Memory.store s.pix (slotAddr i) (pixelBytes p)) a = _
  rw [Memory.get_store h, if_neg]
  simp only [slotAddr, Config.canonBpp, pixelBytes_length]; omega

/-- A slot outside the written ones reads as before. -/
theorem slot_putPixels_outside {s : State} (h : Memory.wf s.pix) {i j : Nat} (ps : List Pixel)
    (hj : j < i ∨ i + ps.length ≤ j) : (putPixels i ps s).slot j = s.slot j := by
  apply slot_congr
  intro a h1 h2
  exact putPixels_get h i ps a (by omega)

/-- A written slot reads as the pixel written to it. -/
theorem slot_putPixels_inside {s : State} (h : Memory.wf s.pix) {i k : Nat} {ps : List Pixel} (hk : k < ps.length) :
    (putPixels i ps s).slot (i + k) = ps[k] := by
  induction ps generalizing i k s with
  | nil => simp at hk
  | cons p ps ih =>
    rw [putPixels_cons]
    cases k with
    | zero =>
      rw [slot_putPixels_outside (Memory.store_wf h _ _) ps (by omega)]
      exact slot_storePix_same h i p
    | succ k =>
      have := ih (s := storePix (slotAddr i) (pixelBytes p) s) (Memory.store_wf h _ _) (i := i + 1) (k := k)
        (by simpa using hk)
      rw [show i + (k + 1) = i + 1 + k by omega, this]; rfl

end Sys2Proof.Machine
end

