-- ==== Sys2Proof/Laws/Ops.lean ====
section
/-! SUPPORT. What each shared operation answers: the answer when it goes on, by conditions on the state alone. -/

namespace Sys2Proof.Machine

open Sys2Proof.Safety

@[simp] theorem Result.bind_ok {α β : Type} (a : α) (s : State) (f : α → State → Result β) :
    (Result.ok a s).bind f = f a s := rfl
@[simp] theorem Result.bind_raised {α β : Type} (s : State) (f : α → State → Result β) :
    (Result.raised s : Result α).bind f = .raised s := rfl
@[simp] theorem Result.bind_fault {α β : Type} (e : Fault) (f : α → State → Result β) :
    (Result.fault e : Result α).bind f = .fault e := rfl
@[simp] theorem Result.bind_refused {α β : Type} (r : Refusal) (f : α → State → Result β) :
    (Result.refused r : Result α).bind f = .refused r := rfl
@[simp] theorem Result.outcome_ok {α : Type} (a : α) (s : State) : (Result.ok a s).outcome = .next s := rfl
@[simp] theorem Result.outcome_raised {α : Type} (s : State) : (Result.raised s : Result α).outcome = .next s := rfl
@[simp] theorem Result.outcome_fault {α : Type} (e : Fault) : (Result.fault e : Result α).outcome = .fault e := rfl
@[simp] theorem Result.outcome_refused {α : Type} (r : Refusal) : (Result.refused r : Result α).outcome = .refused r := rfl

/-- A read that IN can serve. -/
theorem inRead_ok {n : Nat} {s : State} (h : n ≤ s.inBytes.length) :
    inRead n s = .ok (s.inBytes.take n) (consumeIn n s) := by simp [inRead, h]

theorem inRead_append {bs rest : List Byte} {n : Nat} {s : State} (hn : bs.length = n) (h : s.inBytes = bs ++ rest) :
    inRead n s = .ok bs (consumeIn n s) := by
  rw [inRead_ok (by rw [h]; simp; omega), h, ← hn, List.take_left]

/-- A read that IN cannot serve. -/
theorem inRead_short {n : Nat} {s : State} (h : s.inBytes.length < n) :
    inRead n s = .raised (match s.inEnd with
      | none => failDecode .unexpectedEOF 0 (takeSome n s)
      | some e => failDecode .streamError e (takeSome n s)) := by
  rw [inRead, if_neg (by omega)]
  cases s.inEnd <;> rfl

/-- A write that OUT's collaborator accepts. -/
theorem outWrite_ok {b : List Byte} {s : State} (h : ∀ r, s.outRoom = some r → b.length ≤ r.1) :
    outWrite b s = .ok () (appendOut b s) := by
  unfold outWrite
  split
  · rfl
  · rename_i room e hr
    rw [if_pos (h _ hr)]

theorem outWrite_full {b : List Byte} {s : State} {room : Nat} {e : ErrWord} (h : s.outRoom = some (room, e))
    (hb : room < b.length) : outWrite b s = .raised (failEncode .streamError e (appendSome b s)) := by
  unfold outWrite
  rw [h]; simp [Nat.not_le.2 hb]

theorem pixWrite_ok {i : Nat} {s : State} (h : i < s.pixels) (p : Pixel) :
    pixWrite i p s = .ok () (storePix (slotAddr i) (pixelBytes p) s) := by
  rw [pixWrite, memWrite, if_pos]
  simp only [slotAddr, Config.canonBpp, pixelBytes_length]; omega

theorem pixRead_ok {i : Nat} {s : State} (h : i < s.pixels) : pixRead i s = .ok (s.slot i) s := by
  rw [pixRead, memRead, if_pos]
  · rfl
  · simp only [slotAddr, Config.canonBpp]; omega

theorem writeRun_ok {i n : Nat} {s : State} (h : i + n ≤ s.pixels) (p : Pixel) :
    writeRun p i n s = .ok () (putPixels i (List.replicate n p) s) := by
  induction n generalizing i s with
  | zero => rfl
  | succ n ih =>
    rw [writeRun, pixWrite_ok (by omega), Result.bind_ok, ih (by simp; omega), List.replicate_succ, putPixels_cons]

/-- A forward conversion at a length the converter knows (R130); it does not look past its length. -/
theorem toRgba_loadQuad {q : Quad} {bs : List Byte} (h : bs.length = 2 ∨ bs.length = 3 ∨ bs.length = 4) :
    toRgba bs.length (loadQuad q bs) = some (pixelOfSource bs) := by
  match bs, h with
  | [_, _], _ => rfl
  | [_, _, _], _ => rfl
  | [_, _, _, _], _ => rfl

theorem readSource_append {bs rest : List Byte} {s : State} (hn : bs.length = s.bpp) (h : s.inBytes = bs ++ rest) :
    readSource s = .ok () (setS bs (consumeIn s.bpp s)) := by
  rw [readSource, inRead_append hn h, Result.bind_ok]

theorem convertSource_setS {bs : List Byte} {s : State} (hn : bs.length = s.bpp) (hb : s.bpp = 2 ∨ s.bpp = 3 ∨ s.bpp = 4) :
    convertSource (setS bs s) = .ok (some (pixelOfSource bs)) (setP (pixelOfSource bs) (setS bs s)) := by
  have : toRgba (setS bs s).bpp (setS bs s).work.s = some (pixelOfSource bs) := by
    simp only [setS_bpp, setS_work, ← hn]
    exact toRgba_loadQuad (by omega)
  rw [convertSource, this]

/-- One pixel of IN in slot `i` (R165, R222). -/
theorem decodePixel_ok {i : Nat} {bs rest : List Byte} {s : State} (hn : bs.length = s.bpp)
    (hb : s.bpp = 2 ∨ s.bpp = 3 ∨ s.bpp = 4) (h : s.inBytes = bs ++ rest) (hi : i < s.pixels) :
    decodePixel i s =
      .ok () (storePix (slotAddr i) (pixelBytes (pixelOfSource bs))
        (setP (pixelOfSource bs) (setS bs (consumeIn s.bpp s)))) := by
  rw [decodePixel, readSource_append hn h, Result.bind_ok, convertSource_setS (by simpa using hn) (by simpa using hb),
    Result.bind_ok]
  exact pixWrite_ok (by simpa using hi) _

/-- The bytes of a pixel at a target length the converter knows (R136). -/
def targetBytes (n : Nat) (p : Pixel) : List Byte := if n = 3 then bytes24 p else bytes32 p

theorem targetBytes_length {n : Nat} (h : n = 3 ∨ n = 4) (p : Pixel) : (targetBytes n p).length = n := by
  rcases h with h | h <;> subst h <;> rfl

theorem fromRgba_ok {n : Nat} (h : n = 3 ∨ n = 4) (p : Pixel) : fromRgba n p = some (targetBytes n p) := by
  rcases h with h | h <;> subst h <;> rfl

/-- Slot `i` on OUT (R195, R196, R224). -/
theorem encodePixel_eq {i : Nat} {s : State} (hb : s.bpp = 3 ∨ s.bpp = 4) (hi : i < s.pixels) :
    encodePixel i s = outWrite (targetBytes s.bpp (s.slot i)) (setTarget (targetBytes s.bpp (s.slot i)) (setP (s.slot i) s)) := by
  rw [encodePixel, pixRead_ok hi, Result.bind_ok, fromRgba_ok hb]

end Sys2Proof.Machine
end

