-- ==== Sys2Proof/Laws/Decode.lean ====
section
/-! SUPPORT. What the decode meanings answer when IN holds what they read and the run fits (R164, R165, R170). -/

namespace Sys2Proof.Machine

open Sys2Proof.Safety

/-- The state after a decode of `n` pixels `ps` from `m` bytes of IN: PIX, `PIXIDX`, `IPOS` and IN have moved. -/
def decoded (ps : List Pixel) (m : Nat) (rest : List Byte) (w : Working) (s : State) : State :=
  { s with
    pix := (putPixels s.index ps s).pix, pixIdx := s.pixIdx + BitVec.ofNat 32 ps.length
    inBytes := rest, iPos := s.iPos + BitVec.ofNat 64 m, work := w }

theorem bpp_of_depth {s : State} (h : s.depth ∈ Config.srcDepths) : s.bpp = 2 ∨ s.bpp = 3 ∨ s.bpp = 4 := by
  simp only [Config.srcDepths, List.mem_cons, List.not_mem_nil, or_false] at h
  rcases h with h | h | h <;> simp [State.bpp, h]

theorem bpp_of_targetDepth {s : State} (h : s.depth ∈ Config.dstDepths) : s.bpp = 3 ∨ s.bpp = 4 := by
  simp only [Config.dstDepths, List.mem_cons, List.not_mem_nil, or_false] at h
  rcases h with h | h <;> simp [State.bpp, h]

/-- `N` fits the 32 bits of `PIXIDX` (R13). -/
theorem pixels_lt (s : State) : s.pixels < 2 ^ 32 := by
  have h1 : s.width.toNat ≤ 65535 := by have := s.width.isLt; omega
  have h2 : s.height.toNat ≤ 65535 := by have := s.height.isLt; omega
  have := Nat.mul_le_mul h1 h2
  simp only [State.pixels]; omega

/-- `PIXIDX` never wraps while it stays inside the image (R32). -/
theorem index_advance {s : State} {n : Nat} (h : s.index + n ≤ s.pixels) :
    (s.pixIdx + BitVec.ofNat 32 n).toNat = s.index + n := by
  have := pixels_lt s
  rw [BitVec.toNat_add, BitVec.toNat_ofNat]
  simp only [State.index] at *
  omega

theorem checkRun_ok {n : Nat} {s : State} (h : n ≤ s.slotsLeft) : checkRun n s = .ok () s := by
  simp [checkRun, Nat.not_lt.2 h]

theorem checkRun_over {n : Nat} {s : State} (h : s.slotsLeft < n) :
    checkRun n s = .raised (failDecode .runOverrun 0 s) := by simp [checkRun, h]

/-- The body of `RPT` (R164). -/
theorem rptBody_ok {n : Nat} {px rest : List Byte} {s : State} (hd : s.depth ∈ Config.srcDepths) (hn : 1 ≤ n)
    (hl : n ≤ s.slotsLeft) (hp : px.length = s.bpp) (hi : s.inBytes = px ++ rest) :
    ∃ w, rptBody n s = .ok () (decoded (List.replicate n (pixelOfSource px)) s.bpp rest w s) := by
  have hfit : s.index + n ≤ s.pixels := by simp only [State.slotsLeft] at hl; omega
  refine ⟨(setP (pixelOfSource px) (setS px (consumeIn s.bpp (setPacketOperands 1#1 n s)))).work, ?_⟩
  rw [rptBody, checkRun_ok (by simpa using hl), Result.bind_ok, readSource_append (by simpa using hp) (by simpa using hi),
    Result.bind_ok, convertSource_setS (by simpa using hp) (by simpa using bpp_of_depth hd), Result.bind_ok]
  simp only [setP_index, setS_index, consumeIn_index, setPacketOperands_index]
  rw [writeRun_ok (by simpa using hfit), Result.bind_ok]
  simp only [Result.ok.injEq, true_and, decoded, List.length_replicate]
  simp [advanceIndex, putPixels, storePix, setP, setS, consumeIn, setPacketOperands, hi, State.bpp]
  rw [show s.depth.toNat / 8 = px.length from hp.symm, List.drop_left]

/-- The pixels of a raw packet (R165). -/
theorem readPixels_ok {i : Nat} {pss : List (List Byte)} {rest : List Byte} {s : State} (hd : s.depth ∈ Config.srcDepths)
    (hl : i + pss.length ≤ s.pixels) (hp : ∀ px ∈ pss, px.length = s.bpp) (hi : s.inBytes = pss.flatten ++ rest) :
    ∃ w, readPixels i pss.length s = .ok ()
      { s with
        pix := (putPixels i (pss.map pixelOfSource) s).pix, inBytes := rest
        iPos := s.iPos + BitVec.ofNat 64 (pss.length * s.bpp), work := w } := by
  induction pss generalizing i s with
  | nil =>
    refine ⟨s.work, ?_⟩
    simp only [List.flatten_nil, List.nil_append] at hi
    simp only [List.length_nil, readPixels, Result.ok.injEq, true_and, List.map_nil, putPixels_nil, Nat.zero_mul, ← hi]
    simp
  | cons px pss ih =>
    have hpx : px.length = s.bpp := hp px (by simp)
    simp only [List.flatten_cons, List.append_assoc] at hi
    simp only [List.length_cons] at hl
    rw [List.length_cons, readPixels, decodePixel_ok hpx (bpp_of_depth hd) hi (by omega), Result.bind_ok]
    obtain ⟨w, hw⟩ := ih (i := i + 1)
      (s := storePix (slotAddr i) (pixelBytes (pixelOfSource px)) (setP (pixelOfSource px) (setS px (consumeIn s.bpp s))))
      hd (by simp; omega) (fun q hq => hp q (List.mem_cons_of_mem _ hq)) (by simp [hi, ← hpx])
    refine ⟨w, ?_⟩
    rw [hw]
    simp only [Result.ok.injEq, true_and, List.map_cons, putPixels_cons]
    simp only [storePix, setP, setS, consumeIn, putPixels, State.bpp, BitVec.add_assoc, ← BitVec.ofNat_add]
    congr 2
    rw [Nat.add_mul, Nat.one_mul, Nat.add_comm]

/-- The body of `RAW` (R165). -/
theorem rawBody_ok {pss : List (List Byte)} {rest : List Byte} {s : State} (hd : s.depth ∈ Config.srcDepths)
    (hn : 1 ≤ pss.length) (hl : pss.length ≤ s.slotsLeft) (hp : ∀ px ∈ pss, px.length = s.bpp)
    (hi : s.inBytes = pss.flatten ++ rest) :
    ∃ w, rawBody pss.length s = .ok () (decoded (pss.map pixelOfSource) (pss.length * s.bpp) rest w s) := by
  have hfit : s.index + pss.length ≤ s.pixels := by simp only [State.slotsLeft] at hl; omega
  obtain ⟨w, hw⟩ := readPixels_ok (i := s.index) (s := setPacketOperands 0#1 pss.length s) (rest := rest) hd
    (by simpa using hfit) (by simpa using hp) (by simpa using hi)
  refine ⟨w, ?_⟩
  rw [rawBody, checkRun_ok (by simpa using hl), Result.bind_ok]
  simp only [setPacketOperands_index]
  rw [hw, Result.bind_ok]
  simp [decoded, advanceIndex, putPixels, storePix, setPacketOperands, State.bpp]

end Sys2Proof.Machine
end

