-- ==== Sys2Proof/Laws/Encode.lean ====
section
/-! SUPPORT. Run detection and the two emissions (R192, R195, R196). -/

namespace Sys2Proof.Machine

open Sys2Proof.Safety

/-! ### Run detection -/

theorem runFrom_congr {s t : State} (hp : t.pixels = s.pixels) (hs : ∀ i, t.slot i = s.slot i) (j fuel k : Nat) :
    runFrom t j fuel k = runFrom s j fuel k := by
  induction fuel generalizing k with
  | zero => rfl
  | succ f ih => simp only [runFrom, hp, hs, ih]

theorem localRun_congr {s t : State} (hp : t.pixels = s.pixels) (hm : t.maxRun = s.maxRun) (hs : ∀ i, t.slot i = s.slot i)
    (j : Nat) : localRun t j = localRun s j := by rw [localRun, localRun, hm, runFrom_congr hp hs]

theorem gather_congr {s t : State} (h : ∀ j, localRun t j = localRun s j) (i fuel k : Nat) :
    gather t i fuel k = gather s i fuel k := by
  induction fuel generalizing k with
  | zero => rfl
  | succ f ih => simp only [gather, h, ih]

/-- What the loop of R192 ends with, from a `k` whose earlier slots already equal slot `j`. -/
theorem runFrom_spec (s : State) (j fuel k : Nat) :
    k ≤ runFrom s j fuel k ∧ runFrom s j fuel k ≤ k + fuel ∧
      (∀ c, k ≤ c → c < runFrom s j fuel k → j + c < s.pixels ∧ s.slot (j + c) = s.slot j) ∧
      (runFrom s j fuel k = k + fuel ∨ s.pixels ≤ j + runFrom s j fuel k ∨
        s.slot (j + runFrom s j fuel k) ≠ s.slot j) := by
  induction fuel generalizing k with
  | zero => exact ⟨Nat.le_refl _, Nat.le_refl _, fun c h1 h2 => by simp only [runFrom] at h2; omega, .inl rfl⟩
  | succ f ih =>
    simp only [runFrom]
    split
    · rename_i hc
      obtain ⟨h1, h2, h3, h4⟩ := ih (k + 1)
      refine ⟨by omega, by omega, fun c hk hlt => ?_, ?_⟩
      · by_cases hck : c = k
        · subst hck; exact hc
        · exact h3 c (by omega) hlt
      · rcases h4 with h | h | h
        · exact .inl (by omega)
        · exact .inr (.inl h)
        · exact .inr (.inr h)
    · rename_i hc
      refine ⟨Nat.le_refl _, by omega, fun c h1 h2 => by omega, ?_⟩
      by_cases hb : j + k < s.pixels
      · exact .inr (.inr fun h => hc ⟨hb, h⟩)
      · exact .inr (.inl (by omega))

theorem maxRun_pos {s : State} (h : s.width ≠ 0) : 1 ≤ s.maxRun := by
  have : s.width.toNat ≠ 0 := fun e => h (BitVec.eq_of_toNat_eq e)
  simp only [State.maxRun, Config.maxPacketRun]; omega

theorem maxRun_le (s : State) : s.maxRun ≤ 128 := by simp only [State.maxRun, Config.maxPacketRun]; omega

theorem width_ne_zero_of_lt {s : State} {i : Nat} (h : i < s.pixels) : s.width ≠ 0 := by
  intro e; simp [State.pixels, e] at h

/-- Bounds of `run(j)` inside the buffer (R192). -/
theorem localRun_bounds {s : State} {j : Nat} (hj : j < s.pixels) :
    1 ≤ localRun s j ∧ localRun s j ≤ s.maxRun ∧ j + localRun s j ≤ s.pixels ∧
      ∀ c, c < localRun s j → s.slot (j + c) = s.slot j := by
  obtain ⟨-, h2, h3, h4⟩ := runFrom_spec s j s.maxRun 0
  have hm := maxRun_pos (width_ne_zero_of_lt hj)
  have hpos : 1 ≤ localRun s j := by
    rcases Nat.eq_zero_or_pos (localRun s j) with h | h
    · exfalso
      simp only [localRun] at h
      rw [h] at h4
      rcases h4 with h | h | h
      · omega
      · omega
      · exact h rfl
    · exact h
  refine ⟨hpos, by simpa [localRun] using h2, ?_, fun c hc => (h3 c (Nat.zero_le _) hc).2⟩
  have := (h3 (localRun s j - 1) (Nat.zero_le _) (by simp only [localRun] at *; omega)).1
  omega

/-- `run(j)` past the end of the buffer (R192). -/
theorem localRun_outside {s : State} {j : Nat} (hj : s.pixels ≤ j) : localRun s j = 0 := by
  obtain ⟨-, -, h3, -⟩ := runFrom_spec s j s.maxRun 0
  rcases Nat.eq_zero_or_pos (localRun s j) with h | h
  · exact h
  · have := (h3 0 (Nat.le_refl _) h).1; omega

/-- What the scan of R196 ends with. -/
theorem gather_spec (s : State) (i fuel k : Nat) :
    k ≤ gather s i fuel k ∧ gather s i fuel k ≤ k + fuel ∧
      (∀ c, k ≤ c → c < gather s i fuel k → localRun s (i + c) = 1) ∧
      (gather s i fuel k = k + fuel ∨ localRun s (i + gather s i fuel k) ≠ 1) := by
  induction fuel generalizing k with
  | zero => exact ⟨Nat.le_refl _, Nat.le_refl _, fun c h1 h2 => by simp only [gather] at h2; omega, .inl rfl⟩
  | succ f ih =>
    simp only [gather]
    split
    · rename_i hc
      obtain ⟨h1, h2, h3, h4⟩ := ih (k + 1)
      refine ⟨by omega, by omega, fun c hk hlt => ?_, ?_⟩
      · by_cases hck : c = k
        · subst hck; exact hc
        · exact h3 c (by omega) hlt
      · rcases h4 with h | h
        · exact .inl (by omega)
        · exact .inr h
    · rename_i hc
      exact ⟨Nat.le_refl _, by omega, fun c h1 h2 => by omega, .inr hc⟩

/-- Bounds of a raw packet's pixel count (R196). -/
theorem rawCount_bounds {s : State} {i : Nat} (hi : i < s.pixels) (h1 : localRun s i = 1) :
    1 ≤ rawCount s i ∧ rawCount s i ≤ s.maxRun ∧ i + rawCount s i ≤ s.pixels ∧
      ∀ c, c < rawCount s i → localRun s (i + c) = 1 := by
  have hm := maxRun_pos (width_ne_zero_of_lt hi)
  obtain ⟨ha, hb, hc, -⟩ := gather_spec s i (s.maxRun - 1) 1
  have hall : ∀ c, c < rawCount s i → localRun s (i + c) = 1 := by
    intro c hlt
    by_cases h0 : c = 0
    · subst h0; simpa using h1
    · exact hc c (by omega) hlt
  refine ⟨ha, by simp only [rawCount]; omega, ?_, hall⟩
  rcases Nat.lt_or_ge (s.pixels) (i + rawCount s i) with h | h
  · exfalso
    have hl := hall (rawCount s i - 1) (by simp only [rawCount] at *; omega)
    rw [localRun_outside (by simp only [rawCount] at *; omega)] at hl
    omega
  · exact h

/-! ### Emission -/

/-- The state after `n` pixels were emitted as the bytes `bs`: OUT, `OPOS` and `PIXIDX` have moved. -/
def encoded (n : Nat) (bs : List Byte) (w : Working) (tg : List Byte) (s : State) : State :=
  { appendOut bs s with pixIdx := s.pixIdx + BitVec.ofNat 32 n, work := w, target := tg }

theorem roomFor_mono {n m : Nat} {s : State} (h : roomFor n s) (hm : m ≤ n) : roomFor m s :=
  fun r hr => Nat.le_trans hm (h r hr)

theorem roomFor_appendOut {n : Nat} {b : List Byte} {s : State} (h : roomFor (b.length + n) s) :
    roomFor n (appendOut b s) := by
  intro r hr
  simp only [appendOut_outRoom, Option.map_eq_some_iff] at hr
  obtain ⟨q, hq, rfl⟩ := hr
  have := h q hq
  simp only; omega

theorem appendOut_append (a b : List Byte) (s : State) : appendOut b (appendOut a s) = appendOut (a ++ b) s := by
  simp only [appendOut, List.append_assoc, List.length_append, BitVec.ofNat_add, BitVec.add_assoc, Option.map_map]
  congr 2
  funext r
  simp [Nat.sub_sub]

theorem appendOut_nil (s : State) : appendOut [] s = s := by
  have : s.outRoom.map (fun r : Nat × ErrWord => (r.1 - 0, r.2)) = s.outRoom := by cases s.outRoom <;> simp
  simp only [appendOut, List.length_nil, List.append_nil, this]
  simp

/-- The bytes of one pixel on OUT. -/
theorem wireBytes_one {n : Nat} (h : n = 3 ∨ n = 4) (p : Pixel) : wireBytes n [p] = targetBytes n p := by
  simp [wireBytes, fromRgba_ok h]

theorem wireBytes_cons (n : Nat) (p : Pixel) (ps : List Pixel) : wireBytes n (p :: ps) = wireBytes n [p] ++ wireBytes n ps := by
  simp [wireBytes]

theorem wireBytes_length {n : Nat} (h : n = 3 ∨ n = 4) (ps : List Pixel) : (wireBytes n ps).length = ps.length * n := by
  induction ps with
  | nil => simp [wireBytes]
  | cons p ps ih =>
    rw [wireBytes_cons, wireBytes_one h, List.length_append, ih, targetBytes_length h, List.length_cons, Nat.add_mul]; omega

theorem slots_succ (s : State) (i n : Nat) : slots s i (n + 1) = s.slot i :: slots s (i + 1) n := by
  simp [slots, List.range'_succ]

@[simp] theorem slots_length (s : State) (i n : Nat) : (slots s i n).length = n := by simp [slots]

/-- Slots `i .. i+n−1` on OUT (R196). -/
theorem writePixels_ok {i n : Nat} {s : State} (hd : s.depth ∈ Config.dstDepths) (hl : i + n ≤ s.pixels)
    (hr : roomFor (n * s.bpp) s) :
    ∃ w tg, writePixels i n s = .ok () { appendOut (wireBytes s.bpp (slots s i n)) s with work := w, target := tg } := by
  induction n generalizing i s with
  | zero =>
    refine ⟨s.work, s.target, ?_⟩
    have : wireBytes s.bpp (slots s i 0) = [] := rfl
    rw [this, appendOut_nil, writePixels]
  | succ n ih =>
    have hb := bpp_of_targetDepth hd
    have hone : wireBytes s.bpp [s.slot i] = targetBytes s.bpp (s.slot i) := wireBytes_one hb _
    have hlen := targetBytes_length hb (s.slot i)
    have hr' : roomFor (s.bpp + n * s.bpp) s := by
      intro r h; have := hr r h; rw [Nat.add_mul] at this; omega
    rw [writePixels, encodePixel_eq hb (by omega), outWrite_ok, Result.bind_ok]
    · obtain ⟨w, tg, h⟩ := ih (i := i + 1)
        (s := appendOut (targetBytes s.bpp (s.slot i)) (setTarget (targetBytes s.bpp (s.slot i)) (setP (s.slot i) s)))
        hd (by simp; omega) (by
          have : roomFor (n * s.bpp) (appendOut (targetBytes s.bpp (s.slot i)) s) :=
            roomFor_appendOut (by rw [hlen]; exact hr')
          exact this)
      refine ⟨w, tg, ?_⟩
      rw [h]
      simp only [Result.ok.injEq, true_and, slots_succ, wireBytes_cons, hone]
      rw [← appendOut_append]
      rfl
    · intro r h
      rw [hlen]
      exact roomFor_mono hr' (by omega) r h

/-- Emitting a repeat packet (R195). -/
theorem emitRepeat_ok {n : Nat} {s : State} (hd : s.depth ∈ Config.dstDepths) (hi : s.index < s.pixels)
    (hr : roomFor (1 + s.bpp) s) :
    ∃ w tg, emitRepeat n s = .ok () (encoded n (packetHeader 1#1 n :: wireBytes s.bpp [s.slot s.index]) w tg s) := by
  have hb := bpp_of_targetDepth hd
  have hone : wireBytes s.bpp [s.slot s.index] = targetBytes s.bpp (s.slot s.index) := wireBytes_one hb _
  refine ⟨(setP (s.slot s.index) s).work, targetBytes s.bpp (s.slot s.index), ?_⟩
  rw [emitRepeat, outWrite_ok, Result.bind_ok, appendOut_index, encodePixel_eq (by simpa using hb) (by simpa using hi),
    outWrite_ok, Result.bind_ok]
  · simp only [Result.ok.injEq, true_and, encoded, appendOut_bpp, appendOut_slot, hone]
    rw [show packetHeader 1#1 n :: targetBytes s.bpp (s.slot s.index) =
      [packetHeader 1#1 n] ++ targetBytes s.bpp (s.slot s.index) from rfl, ← appendOut_append]
    rfl
  · intro r h
    have : roomFor s.bpp (appendOut [packetHeader 1#1 n] s) := roomFor_appendOut hr
    simp only [appendOut_bpp, appendOut_slot, targetBytes_length hb]
    exact this r h
  · exact fun r h => Nat.le_trans (by simp) (hr r h)

/-- Emitting a raw packet (R196). -/
theorem emitRaw_ok {n : Nat} {s : State} (hd : s.depth ∈ Config.dstDepths) (hl : s.index + n ≤ s.pixels)
    (hr : roomFor (1 + n * s.bpp) s) :
    ∃ w tg, emitRaw n s = .ok () (encoded n (packetHeader 0#1 n :: wireBytes s.bpp (slots s s.index n)) w tg s) := by
  obtain ⟨w, tg, h⟩ := writePixels_ok (i := s.index) (n := n) (s := appendOut [packetHeader 0#1 n] s) hd
    (by simpa using hl) (roomFor_appendOut hr)
  refine ⟨w, tg, ?_⟩
  rw [emitRaw, outWrite_ok, Result.bind_ok, appendOut_index, h, Result.bind_ok]
  · simp only [Result.ok.injEq, true_and, encoded]
    rw [show packetHeader 0#1 n :: wireBytes s.bpp (slots s s.index n) =
      [packetHeader 0#1 n] ++ wireBytes s.bpp (slots s s.index n) from rfl, ← appendOut_append]
    rfl
  · exact fun r h => Nat.le_trans (by simp) (hr r h)

end Sys2Proof.Machine
end

