-- ==== Sys2Proof/Laws/Fail.lean ====
section
/-! SUPPORT. What a failing step leaves (R300, R301), and when the decode and encode meanings fail (R166, R167, R65). -/

namespace Sys2Proof.Machine

open Sys2Proof.Safety

/-- The steps before a failing one keep what R301 lists, so a failure after them is a failure from where they began. -/
def KeptUpTo (s t : State) : Prop :=
  t.op = s.op ∧ t.width = s.width ∧ t.height = s.height ∧ t.depth = s.depth ∧ s.outBytes <+: t.outBytes
    ∧ t.inBytes <:+ s.inBytes ∧ t.inEnd = s.inEnd ∧ t.hostQueue = s.hostQueue ∧ t.resetIn = s.resetIn
    ∧ (∀ a, 4 * s.pixels ≤ a → Memory.get t.pix a = Memory.get s.pix a)

theorem failedFrom_after {k : ErrorKind} {info : ErrWord} {s t u : State} (hk : KeptUpTo s t)
    (hf : FailedFrom k info t u) : FailedFrom k info s u := by
  obtain ⟨a1, a2, a3, a4, a5, a6, a7, a8, a9, a10⟩ := hk
  obtain ⟨b1, b2, b3, b4, b5, b6, b7, b8, b9, b10, b11, b12, b13⟩ := hf
  refine ⟨b1, b2, b3, b4.trans a1, b5.trans a2, b6.trans a3, b7.trans a4, a5.trans b8, b9.trans a6, b10.trans a7,
    b11.trans a8, b12.trans a9, fun a ha => ?_⟩
  have hp : t.pixels = s.pixels := by simp only [State.pixels, a2, a3]
  rw [b13 a (by rw [hp]; exact ha), a10 a ha]

theorem failDecode_pix_wf {s : State} (h : Memory.wf s.pix) (k : ErrorKind) (info : ErrWord) :
    Memory.wf (failDecode k info s).pix := Memory.fill_wf h _ _

theorem failDecode_failedFrom {s : State} (h : Memory.wf s.pix) (k : ErrorKind) (info : ErrWord) :
    FailedFrom k (if k = .streamError then info else 0) s (failDecode k info s) := by
  refine ⟨rfl, rfl, rfl, rfl, rfl, rfl, rfl, List.prefix_refl _, List.suffix_refl _, rfl, rfl, rfl, fun a ha => ?_⟩
  show Memory.get (Memory.fill _ (Config.canonBpp * s.pixels) s.pix) a = _
  rw [Memory.get_fill h, if_neg (by simp only [Config.canonBpp]; omega)]

theorem failEncode_failedFrom (s : State) (k : ErrorKind) (info : ErrWord) :
    FailedFrom k (if k = .streamError then info else 0) s (failEncode k info s) :=
  ⟨rfl, rfl, rfl, rfl, rfl, rfl, rfl, List.prefix_refl _, List.suffix_refl _, rfl, rfl, rfl, fun _ _ => rfl⟩

theorem takeSome_kept (n : Nat) (s : State) : KeptUpTo s (takeSome n s) :=
  ⟨rfl, rfl, rfl, rfl, List.prefix_refl _, List.drop_suffix _ _, rfl, rfl, rfl, fun _ _ => rfl⟩

theorem appendSome_kept (b : List Byte) (s : State) : KeptUpTo s (appendSome b s) :=
  ⟨rfl, rfl, rfl, rfl, List.prefix_append _ _, List.suffix_refl _, rfl, rfl, rfl, fun _ _ => rfl⟩

/-- A short or failed read (R63). -/
theorem inRead_fails {n : Nat} {s : State} (hw : Memory.wf s.pix) (h : s.inBytes.length < n) :
    ∃ t, inRead n s = .raised t ∧ FailedFrom (inFailure s).1 (inFailure s).2 s t ∧ Memory.wf t.pix := by
  refine ⟨_, inRead_short h, ?_, ?_⟩
  · cases he : s.inEnd with
    | none =>
      have := failedFrom_after (takeSome_kept n s) (failDecode_failedFrom (s := takeSome n s) hw .unexpectedEOF 0)
      simpa [inFailure, he] using this
    | some e =>
      have := failedFrom_after (takeSome_kept n s) (failDecode_failedFrom (s := takeSome n s) hw .streamError e)
      simpa [inFailure, he] using this
  · cases s.inEnd <;> exact failDecode_pix_wf (s := takeSome n s) hw _ _

/-- A write that OUT's collaborator fails (R65). -/
theorem outWrite_fails {b : List Byte} {s : State} {room : Nat} {e : ErrWord} (h : s.outRoom = some (room, e))
    (hb : room < b.length) :
    ∃ t, outWrite b s = .raised t ∧ FailedFrom .streamError e s t ∧ t.pix = s.pix := by
  refine ⟨_, outWrite_full h hb, ?_, rfl⟩
  simpa using failedFrom_after (appendSome_kept b s) (failEncode_failedFrom (appendSome b s) .streamError e)

theorem decodePixel_short {i : Nat} {s : State} (hw : Memory.wf s.pix) (h : s.inBytes.length < s.bpp) :
    ∃ t, decodePixel i s = .raised t ∧ FailedFrom (inFailure s).1 (inFailure s).2 s t ∧ Memory.wf t.pix := by
  obtain ⟨t, ht, hf⟩ := inRead_fails hw h
  exact ⟨t, by rw [decodePixel, readSource, ht]; rfl, hf⟩

/-- A raw payload that IN cannot serve in full (R167 c). -/
theorem readPixels_short {i n : Nat} {s : State} (hd : s.depth ∈ Config.srcDepths) (hw : Memory.wf s.pix)
    (hl : i + n ≤ s.pixels) (h : s.inBytes.length < n * s.bpp) :
    ∃ t, readPixels i n s = .raised t ∧ FailedFrom (inFailure s).1 (inFailure s).2 s t ∧ Memory.wf t.pix := by
  induction n generalizing i s with
  | zero => omega
  | succ n ih =>
    rcases Nat.lt_or_ge s.inBytes.length s.bpp with hs | hs
    · obtain ⟨t, ht, hf⟩ := decodePixel_short (i := i) hw hs
      exact ⟨t, by rw [readPixels, ht]; rfl, hf⟩
    · have hi : s.inBytes = s.inBytes.take s.bpp ++ s.inBytes.drop s.bpp := (List.take_append_drop _ _).symm
      have hpx : (s.inBytes.take s.bpp).length = s.bpp := by simp; omega
      rw [readPixels, decodePixel_ok hpx (bpp_of_depth hd) hi (by omega), Result.bind_ok]
      generalize hu : storePix (slotAddr i) (pixelBytes (pixelOfSource (s.inBytes.take s.bpp)))
        (setP (pixelOfSource (s.inBytes.take s.bpp)) (setS (s.inBytes.take s.bpp) (consumeIn s.bpp s))) = u
      have hkept : KeptUpTo s u := by
        subst hu
        refine ⟨rfl, rfl, rfl, rfl, List.prefix_refl _, List.drop_suffix _ _, rfl, rfl, rfl, fun a ha => ?_⟩
        show Memory.get (Memory.store s.pix _ _) a = _
        rw [Memory.get_store hw, if_neg]
        simp only [slotAddr, Config.canonBpp, pixelBytes_length]; omega
      have hin : u.inBytes = s.inBytes.drop s.bpp := by subst hu; rfl
      obtain ⟨t, ht, hf, hwt⟩ := ih (i := i + 1) (s := u) (by subst hu; exact hd)
        (by subst hu; exact Memory.store_wf hw _ _) (by subst hu; simp; omega)
        (by
          have hb : u.bpp = s.bpp := by subst hu; rfl
          rw [hin, hb, List.length_drop]; rw [Nat.add_mul] at h; omega)
      refine ⟨t, ht, ?_, hwt⟩
      have : inFailure u = inFailure s := by simp only [inFailure, hkept.2.2.2.2.2.2.1]
      rw [this] at hf
      exact failedFrom_after hkept hf

theorem setPacketOperands_kept (m : BitVec 1) (n : Nat) (s : State) : KeptUpTo s (setPacketOperands m n s) :=
  ⟨rfl, rfl, rfl, rfl, List.prefix_refl _, List.suffix_refl _, rfl, rfl, rfl, fun _ _ => rfl⟩

/-- A packet that announces more pixels than slots are left (R166). -/
theorem packet_overruns {n : Nat} {s : State} (hw : Memory.wf s.pix) (h : s.slotsLeft < n) :
    (∃ t, rptBody n s = .raised t ∧ FailedFrom .runOverrun 0 s t ∧ Memory.wf t.pix ∧ t.inBytes = s.inBytes) ∧
      (∃ t, rawBody n s = .raised t ∧ FailedFrom .runOverrun 0 s t ∧ Memory.wf t.pix ∧ t.inBytes = s.inBytes) := by
  constructor
  · refine ⟨failDecode .runOverrun 0 (setPacketOperands 1#1 n s), ?_, ?_, failDecode_pix_wf hw _ _, rfl⟩
    · rw [rptBody, checkRun_over (by simpa using h), Result.bind_raised]
    · exact failedFrom_after (setPacketOperands_kept ..)
        (failDecode_failedFrom (s := setPacketOperands 1#1 n s) hw .runOverrun 0)
  · refine ⟨failDecode .runOverrun 0 (setPacketOperands 0#1 n s), ?_, ?_, failDecode_pix_wf hw _ _, rfl⟩
    · rw [rawBody, checkRun_over (by simpa using h), Result.bind_raised]
    · exact failedFrom_after (setPacketOperands_kept ..)
        (failDecode_failedFrom (s := setPacketOperands 0#1 n s) hw .runOverrun 0)

/-- A repeat packet whose pixel IN cannot serve (R167 b). -/
theorem rptBody_short {n : Nat} {s : State} (hw : Memory.wf s.pix) (hl : n ≤ s.slotsLeft) (h : s.inBytes.length < s.bpp) :
    ∃ t, rptBody n s = .raised t ∧ FailedFrom (inFailure s).1 (inFailure s).2 s t ∧ Memory.wf t.pix := by
  obtain ⟨t, ht, hf, hwt⟩ := inRead_fails (s := setPacketOperands 1#1 n s) (n := s.bpp) hw (by simpa using h)
  refine ⟨t, ?_, failedFrom_after (setPacketOperands_kept ..) hf, hwt⟩
  rw [rptBody, checkRun_ok (by simpa using hl), Result.bind_ok, readSource, setPacketOperands_bpp, ht]; rfl

/-- A raw packet whose pixels IN cannot serve (R167 c). -/
theorem rawBody_short {n : Nat} {s : State} (hd : s.depth ∈ Config.srcDepths) (hw : Memory.wf s.pix) (hn : 1 ≤ n)
    (hl : n ≤ s.slotsLeft) (h : s.inBytes.length < n * s.bpp) :
    ∃ t, rawBody n s = .raised t ∧ FailedFrom (inFailure s).1 (inFailure s).2 s t ∧ Memory.wf t.pix := by
  obtain ⟨t, ht, hf, hwt⟩ := readPixels_short (i := s.index) (n := n) (s := setPacketOperands 0#1 n s) hd hw
    (by simp only [State.slotsLeft] at hl; simp; omega) (by simpa using h)
  refine ⟨t, ?_, failedFrom_after (setPacketOperands_kept ..) hf, hwt⟩
  rw [rawBody, checkRun_ok (by simpa using hl), Result.bind_ok, setPacketOperands_index, ht]; rfl

/-- Slots that OUT's collaborator cannot take in full (R65). -/
theorem writePixels_full {i n : Nat} {s : State} (hd : s.depth ∈ Config.dstDepths) (hl : i + n ≤ s.pixels) {room : Nat}
    {e : ErrWord} (hr : s.outRoom = some (room, e)) (hf : room < n * s.bpp) :
    ∃ t, writePixels i n s = .raised t ∧ FailedFrom .streamError e s t ∧ t.pix = s.pix := by
  induction n generalizing i s room with
  | zero => omega
  | succ n ih =>
    have hb := bpp_of_targetDepth hd
    have hlen := targetBytes_length hb (s.slot i)
    rw [writePixels, encodePixel_eq hb (by omega)]
    rcases Nat.lt_or_ge room s.bpp with hs | hs
    · obtain ⟨t, ht, hff, hp⟩ := outWrite_fails
        (s := setTarget (targetBytes s.bpp (s.slot i)) (setP (s.slot i) s)) (b := targetBytes s.bpp (s.slot i)) hr
        (by rw [hlen]; exact hs)
      refine ⟨t, by rw [ht]; rfl, failedFrom_after ?_ hff, hp⟩
      exact ⟨rfl, rfl, rfl, rfl, List.prefix_refl _, List.suffix_refl _, rfl, rfl, rfl, fun _ _ => rfl⟩
    · rw [outWrite_ok (by intro r h; rw [hlen]; simp only [setTarget_outRoom, setP_outRoom, hr, Option.some.injEq] at h
                          subst h; exact hs), Result.bind_ok]
      obtain ⟨t, ht, hff, hp⟩ := ih (i := i + 1) (room := room - s.bpp)
        (s := appendOut (targetBytes s.bpp (s.slot i)) (setTarget (targetBytes s.bpp (s.slot i)) (setP (s.slot i) s)))
        hd (by simp; omega) (by simp [hr, hlen]) (by
          rw [Nat.add_mul] at hf
          simp only [appendOut_bpp, setTarget_bpp, setP_bpp]; omega)
      refine ⟨t, ht, failedFrom_after ?_ hff, hp⟩
      exact ⟨rfl, rfl, rfl, rfl, List.prefix_append _ _, List.suffix_refl _, rfl, rfl, rfl, fun _ _ => rfl⟩

end Sys2Proof.Machine
end

