-- ==== Sys2Proof/Laws/Keeps.lean ====
section
/-! SUPPORT. What every answer of an operation keeps, whether it goes on or raises: a property of states that each part of
the operation keeps (R74). -/

namespace Sys2Proof.Machine

/-- Every state in an answer has the property. -/
def Result.All {α : Type} (P : State → Prop) : Result α → Prop
  | .ok _ s => P s
  | .raised s => P s
  | .fault _ => True
  | .refused _ => True

theorem Result.all_bind {α β : Type} {P : State → Prop} {x : Result α} {f : α → State → Result β} (hx : x.All P)
    (hf : ∀ a s, P s → (f a s).All P) : (x.bind f).All P := by
  cases x with
  | ok a s => exact hf a s hx
  | raised s => exact hx
  | fault e => trivial
  | refused r => trivial

/-- A property of OUT alone: no decode operation looks at or changes OUT (R74). -/
structure OutOnly (P : State → Prop) : Prop where
  congr : ∀ s t, t.outBytes = s.outBytes → t.outRoom = s.outRoom → P s → P t

/-- A property of IN and PIX alone: no encode operation changes IN or PIX (R74, R205). -/
structure SourceOnly (P : State → Prop) : Prop where
  congr : ∀ s t, t.inBytes = s.inBytes → t.inEnd = s.inEnd → t.pix = s.pix → P s → P t

variable {P : State → Prop}

/-! ### Decode -/

theorem inRead_out (hP : OutOnly P) (n : Nat) {s : State} (h : P s) : (inRead n s).All P := by
  unfold inRead
  split
  · exact hP.congr s _ rfl rfl h
  · split <;> exact hP.congr s _ rfl rfl h

theorem pixWrite_out (hP : OutOnly P) (i : Nat) (p : Pixel) {s : State} (h : P s) : (pixWrite i p s).All P := by
  unfold pixWrite memWrite
  split
  · exact hP.congr s _ rfl rfl h
  · trivial

theorem readSource_out (hP : OutOnly P) {s : State} (h : P s) : (readSource s).All P :=
  Result.all_bind (inRead_out hP _ h) fun bs s h => hP.congr s (setS bs s) rfl rfl h

theorem convertSource_out (hP : OutOnly P) {s : State} (h : P s) : (convertSource s).All P := by
  unfold convertSource
  split
  · exact hP.congr s _ rfl rfl h
  · exact h

theorem decodePixel_out (hP : OutOnly P) (i : Nat) {s : State} (h : P s) : (decodePixel i s).All P := by
  refine Result.all_bind (readSource_out hP h) fun _ s h => Result.all_bind (convertSource_out hP h) fun p s h => ?_
  cases p with
  | none => exact h
  | some p => exact pixWrite_out hP i p h

theorem writeRun_out (hP : OutOnly P) (p : Pixel) (n : Nat) {i : Nat} {s : State} (h : P s) : (writeRun p i n s).All P := by
  induction n generalizing i s with
  | zero => exact h
  | succ n ih => exact Result.all_bind (pixWrite_out hP i p h) fun _ _ h => ih h

theorem readPixels_out (hP : OutOnly P) (n : Nat) {i : Nat} {s : State} (h : P s) : (readPixels i n s).All P := by
  induction n generalizing i s with
  | zero => exact h
  | succ n ih => exact Result.all_bind (decodePixel_out hP i h) fun _ _ h => ih h

theorem checkRun_out (hP : OutOnly P) (n : Nat) {s : State} (h : P s) : (checkRun n s).All P := by
  unfold checkRun
  split
  · exact hP.congr s _ rfl rfl h
  · exact h

theorem rptBody_out (hP : OutOnly P) (n : Nat) {s : State} (h : P s) : (rptBody n s).All P := by
  refine Result.all_bind (checkRun_out hP n (hP.congr s _ rfl rfl h)) fun _ s h =>
    Result.all_bind (readSource_out hP h) fun _ s h => Result.all_bind (convertSource_out hP h) fun p s h =>
      Result.all_bind ?_ fun _ s h => hP.congr s _ rfl rfl h
  cases p with
  | none => exact h
  | some p => exact writeRun_out hP p n h

theorem rawBody_out (hP : OutOnly P) (n : Nat) {s : State} (h : P s) : (rawBody n s).All P :=
  Result.all_bind (checkRun_out hP n (hP.congr s _ rfl rfl h)) fun _ _ h =>
    Result.all_bind (readPixels_out hP n h) fun _ s h => hP.congr s _ rfl rfl h

theorem packetStep_out (hP : OutOnly P) {s : State} (h : P s) : (packetStep s).All P := by
  refine Result.all_bind (Result.all_bind (inRead_out hP 1 h) fun _ s h => hP.congr s _ rfl rfl h) fun hdr s h => ?_
  show Result.All P (if _ then _ else _)
  split
  · exact rptBody_out hP _ h
  · exact rawBody_out hP _ h

theorem directInStep_out (hP : OutOnly P) {s : State} (h : P s) : (directInStep s).All P :=
  Result.all_bind (decodePixel_out hP _ h) fun _ s h => hP.congr s _ rfl rfl h

theorem endStep_eq (s : State) :
    endStep s = { dropWork s with phase := if s.index = s.pixels then .done else s.phase } := by
  show (if s.index = s.pixels then _ else _ : State) = _
  split <;> rfl

@[simp] theorem endStep_outBytes (s : State) : (endStep s).outBytes = s.outBytes := by rw [endStep_eq]; rfl
@[simp] theorem endStep_outRoom (s : State) : (endStep s).outRoom = s.outRoom := by rw [endStep_eq]; rfl
@[simp] theorem endStep_inBytes (s : State) : (endStep s).inBytes = s.inBytes := by rw [endStep_eq]; rfl
@[simp] theorem endStep_inEnd (s : State) : (endStep s).inEnd = s.inEnd := by rw [endStep_eq]; rfl
@[simp] theorem endStep_pix (s : State) : (endStep s).pix = s.pix := by rw [endStep_eq]; rfl
@[simp] theorem endStep_pixIdx (s : State) : (endStep s).pixIdx = s.pixIdx := by rw [endStep_eq]; rfl
@[simp] theorem endStep_iPos (s : State) : (endStep s).iPos = s.iPos := by rw [endStep_eq]; rfl
@[simp] theorem endStep_oPos (s : State) : (endStep s).oPos = s.oPos := by rw [endStep_eq]; rfl
@[simp] theorem endStep_op (s : State) : (endStep s).op = s.op := by rw [endStep_eq]; rfl
@[simp] theorem endStep_width (s : State) : (endStep s).width = s.width := by rw [endStep_eq]; rfl
@[simp] theorem endStep_height (s : State) : (endStep s).height = s.height := by rw [endStep_eq]; rfl
@[simp] theorem endStep_depth (s : State) : (endStep s).depth = s.depth := by rw [endStep_eq]; rfl
@[simp] theorem endStep_errCode (s : State) : (endStep s).errCode = s.errCode := by rw [endStep_eq]; rfl
@[simp] theorem endStep_errInfo (s : State) : (endStep s).errInfo = s.errInfo := by rw [endStep_eq]; rfl
@[simp] theorem endStep_hostQueue (s : State) : (endStep s).hostQueue = s.hostQueue := by rw [endStep_eq]; rfl
@[simp] theorem endStep_resetIn (s : State) : (endStep s).resetIn = s.resetIn := by rw [endStep_eq]; rfl
@[simp] theorem endStep_pixels (s : State) : (endStep s).pixels = s.pixels := by rw [endStep_eq]; rfl
@[simp] theorem endStep_bpp (s : State) : (endStep s).bpp = s.bpp := by rw [endStep_eq]; rfl
@[simp] theorem endStep_slot (s : State) (i : Nat) : (endStep s).slot i = s.slot i := by rw [endStep_eq]; rfl
@[simp] theorem endStep_index (s : State) : (endStep s).index = s.index := by rw [endStep_eq]; rfl

theorem endStep_phase (s : State) : (endStep s).phase = if s.index = s.pixels then .done else s.phase := by
  rw [endStep_eq]

/-! ### Encode -/

theorem outWrite_source (hP : SourceOnly P) (b : List Byte) {s : State} (h : P s) : (outWrite b s).All P := by
  unfold outWrite
  split
  · exact hP.congr s _ rfl rfl rfl h
  · split <;> exact hP.congr s _ rfl rfl rfl h

theorem encodePixel_source (hP : SourceOnly P) (i : Nat) {s : State} (h : P s) : (encodePixel i s).All P := by
  unfold encodePixel pixRead memRead
  split
  · simp only [Result.bind_ok]
    split
    · exact outWrite_source hP _ (hP.congr s _ rfl rfl rfl h)
    · trivial
  · trivial

theorem writePixels_source (hP : SourceOnly P) (n : Nat) {i : Nat} {s : State} (h : P s) : (writePixels i n s).All P := by
  induction n generalizing i s with
  | zero => exact h
  | succ n ih => exact Result.all_bind (encodePixel_source hP i h) fun _ _ h => ih h

theorem emitRepeat_source (hP : SourceOnly P) (n : Nat) {s : State} (h : P s) : (emitRepeat n s).All P :=
  Result.all_bind (outWrite_source hP _ h) fun _ _ h =>
    Result.all_bind (encodePixel_source hP _ h) fun _ s h => hP.congr s _ rfl rfl rfl h

theorem emitRaw_source (hP : SourceOnly P) (n : Nat) {s : State} (h : P s) : (emitRaw n s).All P :=
  Result.all_bind (outWrite_source hP _ h) fun _ _ h =>
    Result.all_bind (writePixels_source hP n h) fun _ s h => hP.congr s _ rfl rfl rfl h

theorem emitStep_source (hP : SourceOnly P) {s : State} (h : P s) : (emitStep s).All P := by
  unfold emitStep
  split
  · exact hP.congr s _ rfl rfl rfl h
  · split
    · exact emitRepeat_source hP _ (hP.congr s _ rfl rfl rfl h)
    · exact emitRaw_source hP _ (hP.congr s _ rfl rfl rfl h)

theorem directOutStep_source (hP : SourceOnly P) {s : State} (h : P s) : (directOutStep s).All P :=
  Result.all_bind (encodePixel_source hP _ h) fun _ s h => hP.congr s _ rfl rfl rfl h

end Sys2Proof.Machine
end

