-- ==== Sys2Proof/Laws/Step.lean ====
section
/-! SUPPORT. What one step of each command loop can do: it goes on, and how far, or it fails, and when. Later proofs cite
`blockStep_cases` and never unfold a meaning. -/

namespace Sys2Proof.Machine

open Sys2Proof.Safety

/-! ### The states after a step that goes on -/

theorem decoded_slot (ps : List Pixel) (m : Nat) (rest : List Byte) (w : Working) (s : State) (i : Nat) :
    (decoded ps m rest w s).slot i = (putPixels s.index ps s).slot i := rfl

theorem decoded_index {ps : List Pixel} {m : Nat} {rest : List Byte} {w : Working} {s : State}
    (h : s.index + ps.length ≤ s.pixels) : (decoded ps m rest w s).index = s.index + ps.length := index_advance h

theorem decoded_wf {s : State} (h : Memory.wf s.pix) (ps : List Pixel) (m : Nat) (rest : List Byte) (w : Working) :
    Memory.wf (decoded ps m rest w s).pix := putPixels_wf h _ _

theorem decoded_pixSame {s : State} (h : Memory.wf s.pix) (ps : List Pixel) (m : Nat) (rest : List Byte) (w : Working) :
    PixSameOutside s.index ps.length s (decoded ps m rest w s) := fun a ha => putPixels_get h _ _ a ha

theorem decoded_slots {s : State} (h : Memory.wf s.pix) (ps : List Pixel) (m : Nat) (rest : List Byte) (w : Working) :
    slots (decoded ps m rest w s) s.index ps.length = ps := by
  apply List.ext_getElem
  · simp
  · intro k h1 h2
    simp only [slots, List.getElem_map, List.getElem_range', Nat.one_mul, decoded_slot]
    exact slot_putPixels_inside h h2

theorem encoded_index {n : Nat} {bs : List Byte} {w : Working} {tg : List Byte} {s : State} (h : s.index + n ≤ s.pixels) :
    (encoded n bs w tg s).index = s.index + n := index_advance h

theorem endStep_decodeFrame {s t : State} (h : DecodeFrame s t) : DecodeFrame s (endStep t) := by
  unfold DecodeFrame at *
  rw [endStep_eq]; exact h

theorem endStep_encodeFrame {s t : State} (h : EncodeFrame s t) : EncodeFrame s (endStep t) := by
  unfold EncodeFrame at *
  rw [endStep_eq]; exact h

theorem decoded_frame (ps : List Pixel) (m : Nat) (rest : List Byte) (w : Working) (s : State) :
    DecodeFrame s (decoded ps m rest w s) := rfl

theorem encoded_frame (n : Nat) (bs : List Byte) (w : Working) (tg : List Byte) (s : State) :
    EncodeFrame s (encoded n bs w tg s) := rfl

theorem decoded_append (ps qs : List Pixel) (m k : Nat) (r1 r2 : List Byte) (v w : Working) {s : State}
    (h : s.index + ps.length ≤ s.pixels) :
    decoded qs k r2 w (decoded ps m r1 v s) = decoded (ps ++ qs) (m + k) r2 w s := by
  simp only [decoded, putPixels, storePix, BitVec.add_assoc, ← BitVec.ofNat_add, List.length_append,
    List.flatMap_append, Memory.store_append]
  have : (s.pixIdx + BitVec.ofNat 32 ps.length).toNat = s.index + ps.length := index_advance h
  simp only [State.index] at this ⊢
  rw [this]
  congr 2
  simp only [slotAddr, Config.canonBpp, flatMap_pixelBytes_length]; omega

/-! ### Packets -/

theorem packetStep_cons {hdr : Byte} {rest : List Byte} {s : State} (h : s.inBytes = hdr :: rest) :
    packetStep s =
      (if headerMode hdr = 1#1 then rptBody (headerRunLength hdr) (setHdr hdr (consumeIn 1 s))
       else rawBody (headerRunLength hdr) (setHdr hdr (consumeIn 1 s))) := by
  rw [packetStep, fetchHeader, inRead_append (n := 1) (bs := [hdr]) (rest := rest) rfl (by simpa using h)]
  rfl

theorem flatten_length {pss : List (List Byte)} {b : Nat} (h : ∀ px ∈ pss, px.length = b) :
    pss.flatten.length = pss.length * b := by
  induction pss with
  | nil => simp
  | cons px pss ih =>
    rw [List.flatten_cons, List.length_append, ih fun q hq => h q (List.mem_cons_of_mem _ hq), h px List.mem_cons_self,
      List.length_cons, Nat.add_mul]; omega

/-- The length of a packet's bytes (R96). -/
theorem Packet.bytes_length {b : Nat} {p : Packet} (h : p.ok b = true) :
    p.bytes.length ≤ 1 + p.run * b ∧ 1 + b ≤ p.bytes.length ∧ 1 ≤ p.run ∧ p.run ≤ 128 ∧ p.expand.length = p.run := by
  cases p with
  | rpt n px =>
    simp only [Packet.ok, Bool.and_eq_true, decide_eq_true_eq] at h
    obtain ⟨h1, h2⟩ := runLengthOk_iff.1 h.1
    have := Nat.le_mul_of_pos_left b h1
    simp only [Packet.bytes, Packet.instr, encode, Packet.payload, Packet.run, Packet.expand, List.length_append,
      List.length_cons, List.length_nil, List.length_replicate, h.2]
    exact ⟨by omega, by omega, by omega, by omega, trivial⟩
  | raw pss =>
    simp only [Packet.ok, Bool.and_eq_true, List.all_eq_true, decide_eq_true_eq] at h
    obtain ⟨h1, h2⟩ := runLengthOk_iff.1 h.1
    have := Nat.le_mul_of_pos_left b h1
    simp only [Packet.bytes, Packet.instr, encode, Packet.payload, Packet.run, Packet.expand, List.length_append,
      List.length_cons, List.length_nil, List.length_map, flatten_length h.2]
    exact ⟨by omega, by omega, by omega, by omega, trivial⟩

/-- A packet that fits (R164, R165, R170). -/
theorem packetStep_ok {p : Packet} {rest : List Byte} {s : State} (hd : s.depth ∈ Config.srcDepths)
    (hp : p.ok s.bpp = true) (hl : p.run ≤ s.slotsLeft) (hi : s.inBytes = p.bytes ++ rest) :
    ∃ w, packetStep s = .ok () (decoded p.expand p.bytes.length rest w s) := by
  cases p with
  | rpt n px =>
    simp only [Packet.ok, Bool.and_eq_true, decide_eq_true_eq] at hp
    simp only [Packet.run] at hl
    have hi' : s.inBytes = packetHeader 1#1 n :: (px ++ rest) := hi
    obtain ⟨w, hw⟩ := rptBody_ok (s := setHdr (packetHeader 1#1 n) (consumeIn 1 s)) (n := n) (px := px) (rest := rest) hd
      (runLengthOk_iff.1 hp.1).1 hl hp.2 (by simp [hi'])
    refine ⟨w, ?_⟩
    rw [packetStep_cons hi', if_pos (packetHeader_fields hp.1).2.1, (packetHeader_fields hp.1).2.2.2, hw]
    simp [decoded, Packet.expand, Packet.bytes, Packet.instr, encode, Packet.payload, putPixels, storePix, setHdr,
      consumeIn, State.index, State.bpp, hp.2, BitVec.ofNat_add]
    ac_rfl
  | raw pss =>
    simp only [Packet.ok, Bool.and_eq_true, List.all_eq_true, decide_eq_true_eq] at hp
    simp only [Packet.run] at hl
    have hi' : s.inBytes = packetHeader 0#1 pss.length :: (pss.flatten ++ rest) := hi
    obtain ⟨w, hw⟩ := rawBody_ok (s := setHdr (packetHeader 0#1 pss.length) (consumeIn 1 s)) (pss := pss) (rest := rest) hd
      (runLengthOk_iff.1 hp.1).1 hl hp.2 (by simp [hi'])
    refine ⟨w, ?_⟩
    rw [packetStep_cons hi', if_neg (by rw [(packetHeader_fields hp.1).1]; decide), (packetHeader_fields hp.1).2.2.1, hw]
    have hf := flatten_length hp.2
    simp only [State.bpp] at hf
    simp [decoded, Packet.expand, Packet.bytes, Packet.instr, encode, Packet.payload, putPixels, storePix, setHdr,
      consumeIn, State.index, State.bpp, -List.length_flatten, hf, BitVec.ofNat_add]
    ac_rfl

/-- What a kind and word of a failed read are (R63, R290, R300). -/
theorem inFailure_block (s : State) :
    (inFailure s).1.raisedByBlock = true ∧ ((inFailure s).1 ≠ .streamError → (inFailure s).2 = 0) := by
  unfold inFailure
  cases s.inEnd with
  | none => exact ⟨rfl, fun _ => rfl⟩
  | some e => exact ⟨rfl, fun h => absurd rfl h⟩

/-- A step fails with a kind that the block raises, from `s` (R300, R301). -/
def Fails (x : Result Unit) (s : State) : Prop :=
  ∃ t k info, x = .raised t ∧ FailedFrom k info s t ∧ Memory.wf t.pix ∧ k.raisedByBlock = true ∧
    (k ≠ .streamError → info = 0)

theorem consumeHeader_kept (hdr : Byte) (s : State) : KeptUpTo s (setHdr hdr (consumeIn 1 s)) :=
  ⟨rfl, rfl, rfl, rfl, List.prefix_refl _, List.drop_suffix _ _, rfl, rfl, rfl, fun _ _ => rfl⟩

/-- Cut a byte list into `n` source pixels of `b` bytes. -/
theorem exists_pixels (n b : Nat) {bs : List Byte} (h : n * b ≤ bs.length) :
    ∃ (pss : List (List Byte)) (rest : List Byte), pss.length = n ∧ (∀ px ∈ pss, px.length = b) ∧
      bs = pss.flatten ++ rest := by
  induction n generalizing bs with
  | zero => exact ⟨[], bs, rfl, by simp, rfl⟩
  | succ n ih =>
    rw [Nat.add_mul, Nat.one_mul] at h
    obtain ⟨pss, rest, h1, h2, h3⟩ := ih (bs := bs.drop b) (by rw [List.length_drop]; omega)
    refine ⟨bs.take b :: pss, rest, by simp [h1], ?_, ?_⟩
    · intro px hpx
      rcases List.mem_cons.1 hpx with rfl | hq
      · rw [List.length_take]; omega
      · exact h2 px hq
    · rw [List.flatten_cons, List.append_assoc, ← h3, List.take_append_drop]

/-- A step of `DEC_RLE`: IN begins with a packet that fits, or the step fails. -/
theorem packetStep_cases {s : State} (hw : Memory.wf s.pix) (hd : s.depth ∈ Config.srcDepths) :
    (∃ (p : Packet) (rest : List Byte), p.ok s.bpp = true ∧ p.run ≤ s.slotsLeft ∧ s.inBytes = p.bytes ++ rest) ∨
      Fails (packetStep s) s := by
  rcases hs : s.inBytes with _ | ⟨hdr, rest⟩
  · right
    obtain ⟨t, ht, hf, hwt⟩ := inRead_fails (n := 1) hw (by rw [hs]; exact Nat.one_pos)
    obtain ⟨hk, hinfo⟩ := inFailure_block s
    exact ⟨t, _, _, by rw [packetStep, fetchHeader, ht]; rfl, hf, hwt, hk, hinfo⟩
  · have hrun : runLengthOk (headerRunLength hdr) = true := by
      rw [runLengthOk_iff]; exact ⟨(header_fields hdr).2.2.1, (header_fields hdr).2.2.2.1⟩
    have henc := (header_fields hdr).2.2.2.2
    generalize hu : setHdr hdr (consumeIn 1 s) = u
    have hkept : KeptUpTo s u := by subst hu; exact consumeHeader_kept hdr s
    have huw : Memory.wf u.pix := by subst hu; exact hw
    have hub : u.bpp = s.bpp := by subst hu; rfl
    have hul : u.slotsLeft = s.slotsLeft := by subst hu; rfl
    have hud : u.depth ∈ Config.srcDepths := by subst hu; exact hd
    have hui : u.inBytes = rest := by subst hu; simp [hs]
    have hfail : inFailure u = inFailure s := by simp only [inFailure, hkept.2.2.2.2.2.2.1]
    obtain ⟨hk, hinfo⟩ := inFailure_block s
    rcases Nat.lt_or_ge s.slotsLeft (headerRunLength hdr) with hlong | hfits
    · right
      rw [packetStep_cons hs, hu]
      obtain ⟨⟨t, ht, hf, hwt, -⟩, ⟨t', ht', hf', hwt', -⟩⟩ := packet_overruns huw (by rw [hul]; exact hlong)
      split
      · exact ⟨t, _, _, ht, failedFrom_after hkept hf, hwt, rfl, fun _ => rfl⟩
      · exact ⟨t', _, _, ht', failedFrom_after hkept hf', hwt', rfl, fun _ => rfl⟩
    · rcases headerMode_cases hdr with hm | hm
      · rcases Nat.lt_or_ge rest.length s.bpp with hshort | hlen
        · right
          rw [packetStep_cons hs, hu, if_pos hm]
          obtain ⟨t, ht, hf, hwt⟩ := rptBody_short huw (n := headerRunLength hdr) (by rw [hul]; exact hfits)
            (by rw [hui, hub]; exact hshort)
          rw [hfail] at hf
          exact ⟨t, _, _, ht, failedFrom_after hkept hf, hwt, hk, hinfo⟩
        · left
          refine ⟨.rpt (headerRunLength hdr) (rest.take s.bpp), rest.drop s.bpp, ?_, hfits, ?_⟩
          · simp [Packet.ok, hrun, hlen]
          · simp only [Packet.bytes, Packet.instr, encode, Packet.payload]
            rw [hm] at henc
            rw [henc, List.append_assoc, List.take_append_drop]; rfl
      · rcases Nat.lt_or_ge rest.length (headerRunLength hdr * s.bpp) with hshort | hlen
        · right
          rw [packetStep_cons hs, hu, if_neg (by rw [hm]; decide)]
          obtain ⟨t, ht, hf, hwt⟩ := rawBody_short hud huw (n := headerRunLength hdr) (runLengthOk_iff.1 hrun).1
            (by rw [hul]; exact hfits) (by rw [hui, hub]; exact hshort)
          rw [hfail] at hf
          exact ⟨t, _, _, ht, failedFrom_after hkept hf, hwt, hk, hinfo⟩
        · left
          obtain ⟨pss, tail, h1, h2, h3⟩ := exists_pixels (headerRunLength hdr) s.bpp hlen
          refine ⟨.raw pss, tail, ?_, by rw [Packet.run, h1]; exact hfits, ?_⟩
          · simp only [Packet.ok, h1, hrun, Bool.true_and, List.all_eq_true, decide_eq_true_eq]; exact h2
          · simp only [Packet.bytes, Packet.instr, encode, Packet.payload, h1]
            rw [hm] at henc
            rw [henc, List.append_assoc, ← h3]; rfl

/-! ### Direct transfers -/

/-- A step of `DEC_DIRECT` that IN can serve (R222). -/
theorem directInStep_ok {px rest : List Byte} {s : State} (hd : s.depth ∈ Config.srcDepths) (hi : s.index < s.pixels)
    (hp : px.length = s.bpp) (h : s.inBytes = px ++ rest) :
    ∃ w, directInStep s = .ok () (decoded [pixelOfSource px] s.bpp rest w s) := by
  refine ⟨(setP (pixelOfSource px) (setS px (consumeIn s.bpp s))).work, ?_⟩
  rw [directInStep, decodePixel_ok hp (bpp_of_depth hd) h hi, Result.bind_ok]
  simp only [Result.ok.injEq, true_and, decoded, List.length_singleton]
  simp only [advanceIndex, putPixels, storePix, setP, setS, consumeIn, h, List.flatMap_cons, List.flatMap_nil,
    List.append_nil]
  rw [← hp, List.drop_left]

theorem directInStep_cases {s : State} (hw : Memory.wf s.pix) :
    (∃ px rest : List Byte, px.length = s.bpp ∧ s.inBytes = px ++ rest) ∨ Fails (directInStep s) s := by
  rcases Nat.lt_or_ge s.inBytes.length s.bpp with hshort | hlen
  · right
    obtain ⟨t, ht, hf, hwt⟩ := decodePixel_short (i := s.index) hw hshort
    obtain ⟨hk, hinfo⟩ := inFailure_block s
    exact ⟨t, _, _, by rw [directInStep, ht]; rfl, hf, hwt, hk, hinfo⟩
  · exact .inl ⟨s.inBytes.take s.bpp, s.inBytes.drop s.bpp, by simp; omega, (List.take_append_drop _ _).symm⟩

/-- A step of `ENC_DIRECT` that OUT can take (R224). -/
theorem directOutStep_ok {s : State} (hd : s.depth ∈ Config.dstDepths) (hi : s.index < s.pixels) (hr : roomFor s.bpp s) :
    ∃ w tg, directOutStep s = .ok () (encoded 1 (wireBytes s.bpp [s.slot s.index]) w tg s) := by
  have hb := bpp_of_targetDepth hd
  refine ⟨(setP (s.slot s.index) s).work, targetBytes s.bpp (s.slot s.index), ?_⟩
  rw [directOutStep, encodePixel_eq hb hi, outWrite_ok, Result.bind_ok, wireBytes_one hb]
  · rfl
  · intro r h; rw [targetBytes_length hb]; exact hr r h

theorem directOutStep_full {s : State} (hd : s.depth ∈ Config.dstDepths) (hi : s.index < s.pixels) {room : Nat}
    {e : ErrWord} (hr : s.outRoom = some (room, e)) (hf : room < s.bpp) :
    ∃ t, directOutStep s = .raised t ∧ FailedFrom .streamError e s t ∧ t.pix = s.pix := by
  obtain ⟨t, ht, hff, hp⟩ := writePixels_full (i := s.index) (n := 1) hd (by omega) hr (by omega)
  refine ⟨t, ?_, hff, hp⟩
  rw [directOutStep]
  simp only [writePixels] at ht
  revert ht
  cases encodePixel s.index s <;> simp [Result.bind]

theorem roomFor_or (n : Nat) (s : State) :
    roomFor n s ∨ ∃ room e, s.outRoom = some (room, e) ∧ room < n := by
  unfold roomFor
  cases h : s.outRoom with
  | none => left; intro r hr; cases hr
  | some r =>
    rcases Nat.lt_or_ge r.1 n with hlt | hge
    · exact .inr ⟨r.1, r.2, rfl, hlt⟩
    · left; intro q hq; cases hq; exact hge

theorem directOutStep_cases {s : State} (hw : Memory.wf s.pix) (hd : s.depth ∈ Config.dstDepths) (hi : s.index < s.pixels) :
    roomFor s.bpp s ∨ Fails (directOutStep s) s := by
  rcases roomFor_or s.bpp s with h | ⟨room, e, hr, hlt⟩
  · exact .inl h
  · obtain ⟨t, ht, hf, hp⟩ := directOutStep_full hd hi hr hlt
    exact .inr ⟨t, _, _, ht, hf, by rw [hp]; exact hw, rfl, fun h => absurd rfl h⟩

/-! ### Encode -/

/-- A repeat packet that OUT cannot take (R65). -/
theorem emitRepeat_full {n : Nat} {s : State} (hd : s.depth ∈ Config.dstDepths) (hi : s.index < s.pixels) {room : Nat}
    {e : ErrWord} (hr : s.outRoom = some (room, e)) (hf : room < 1 + s.bpp) :
    ∃ t, emitRepeat n s = .raised t ∧ FailedFrom .streamError e s t ∧ t.pix = s.pix := by
  rcases Nat.lt_or_ge room 1 with h0 | h1
  · obtain ⟨t, ht, hff, hp⟩ := outWrite_fails (b := [packetHeader 1#1 n]) hr h0
    exact ⟨t, by rw [emitRepeat, ht]; rfl, hff, hp⟩
  · rw [emitRepeat, outWrite_ok (by intro r h; rw [hr] at h; cases h; exact h1), Result.bind_ok]
    obtain ⟨t, ht, hff, hp⟩ := writePixels_full (i := s.index) (n := 1) (s := appendOut [packetHeader 1#1 n] s)
      (room := room - 1) (e := e) hd (by simp; omega) (by simp [hr]) (by simp; omega)
    refine ⟨t, ?_, failedFrom_after ?_ hff, hp⟩
    · simp only [writePixels] at ht
      simp only [appendOut_index]
      revert ht
      cases encodePixel s.index (appendOut [packetHeader 1#1 n] s) <;> simp [Result.bind]
    · exact ⟨rfl, rfl, rfl, rfl, List.prefix_append _ _, List.suffix_refl _, rfl, rfl, rfl, fun _ _ => rfl⟩

/-- A raw packet that OUT cannot take (R65). -/
theorem emitRaw_full {n : Nat} {s : State} (hd : s.depth ∈ Config.dstDepths) (hl : s.index + n ≤ s.pixels) {room : Nat}
    {e : ErrWord} (hr : s.outRoom = some (room, e)) (hf : room < 1 + n * s.bpp) :
    ∃ t, emitRaw n s = .raised t ∧ FailedFrom .streamError e s t ∧ t.pix = s.pix := by
  rcases Nat.lt_or_ge room 1 with h0 | h1
  · obtain ⟨t, ht, hff, hp⟩ := outWrite_fails (b := [packetHeader 0#1 n]) hr h0
    exact ⟨t, by rw [emitRaw, ht]; rfl, hff, hp⟩
  · rw [emitRaw, outWrite_ok (by intro r h; rw [hr] at h; cases h; exact h1), Result.bind_ok]
    obtain ⟨t, ht, hff, hp⟩ := writePixels_full (i := s.index) (n := n) (s := appendOut [packetHeader 0#1 n] s)
      (room := room - 1) (e := e) hd (by simpa using hl) (by simp [hr]) (by simp; omega)
    refine ⟨t, by rw [appendOut_index, ht]; rfl, failedFrom_after ?_ hff, hp⟩
    exact ⟨rfl, rfl, rfl, rfl, List.prefix_append _ _, List.suffix_refl _, rfl, rfl, rfl, fun _ _ => rfl⟩

/-- The packet that a step of `ENC_RLE` emits at `PIXIDX` (R193). -/
def emission (s : State) : Packet :=
  if 2 ≤ localRun s s.index then .rpt (localRun s s.index) (targetBytes s.bpp (s.slot s.index))
  else .raw ((slots s s.index (rawCount s s.index)).map (targetBytes s.bpp))

theorem wireBytes_eq {b : Nat} (h : b = 3 ∨ b = 4) (ps : List Pixel) : wireBytes b ps = (ps.map (targetBytes b)).flatten := by
  induction ps with
  | nil => rfl
  | cons p ps ih => rw [wireBytes_cons, wireBytes_one h, ih]; rfl

theorem emission_ok {s : State} (hd : s.depth ∈ Config.dstDepths) (hi : s.index < s.pixels) :
    (emission s).ok s.bpp = true ∧ 1 ≤ (emission s).run ∧ (emission s).run ≤ s.maxRun ∧
      s.index + (emission s).run ≤ s.pixels ∧ (∀ n px, emission s = .rpt n px → 2 ≤ n) := by
  have hb := bpp_of_targetDepth hd
  obtain ⟨h1, h2, h3, -⟩ := localRun_bounds hi
  have hm := maxRun_le s
  unfold emission
  split
  · rename_i h
    refine ⟨?_, by rw [Packet.run]; omega, h2, h3, fun n px he => by cases he; exact h⟩
    simp only [Packet.ok, Bool.and_eq_true, runLengthOk_iff, decide_eq_true_eq]
    exact ⟨by omega, targetBytes_length hb _⟩
  · obtain ⟨r1, r2, r3, -⟩ := rawCount_bounds hi (by omega)
    refine ⟨?_, by simp [Packet.run]; omega, by simpa [Packet.run] using r2, by simpa [Packet.run] using r3,
      fun n px he => by cases he⟩
    simp only [Packet.ok, Bool.and_eq_true, runLengthOk_iff, List.all_eq_true, decide_eq_true_eq, List.length_map,
      slots_length]
    refine ⟨by omega, fun px hpx => ?_⟩
    obtain ⟨p, -, rfl⟩ := List.mem_map.1 hpx
    exact targetBytes_length hb p

theorem setRun_kept (s : State) : KeptUpTo s (setRun s) :=
  ⟨rfl, rfl, rfl, rfl, List.prefix_refl _, List.suffix_refl _, rfl, rfl, rfl, fun _ _ => rfl⟩

theorem setCount_kept (n : Nat) (s : State) : KeptUpTo s (setCount n (setRun s)) :=
  ⟨rfl, rfl, rfl, rfl, List.prefix_refl _, List.suffix_refl _, rfl, rfl, rfl, fun _ _ => rfl⟩

/-- A step of `ENC_RLE` that OUT can take (R193, R195, R196). -/
theorem emitStep_ok {s : State} (hd : s.depth ∈ Config.dstDepths) (hi : s.index < s.pixels)
    (hr : roomFor (emission s).bytes.length s) :
    ∃ w tg, emitStep s = .ok () (encoded (emission s).run (emission s).bytes w tg s) := by
  have hb := bpp_of_targetDepth hd
  obtain ⟨h1, -, -, -⟩ := localRun_bounds hi
  rw [emitStep, if_neg (by omega)]
  by_cases h : 2 ≤ localRun s s.index
  · rw [if_pos h]
    have he : emission s = .rpt (localRun s s.index) (targetBytes s.bpp (s.slot s.index)) := if_pos h
    rw [he] at hr ⊢
    have hr' : roomFor (1 + s.bpp) (setRun s) := by
      simp only [Packet.bytes, Packet.instr, encode, Packet.payload, List.length_append, List.length_singleton,
        targetBytes_length hb] at hr
      exact hr
    obtain ⟨w, tg, hw⟩ := emitRepeat_ok (n := localRun s s.index) (s := setRun s) hd hi hr'
    refine ⟨w, tg, ?_⟩
    rw [hw, setRun_bpp, setRun_slot, setRun_index, wireBytes_one hb]
    rfl
  · rw [if_neg h]
    have he : emission s = .raw ((slots s s.index (rawCount s s.index)).map (targetBytes s.bpp)) := if_neg h
    rw [he] at hr ⊢
    obtain ⟨-, -, r3, -⟩ := rawCount_bounds hi (by omega)
    have hlen : ((slots s s.index (rawCount s s.index)).map (targetBytes s.bpp)).flatten.length =
        rawCount s s.index * s.bpp := by rw [← wireBytes_eq hb, wireBytes_length hb, slots_length]
    have hr' : roomFor (1 + rawCount s s.index * s.bpp) (setCount (rawCount s s.index) (setRun s)) := by
      simp only [Packet.bytes, Packet.instr, encode, Packet.payload, List.length_append, List.length_singleton, hlen] at hr
      exact hr
    obtain ⟨w, tg, hw⟩ := emitRaw_ok (n := rawCount s s.index) (s := setCount (rawCount s s.index) (setRun s)) hd r3 hr'
    refine ⟨w, tg, ?_⟩
    rw [hw, Packet.run, Packet.bytes, Packet.payload, Packet.instr, List.length_map, slots_length, ← wireBytes_eq hb]
    rfl

theorem emission_bytes_length {s : State} (hd : s.depth ∈ Config.dstDepths) :
    (emission s).bytes.length =
      if 2 ≤ localRun s s.index then 1 + s.bpp else 1 + rawCount s s.index * s.bpp := by
  have hb := bpp_of_targetDepth hd
  unfold emission
  split
  · simp [Packet.bytes, Packet.instr, encode, Packet.payload, targetBytes_length hb, Nat.add_comm]
  · rw [Packet.bytes, Packet.instr, Packet.payload, ← wireBytes_eq hb, List.length_append, wireBytes_length hb,
      slots_length]
    rfl

theorem emitStep_full {s : State} (hd : s.depth ∈ Config.dstDepths) (hi : s.index < s.pixels) {room : Nat} {e : ErrWord}
    (hr : s.outRoom = some (room, e)) (hf : room < (emission s).bytes.length) :
    ∃ t, emitStep s = .raised t ∧ FailedFrom .streamError e s t ∧ t.pix = s.pix := by
  rw [emission_bytes_length hd] at hf
  obtain ⟨h1, -, -, -⟩ := localRun_bounds hi
  rw [emitStep, if_neg (by omega)]
  by_cases h : 2 ≤ localRun s s.index
  · rw [if_pos h] at hf ⊢
    obtain ⟨t, ht, hff, hp⟩ := emitRepeat_full (n := localRun s s.index) (s := setRun s) hd hi hr hf
    exact ⟨t, ht, failedFrom_after (setRun_kept s) hff, hp⟩
  · rw [if_neg h] at hf ⊢
    obtain ⟨-, -, r3, -⟩ := rawCount_bounds hi (by omega)
    obtain ⟨t, ht, hff, hp⟩ := emitRaw_full (n := rawCount s s.index) (s := setCount (rawCount s s.index) (setRun s)) hd r3 hr hf
    exact ⟨t, ht, failedFrom_after (setCount_kept _ s) hff, hp⟩

theorem emitStep_cases {s : State} (hw : Memory.wf s.pix) (hd : s.depth ∈ Config.dstDepths) (hi : s.index < s.pixels) :
    roomFor (emission s).bytes.length s ∨ Fails (emitStep s) s := by
  rcases roomFor_or (emission s).bytes.length s with h | ⟨room, e, hr, hlt⟩
  · exact .inl h
  · obtain ⟨t, ht, hf, hp⟩ := emitStep_full hd hi hr hlt
    exact .inr ⟨t, _, _, ht, hf, by rw [hp]; exact hw, rfl, fun h => absurd rfl h⟩

/-! ### One step of a command -/

theorem transfer_busy {op : BitVec 3} {body : State → Result Unit} {s : State} (hb : s.phase = .busy) (ho : s.op = op) :
    transfer op body s = (loopStep body s).outcome := by simp [transfer, hb, ho]

theorem loopStep_ok {body : State → Result Unit} {s u : State} (hi : s.index < s.pixels) (h : body s = .ok () u) :
    loopStep body s = .ok () (endStep u) := by rw [loopStep, if_pos hi, h, Result.bind_ok]

theorem loopStep_raised {body : State → Result Unit} {s t : State} (hi : s.index < s.pixels) (h : body s = .raised t) :
    loopStep body s = .raised t := by rw [loopStep, if_pos hi, h, Result.bind_raised]

theorem loopStep_all {P : State → Prop} {body : State → Result Unit} {s : State} (h : P s) (hb : (body s).All P)
    (hd : ∀ s, P s → P (dropWork s)) (hf : ∀ s, P s → P (finish s)) : (loopStep body s).All P := by
  unfold loopStep
  split
  · refine Result.all_bind hb fun _ s h => ?_
    show P (if s.index = s.pixels then _ else _)
    split
    · exact hf _ (hd _ h)
    · exact hd _ h
  · exact hf _ h

theorem Result.all_next {P : State → Prop} {x : Result Unit} (hx : x.All P) {t : State} (h : x.outcome = .next t) : P t := by
  cases x with
  | ok _ s => cases h; exact hx
  | raised s => cases h; exact hx
  | fault e => cases h
  | refused r => cases h

/-- How far a step that goes on goes: a decode writes at least one slot from at most 5 bytes of IN a slot, an encode appends
at most 5 bytes a slot. -/
def GoesOn (s u : State) : Prop :=
  ((s.op = 1#3 ∨ s.op = 2#3) ∧ ∃ (ps : List Pixel) (taken rest : List Byte) (w : Working),
      u = decoded ps taken.length rest w s ∧ 1 ≤ ps.length ∧ s.index + ps.length ≤ s.pixels ∧
        taken.length ≤ 5 * ps.length ∧ s.inBytes = taken ++ rest) ∨
    ((s.op = 3#3 ∨ s.op = 4#3) ∧ ∃ (n : Nat) (bs : List Byte) (w : Working) (tg : List Byte),
      u = encoded n bs w tg s ∧ 1 ≤ n ∧ s.index + n ≤ s.pixels ∧ bs.length ≤ 5 * n)

theorem bpp_le_of_depth {s : State} (h : depthOk s.op s.depth = true) : s.bpp ≤ 4 := by
  unfold depthOk at h
  split at h
  · rcases bpp_of_depth (s := s) (by simpa using h) with h | h | h <;> omega
  · rcases bpp_of_targetDepth (s := s) (by simpa using h) with h | h <;> omega

theorem runningOk_iff {s : State} :
    runningOk s = true ↔ (s.op = 1#3 ∨ s.op = 2#3 ∨ s.op = 3#3 ∨ s.op = 4#3) ∧ depthOk s.op s.depth = true ∧ s.width ≠ 0 ∧
      s.height ≠ 0 ∧ s.index < s.pixels := by
  simp [runningOk, and_assoc]

theorem srcDepth_of_running {s : State} (h : depthOk s.op s.depth = true) (ho : s.op = 1#3 ∨ s.op = 2#3) :
    s.depth ∈ Config.srcDepths := by simpa [depthOk, ho] using h

theorem dstDepth_of_running {s : State} (h : depthOk s.op s.depth = true) (ho : s.op = 3#3 ∨ s.op = 4#3) :
    s.depth ∈ Config.dstDepths := by
  rw [depthOk, if_neg] at h
  · simpa using h
  · rcases ho with ho | ho <;> rw [ho] <;> decide

theorem runningCommand_eq {s : State} {i : Instr} {op : BitVec 3} (h : (i, op) ∈ transferCommands) (ho : s.op = op) :
    runningCommand s = some i := by
  simp only [transferCommands, List.mem_cons, Prod.mk.injEq, List.not_mem_nil, or_false] at h
  rcases h with ⟨rfl, rfl⟩ | ⟨rfl, rfl⟩ | ⟨rfl, rfl⟩ | ⟨rfl, rfl⟩ <;> simp [runningCommand, ho]

/-- The body of a running command's loop. -/
def loopBody (s : State) : State → Result Unit :=
  if s.op = 1#3 then directInStep else if s.op = 2#3 then packetStep else if s.op = 3#3 then directOutStep else emitStep

theorem blockStep_eq {s : State} (hb : s.phase = .busy) (ho : s.op = 1#3 ∨ s.op = 2#3 ∨ s.op = 3#3 ∨ s.op = 4#3) :
    blockStep s = (loopStep (loopBody s) s).outcome := by
  rcases ho with h | h | h | h <;>
    · simp only [blockStep, runningCommand, loopBody, h]
      exact transfer_busy hb h

/-- One step of a running command goes on, or fails (R36, R44, R300). -/
theorem blockStep_cases {s : State} (hw : Memory.wf s.pix) (hb : s.phase = .busy) (hr : runningOk s = true) :
    (∃ u, GoesOn s u ∧ blockStep s = .next (endStep u)) ∨
      ∃ t k info, blockStep s = .next t ∧ FailedFrom k info s t ∧ Memory.wf t.pix ∧ k.raisedByBlock = true ∧
        (k ≠ .streamError → info = 0) := by
  obtain ⟨ho, hd, -, -, hi⟩ := runningOk_iff.1 hr
  have hbpp := bpp_le_of_depth hd
  have finishes : ∀ u, GoesOn s u → loopBody s s = .ok () u → ∃ u, GoesOn s u ∧ blockStep s = .next (endStep u) :=
    fun u hg hu => ⟨u, hg, by rw [blockStep_eq hb ho, loopStep_ok hi hu]; rfl⟩
  have fails : Fails (loopBody s s) s → ∃ t k info, blockStep s = .next t ∧ FailedFrom k info s t ∧ Memory.wf t.pix ∧
      k.raisedByBlock = true ∧ (k ≠ .streamError → info = 0) := by
    rintro ⟨t, k, info, ht, h⟩
    exact ⟨t, k, info, by rw [blockStep_eq hb ho, loopStep_raised hi ht]; rfl, h⟩
  rcases ho with h | h | h | h
  · have hs := srcDepth_of_running hd (.inl h)
    have hbody : loopBody s = directInStep := by simp [loopBody, h]
    rcases directInStep_cases hw with ⟨px, rest, hp, hin⟩ | hf
    · obtain ⟨w, hu⟩ := directInStep_ok hs hi hp hin
      rw [← hp] at hu
      refine .inl (finishes _ (.inl ⟨.inl h, [pixelOfSource px], px, rest, w, rfl, Nat.le_refl _, ?_, ?_, hin⟩)
        (by rw [hbody]; exact hu))
      · rw [List.length_singleton]; omega
      · rw [List.length_singleton]; omega
    · exact .inr (fails (by rw [hbody]; exact hf))
  · have hs := srcDepth_of_running hd (.inr h)
    have hbody : loopBody s = packetStep := by simp [loopBody, h]
    rcases packetStep_cases hw hs with ⟨p, rest, hp, hl, hin⟩ | hf
    · obtain ⟨w, hu⟩ := packetStep_ok hs hp hl hin
      obtain ⟨h1, -, h3, -, h5⟩ := Packet.bytes_length hp
      have h6 : p.run * s.bpp ≤ p.run * 4 := Nat.mul_le_mul_left _ hbpp
      simp only [State.slotsLeft] at hl
      exact .inl (finishes (decoded p.expand p.bytes.length rest w s)
        (.inl ⟨.inr h, p.expand, p.bytes, rest, w, rfl, by omega, by omega, by omega, hin⟩) (by rw [hbody]; exact hu))
    · exact .inr (fails (by rw [hbody]; exact hf))
  · have hs := dstDepth_of_running hd (.inl h)
    have hbody : loopBody s = directOutStep := by simp [loopBody, h]
    rcases directOutStep_cases hw hs hi with hroom | hf
    · obtain ⟨w, tg, hu⟩ := directOutStep_ok hs hi hroom
      refine .inl (finishes _ (.inr ⟨.inl h, 1, wireBytes s.bpp [s.slot s.index], w, tg, rfl, Nat.le_refl _, by omega, ?_⟩)
        (by rw [hbody]; exact hu))
      rw [wireBytes_length (bpp_of_targetDepth hs), List.length_singleton]; omega
    · exact .inr (fails (by rw [hbody]; exact hf))
  · have hs := dstDepth_of_running hd (.inr h)
    have hbody : loopBody s = emitStep := by simp [loopBody, h]
    rcases emitStep_cases hw hs hi with hroom | hf
    · obtain ⟨w, tg, hu⟩ := emitStep_ok hs hi hroom
      obtain ⟨h1, h2, -, h4, -⟩ := emission_ok hs hi
      obtain ⟨h5, -, -, -, -⟩ := Packet.bytes_length h1
      have h6 : (emission s).run * s.bpp ≤ (emission s).run * 4 := Nat.mul_le_mul_left _ hbpp
      exact .inl (finishes (encoded (emission s).run (emission s).bytes w tg s)
        (.inr ⟨.inr h, (emission s).run, (emission s).bytes, w, tg, rfl, h2, h4, by omega⟩) (by rw [hbody]; exact hu))
    · exact .inr (fails (by rw [hbody]; exact hf))

/-- A step of a decode command leaves OUT alone (R74). -/
theorem blockStep_out {s t : State} (hb : s.phase = .busy) (ho : s.op = 1#3 ∨ s.op = 2#3) (h : blockStep s = .next t) :
    t.outBytes = s.outBytes ∧ t.outRoom = s.outRoom := by
  have hP : OutOnly fun t => t.outBytes = s.outBytes ∧ t.outRoom = s.outRoom :=
    ⟨fun _ _ h1 h2 h => ⟨h1.trans h.1, h2.trans h.2⟩⟩
  rw [blockStep_eq hb (by tauto)] at h
  refine Result.all_next (loopStep_all (P := fun t => t.outBytes = s.outBytes ∧ t.outRoom = s.outRoom) ⟨rfl, rfl⟩ ?_
    (fun _ h => h) (fun _ h => h)) h
  rcases ho with ho | ho <;> simp only [loopBody, ho]
  · exact directInStep_out hP ⟨rfl, rfl⟩
  · exact packetStep_out hP ⟨rfl, rfl⟩

/-- A step of an encode command leaves IN and PIX alone (R74, R205). -/
theorem blockStep_source {s t : State} (hb : s.phase = .busy) (ho : s.op = 3#3 ∨ s.op = 4#3) (h : blockStep s = .next t) :
    t.inBytes = s.inBytes ∧ t.inEnd = s.inEnd ∧ t.pix = s.pix := by
  have hP : SourceOnly fun t => t.inBytes = s.inBytes ∧ t.inEnd = s.inEnd ∧ t.pix = s.pix :=
    ⟨fun _ _ h1 h2 h3 h => ⟨h1.trans h.1, h2.trans h.2.1, h3.trans h.2.2⟩⟩
  rw [blockStep_eq hb (by tauto)] at h
  refine Result.all_next (loopStep_all (P := fun t => t.inBytes = s.inBytes ∧ t.inEnd = s.inEnd ∧ t.pix = s.pix)
    ⟨rfl, rfl, rfl⟩ ?_ (fun _ h => h) (fun _ h => h)) h
  rcases ho with ho | ho <;> simp only [loopBody, ho]
  · exact directOutStep_source hP ⟨rfl, rfl, rfl⟩
  · exact emitStep_source hP ⟨rfl, rfl, rfl⟩

end Sys2Proof.Machine
end

