-- ==== Sys2Proof/Laws/Run.lean ====
section
/-! SUPPORT. Whole commands: a command that is running runs to its end, chunk by chunk for a decode, packet by packet for an
encode (R44, R171, R198). -/

namespace Sys2Proof.Machine

open Sys2Proof.Safety

/-! ### Steps of a running command -/

/-- A state with another phase, latch and counter. -/
def settled (ph : Phase) (tg : List Byte) (fc : Nat) (s : State) : State := { s with phase := ph, target := tg, freeCount := fc }

theorem step_running {s : State} (hr : s.resetIn = none) (hb : s.phase = .busy) : step s = blockStep s := by
  simp [step, systemStep, hr, hb]

theorem runCommand_step {s t : State} {fuel : Nat} (hr : s.resetIn = none) (hb : s.phase = .busy)
    (h : blockStep s = .next t) : runCommand (fuel + 1) s = runCommand fuel t := by
  rw [runCommand, if_pos hb, step_running hr hb, h]

theorem runCommand_rest {s : State} (h : s.phase ≠ .busy) (fuel : Nat) : runCommand fuel s = .next s := by
  cases fuel with
  | zero => rfl
  | succ n => rw [runCommand, if_neg h]

theorem blockStep_ok {s u : State} (hb : s.phase = .busy) (ho : s.op = 1#3 ∨ s.op = 2#3 ∨ s.op = 3#3 ∨ s.op = 4#3)
    (hi : s.index < s.pixels) (h : loopBody s s = .ok () u) : blockStep s = .next (endStep u) := by
  rw [blockStep_eq hb ho, loopStep_ok hi h]; rfl

theorem blockStep_raised {s t : State} (hb : s.phase = .busy) (ho : s.op = 1#3 ∨ s.op = 2#3 ∨ s.op = 3#3 ∨ s.op = 4#3)
    (hi : s.index < s.pixels) (h : loopBody s s = .raised t) : blockStep s = .next t := by
  rw [blockStep_eq hb ho, loopStep_raised hi h]; rfl

/-! ### Decode -/

/-- A part of a decode: the pixels it writes and the bytes it consumes. -/
structure Chunk where
  pixels : List Pixel
  bytes : List Byte

/-- The pixels of a chunk sequence. -/
def chunkPixels (cs : List Chunk) : List Pixel := (cs.map Chunk.pixels).flatten

/-- The bytes of a chunk sequence. -/
def chunkBytes (cs : List Chunk) : List Byte := (cs.map Chunk.bytes).flatten

/-- One step of the running decode consumes the chunk and writes its pixels, wherever it fits. -/
def Decodes (s : State) (c : Chunk) : Prop :=
  1 ≤ c.pixels.length ∧ ∀ u : State, u.op = s.op → u.depth = s.depth → u.width = s.width → u.height = s.height →
    u.index + c.pixels.length ≤ u.pixels → ∀ rest, u.inBytes = c.bytes ++ rest →
      ∃ w, loopBody u u = .ok () (decoded c.pixels c.bytes.length rest w u)

/-- A running decode over chunks that do not fill the image: after as many steps as there are chunks it is still running,
the chunks consumed. -/
theorem run_chunks {cs : List Chunk} {rest : List Byte} {s : State} {fuel : Nat} (hb : s.phase = .busy)
    (ho : s.op = 1#3 ∨ s.op = 2#3) (hr : s.resetIn = none) (hw : Memory.wf s.pix) (hc : ∀ c ∈ cs, Decodes s c)
    (hfit : s.index + (chunkPixels cs).length < s.pixels) (hin : s.inBytes = chunkBytes cs ++ rest) :
    ∃ w tg fc, runCommand (cs.length + fuel) s = runCommand fuel
        (settled .busy tg fc (decoded (chunkPixels cs) (chunkBytes cs).length rest w s)) := by
  induction cs generalizing s with
  | nil =>
    refine ⟨s.work, s.target, s.freeCount, ?_⟩
    have : settled .busy s.target s.freeCount (decoded [] 0 rest s.work s) = s := by
      simp only [chunkBytes, List.map_nil, List.flatten_nil, List.nil_append] at hin
      simp [settled, decoded, putPixels, storePix, Memory.store, ← hin, ← hb]
    simp only [chunkPixels, chunkBytes, List.map_nil, List.flatten_nil, List.length_nil, Nat.zero_add]
    rw [this]
  | cons c cs ih =>
    have hp : chunkPixels (c :: cs) = c.pixels ++ chunkPixels cs := rfl
    have hbs : chunkBytes (c :: cs) = c.bytes ++ chunkBytes cs := rfl
    rw [hp, List.length_append] at hfit
    rw [hbs, List.append_assoc] at hin
    obtain ⟨h1, hdec⟩ := hc c List.mem_cons_self
    obtain ⟨w, hu⟩ := hdec s rfl rfl rfl rfl (by omega) _ hin
    have hstep := blockStep_ok hb (by tauto) (by omega) hu
    have hidx := decoded_index (m := c.bytes.length) (rest := chunkBytes cs ++ rest) (w := w) (ps := c.pixels) (s := s)
      (by omega)
    have hend : endStep (decoded c.pixels c.bytes.length (chunkBytes cs ++ rest) w s) =
        settled .busy [] (s.freeCount + 1)
          (decoded c.pixels c.bytes.length (chunkBytes cs ++ rest) (freeWork s.freeCount) s) := by
      rw [endStep_eq, hidx, if_neg (by show ¬ s.index + _ = s.pixels; omega)]
      simp [settled, dropWork, decoded, hb]
    rw [hend] at hstep
    generalize hv : settled .busy [] (s.freeCount + 1)
      (decoded c.pixels c.bytes.length (chunkBytes cs ++ rest) (freeWork s.freeCount) s) = v at hstep
    have hvi : v.index = s.index + c.pixels.length := by
      subst hv
      exact decoded_index (m := c.bytes.length) (rest := chunkBytes cs ++ rest) (w := freeWork s.freeCount) (by omega)
    obtain ⟨w', tg, fc, hrun⟩ := ih (s := v) (by subst hv; rfl) (by subst hv; exact ho) (by subst hv; exact hr)
      (by subst hv; exact putPixels_wf hw _ _) (fun d hd => by subst hv; exact hc d (List.mem_cons_of_mem _ hd))
      (by rw [hvi]; have : v.pixels = s.pixels := by subst hv; rfl
          omega) (by subst hv; rfl)
    refine ⟨w', tg, fc, ?_⟩
    rw [List.length_cons, show cs.length + 1 + fuel = (cs.length + fuel) + 1 by omega, runCommand_step hr hb hstep, hrun]
    congr 1
    rw [hp, hbs, List.length_append, ← decoded_append (v := freeWork s.freeCount) (r1 := chunkBytes cs ++ rest) (h := by omega)]
    subst hv
    rfl

/-- A running decode over chunks that fill the image ends with `DONE` (R36, R171). -/
theorem run_decode {cs : List Chunk} {rest : List Byte} {s : State} {fuel : Nat} (hb : s.phase = .busy)
    (ho : s.op = 1#3 ∨ s.op = 2#3) (hr : s.resetIn = none) (hw : Memory.wf s.pix) (hc : ∀ c ∈ cs, Decodes s c)
    (hne : cs ≠ []) (hfit : s.index + (chunkPixels cs).length = s.pixels) (hin : s.inBytes = chunkBytes cs ++ rest)
    (hfuel : cs.length ≤ fuel) :
    ∃ w tg fc, runCommand fuel s = .next
        (settled .done tg fc (decoded (chunkPixels cs) (chunkBytes cs).length rest w s)) := by
  obtain ⟨cs, c, rfl⟩ : ∃ ds d, cs = ds ++ [d] := ⟨cs.dropLast, cs.getLast hne, (List.dropLast_append_getLast hne).symm⟩
  have hp : chunkPixels (cs ++ [c]) = chunkPixels cs ++ c.pixels := by simp [chunkPixels]
  have hbs : chunkBytes (cs ++ [c]) = chunkBytes cs ++ c.bytes := by simp [chunkBytes]
  obtain ⟨h1, hdec⟩ := hc c (by simp)
  rw [hp, List.length_append] at hfit
  rw [hbs, List.append_assoc] at hin
  simp only [List.length_append, List.length_singleton] at hfuel
  obtain ⟨w, tg, fc, hrun⟩ := run_chunks (fuel := fuel - cs.length) hb ho hr hw (fun d hd => hc d (by simp [hd]))
    (by omega) hin
  rw [show cs.length + (fuel - cs.length) = fuel by omega] at hrun
  generalize hv : settled .busy tg fc (decoded (chunkPixels cs) (chunkBytes cs).length (c.bytes ++ rest) w s) = v at hrun
  have hvi : v.index = s.index + (chunkPixels cs).length := by
    subst hv; exact decoded_index (m := (chunkBytes cs).length) (rest := c.bytes ++ rest) (w := w) (by omega)
  have hvp : v.pixels = s.pixels := by subst hv; rfl
  have hvb : v.phase = .busy := by subst hv; rfl
  obtain ⟨w', hu⟩ := hdec v (by subst hv; rfl) (by subst hv; rfl) (by subst hv; rfl) (by subst hv; rfl) (by omega) rest
    (by subst hv; rfl)
  have hstep := blockStep_ok hvb (by subst hv; rcases ho with h | h <;> [exact .inl h; exact .inr (.inl h)]) (by omega) hu
  refine ⟨freeWork v.freeCount, [], v.freeCount + 1, ?_⟩
  rw [hrun, show fuel - cs.length = (fuel - cs.length - 1) + 1 by omega,
    runCommand_step (by subst hv; exact hr) hvb hstep]
  have hend : endStep (decoded c.pixels c.bytes.length rest w' v) =
      settled .done [] (v.freeCount + 1)
        (decoded (chunkPixels (cs ++ [c])) (chunkBytes (cs ++ [c])).length rest (freeWork v.freeCount) s) := by
    rw [endStep_eq, decoded_index (by omega), if_pos (by show v.index + _ = v.pixels; omega), hp, hbs, List.length_append,
      ← decoded_append (v := w) (r1 := c.bytes ++ rest) (h := by omega)]
    subst hv
    rfl
  rw [hend, runCommand_rest (by simp [settled])]

/-- The chunk of a packet. -/
def packetChunk (p : Packet) : Chunk := ⟨p.expand, p.bytes⟩

theorem packet_decodes {p : Packet} {s : State} (ho : s.op = 2#3) (hd : s.depth ∈ Config.srcDepths)
    (hp : p.ok s.bpp = true) : Decodes s (packetChunk p) := by
  obtain ⟨-, -, h3, -, h5⟩ := Packet.bytes_length hp
  refine ⟨by simp only [packetChunk]; omega, fun u e1 e2 e3 e4 hfit rest hin => ?_⟩
  simp only [packetChunk] at hfit hin ⊢
  have hbody : loopBody u = packetStep := by simp [loopBody, e1, ho]
  rw [hbody]
  exact packetStep_ok (by rw [e2]; exact hd) (by simpa only [State.bpp, e2] using hp)
    (by simp only [State.slotsLeft]; omega) hin

theorem pixel_decodes {px : List Byte} {s : State} (ho : s.op = 1#3) (hd : s.depth ∈ Config.srcDepths)
    (hp : px.length = s.bpp) : Decodes s ⟨[pixelOfSource px], px⟩ := by
  refine ⟨Nat.le_refl _, fun u e1 e2 e3 e4 hfit rest hin => ?_⟩
  simp only [List.length_singleton] at hfit hin
  have hbody : loopBody u = directInStep := by simp [loopBody, e1, ho]
  have hub : px.length = u.bpp := by simpa only [State.bpp, e2] using hp
  rw [hbody, hub]
  exact directInStep_ok (by rw [e2]; exact hd) (by omega) hub hin

theorem chunkPixels_packets (ps : List Packet) : chunkPixels (ps.map packetChunk) = streamPixels ps := by
  simp only [chunkPixels, streamPixels, List.map_map]; rfl

theorem chunkBytes_packets (ps : List Packet) : chunkBytes (ps.map packetChunk) = streamBytes ps := by
  simp only [chunkBytes, streamBytes, List.map_map]; rfl

theorem streamPixels_length {b : Nat} {ps : List Packet} (h : ∀ p ∈ ps, p.ok b = true) :
    (streamPixels ps).length = streamRun ps ∧ ps.length ≤ streamRun ps ∧ (streamBytes ps).length ≤ streamRun ps * (1 + b) ∧
      ps.length * (1 + b) ≤ (streamBytes ps).length := by
  induction ps with
  | nil => simp [streamPixels, streamRun, streamBytes]
  | cons p ps ih =>
    obtain ⟨i1, i2, i3, i4⟩ := ih fun q hq => h q (List.mem_cons_of_mem _ hq)
    obtain ⟨h1, h2, h3, -, h5⟩ := Packet.bytes_length (h p List.mem_cons_self)
    have e1 : streamPixels (p :: ps) = p.expand ++ streamPixels ps := rfl
    have e2 : streamRun (p :: ps) = p.run + streamRun ps := rfl
    have e3 : streamBytes (p :: ps) = p.bytes ++ streamBytes ps := rfl
    have e4 : p.run * (1 + b) = p.run + p.run * b := by rw [Nat.mul_add, Nat.mul_one]
    rw [e1, e2, e3, List.length_append, List.length_append, List.length_cons, Nat.add_mul, Nat.add_mul, Nat.one_mul]
    omega

/-! ### Encode -/

theorem throughDepth_pixelOfSource {s : State} (hd : s.depth ∈ Config.dstDepths) (p : Pixel) :
    pixelOfSource (targetBytes s.bpp p) = throughDepth s.depth p := by
  simp only [Config.dstDepths, List.mem_cons, List.not_mem_nil, or_false] at hd
  rcases hd with h | h <;> simp only [State.bpp, h, throughDepth] <;> rfl

/-- What the packet emitted at `PIXIDX` expands to (R195, R196). -/
theorem emission_expand {s : State} (hd : s.depth ∈ Config.dstDepths) (hi : s.index < s.pixels) :
    (emission s).expand = (slots s s.index (emission s).run).map (throughDepth s.depth) := by
  obtain ⟨-, -, -, h4⟩ := localRun_bounds hi
  unfold emission
  split
  · simp only [Packet.expand, Packet.run, throughDepth_pixelOfSource hd]
    refine List.ext_getElem (by simp) fun k h1 h2 => ?_
    simp only [List.length_replicate] at h1
    simp [slots, h4 k h1]
  · simp only [Packet.expand, Packet.run, List.map_map, List.length_map, slots_length]
    exact List.map_congr_left fun p _ => throughDepth_pixelOfSource hd p

theorem emission_congr {s t : State} (hp : t.pix = s.pix) (hw : t.width = s.width) (hh : t.height = s.height)
    (hd : t.depth = s.depth) (hi : t.pixIdx = s.pixIdx) : emission t = emission s := by
  have hs : ∀ i, t.slot i = s.slot i := fun i => by simp only [State.slot, hp]
  have hl : ∀ j, localRun t j = localRun s j :=
    localRun_congr (by simp only [State.pixels, hw, hh]) (by simp only [State.maxRun, hw]) hs
  have hx : t.index = s.index := by simp only [State.index, hi]
  have hb : t.bpp = s.bpp := by simp only [State.bpp, hd]
  have hm : t.maxRun = s.maxRun := by simp only [State.maxRun, hw]
  have hr : rawCount t s.index = rawCount s s.index := by rw [rawCount, rawCount, hm, gather_congr hl]
  have hsl : slots t s.index (rawCount s s.index) = slots s s.index (rawCount s s.index) :=
    List.map_congr_left fun a _ => hs a
  simp only [emission, hx, hl, hb, hs, hr, hsl]

theorem encoded_append (n m : Nat) (bs cs : List Byte) (v w : Working) (t1 t2 : List Byte) (s : State) :
    encoded m cs w t2 (encoded n bs v t1 s) = encoded (n + m) (bs ++ cs) w t2 s := by
  simp only [encoded, BitVec.ofNat_add, ← BitVec.add_assoc]
  rw [← appendOut_append]
  rfl

theorem slots_add (s : State) (i n m : Nat) : slots s i (n + m) = slots s i n ++ slots s (i + n) m := by
  simp only [slots, ← List.map_append, ← List.range'_append_1]

/-- What a running encode appends from `PIXIDX` on: a list of chunks of pixels, each with its bytes. -/
def Encodes (s : State) (n : Nat) (bs : List Byte) : Prop :=
  1 ≤ n ∧ s.index + n ≤ s.pixels ∧ ∃ w tg, loopBody s s = .ok () (encoded n bs w tg s)

/-- One step of a running encode. -/
theorem encode_step {n : Nat} {bs : List Byte} {s : State} {fuel : Nat} (hb : s.phase = .busy)
    (ho : s.op = 3#3 ∨ s.op = 4#3) (hr : s.resetIn = none) (h : Encodes s n bs) :
    runCommand (fuel + 1) s = runCommand fuel
      (settled (if s.index + n = s.pixels then .done else .busy) [] (s.freeCount + 1)
        (encoded n bs (freeWork s.freeCount) [] s)) := by
  obtain ⟨h1, h2, w, tg, hu⟩ := h
  rw [runCommand_step hr hb (blockStep_ok hb (by tauto) (by omega) hu)]
  congr 1
  rw [endStep_eq, encoded_index h2]
  show settled _ _ _ _ = _
  simp only [settled, encoded]
  rw [← hb]
  rfl

/-- `u` runs encode command `op` on the image that stands in `s`, from the same `PIXIDX` on, with no reset on the way; OUT is
its own. -/
def EncodesFrom (op : BitVec 3) (s u : State) : Prop :=
  u.phase = .busy ∧ u.op = op ∧ u.resetIn = none ∧ u.pix = s.pix ∧ u.width = s.width ∧ u.height = s.height
    ∧ u.depth = s.depth ∧ u.pixIdx = s.pixIdx

/-- The running command after one of its steps, which emitted `bs` for `n` pixels. -/
def afterEmission (n : Nat) (bs : List Byte) (s : State) : State :=
  settled .busy [] (s.freeCount + 1) (encoded n bs (freeWork s.freeCount) [] s)

theorem roomFor_afterEmission {n m : Nat} {bs : List Byte} {s : State} (h : roomFor (bs.length + m) s) :
    roomFor m (afterEmission n bs s) := by
  intro r hr
  simp only [afterEmission, settled, encoded, appendOut] at hr
  cases ho : s.outRoom with
  | none => simp [ho] at hr
  | some q =>
    have := h q ho
    simp [ho] at hr
    subst hr
    simp only
    omega

theorem not_roomFor_afterEmission {n m : Nat} {bs : List Byte} {s : State} (h : ¬ roomFor (bs.length + m) s)
    (hb : roomFor bs.length s) : ¬ roomFor m (afterEmission n bs s) := by
  rcases roomFor_or (bs.length + m) s with h' | ⟨room, e, hr, hlt⟩
  · exact absurd h' h
  · have := hb (room, e) hr
    intro hm
    have := hm (room - bs.length, e) (by simp [afterEmission, settled, encoded, appendOut, hr])
    simp only at *
    omega

@[simp] theorem afterEmission_bpp (n : Nat) (bs : List Byte) (s : State) : (afterEmission n bs s).bpp = s.bpp := rfl
@[simp] theorem afterEmission_pixels (n : Nat) (bs : List Byte) (s : State) : (afterEmission n bs s).pixels = s.pixels := rfl
@[simp] theorem afterEmission_maxRun (n : Nat) (bs : List Byte) (s : State) : (afterEmission n bs s).maxRun = s.maxRun := rfl
@[simp] theorem afterEmission_depth (n : Nat) (bs : List Byte) (s : State) : (afterEmission n bs s).depth = s.depth := rfl
@[simp] theorem afterEmission_slots (n : Nat) (bs : List Byte) (s : State) (i m : Nat) :
    slots (afterEmission n bs s) i m = slots s i m := rfl

theorem afterEmission_index {n : Nat} {bs : List Byte} {s : State} (h : s.index + n ≤ s.pixels) :
    (afterEmission n bs s).index = s.index + n := index_advance h

theorem encoded_afterEmission (n m : Nat) (bs cs : List Byte) (w : Working) (tg : List Byte) (fc : Nat) (s : State) :
    settled .done tg fc (encoded m cs w tg (afterEmission n bs s)) =
      settled .done tg fc (encoded (n + m) (bs ++ cs) w tg s) := by
  rw [← encoded_append (v := freeWork s.freeCount) (t1 := [])]
  rfl

/-- One step of a running `ENC_RLE`: the packet at `PIXIDX` goes out, or the command has failed. -/
theorem encRle_step {s u : State} {fuel : Nat} (hd : s.depth ∈ Config.dstDepths) (hi : s.index < s.pixels)
    (hu : EncodesFrom 4#3 s u) :
    (roomFor (emission s).bytes.length u → runCommand (fuel + 1) u =
      if s.index + (emission s).run = s.pixels then
        .next (settled .done [] (u.freeCount + 1) (encoded (emission s).run (emission s).bytes (freeWork u.freeCount) [] u))
      else runCommand fuel (afterEmission (emission s).run (emission s).bytes u)) ∧
    (¬ roomFor (emission s).bytes.length u → ∃ t, runCommand (fuel + 1) u = .next t ∧ t.phase = .failed) := by
  obtain ⟨hb, ho, hr, hp, hw, hh, hdd, hx⟩ := hu
  obtain ⟨-, e2, -, e4, -⟩ := emission_ok hd hi
  have he : emission u = emission s := emission_congr hp hw hh hdd hx
  have hui : u.index = s.index := by simp only [State.index, hx]
  have hup : u.pixels = s.pixels := by simp only [State.pixels, hw, hh]
  have hbody : loopBody u = emitStep := by simp [loopBody, ho]
  have hud : u.depth ∈ Config.dstDepths := by rw [hdd]; exact hd
  constructor
  · intro hroom
    rw [encode_step (n := (emission s).run) (bs := (emission s).bytes) hb (.inr ho) hr
      ⟨e2, by omega, by rw [hbody, ← he]; exact emitStep_ok hud (by omega) (by rw [he]; exact hroom)⟩, hui, hup]
    split
    · rw [runCommand_rest (by simp [settled])]
    · rfl
  · intro hroom
    rcases roomFor_or (emission s).bytes.length u with h | ⟨room, e, hr', hlt⟩
    · exact absurd h hroom
    · obtain ⟨t, ht, hf', -⟩ := emitStep_full hud (by omega) hr' (by rw [he]; exact hlt)
      refine ⟨t, ?_, hf'.1⟩
      rw [runCommand_step hr hb (blockStep_raised hb (by tauto) (by omega) (by rw [hbody]; exact ht)),
        runCommand_rest (by rw [hf'.1]; simp)]

/-- A running `ENC_RLE` emits one packet stream that covers what is left of the image: with room for it the command ends
with `DONE`, having appended it; without, it ends in `FAILED` (R198, R203, R65). -/
theorem run_encRle {k : Nat} {s : State} (hk : s.pixels - s.index = k) (hd : s.depth ∈ Config.dstDepths)
    (hi : s.index < s.pixels) :
    ∃ ps : List Packet,
      streamRun ps = k ∧ streamPixels ps = (slots s s.index k).map (throughDepth s.depth) ∧
        (∀ p ∈ ps, p.ok s.bpp = true ∧ 1 ≤ p.run ∧ p.run ≤ s.maxRun ∧ ∀ n px, p = .rpt n px → 2 ≤ n) ∧
        ∀ u fuel, EncodesFrom 4#3 s u → k ≤ fuel →
          (roomFor (streamBytes ps).length u → ∃ w tg fc, runCommand fuel u =
            .next (settled .done tg fc (encoded k (streamBytes ps) w tg u))) ∧
          (¬ roomFor (streamBytes ps).length u → ∃ t, runCommand fuel u = .next t ∧ t.phase = .failed) := by
  induction k using Nat.strongRecOn generalizing s with
  | _ k ih =>
    obtain ⟨e1, e2, e3, e4, e5⟩ := emission_ok hd hi
    by_cases hlast : s.index + (emission s).run = s.pixels
    · obtain rfl : (emission s).run = k := by omega
      refine ⟨[emission s], by simp [streamRun], ?_, ?_, fun u fuel hu hf => ?_⟩
      · rw [← emission_expand hd hi]; simp [streamPixels]
      · intro p hp
        rw [List.mem_singleton.1 hp]
        exact ⟨e1, e2, e3, e5⟩
      · obtain ⟨s1, s2⟩ := encRle_step (fuel := fuel - 1) hd hi hu
        rw [show fuel - 1 + 1 = fuel by omega] at s1 s2
        rw [show streamBytes [emission s] = (emission s).bytes by simp [streamBytes]]
        exact ⟨fun hroom => ⟨_, _, _, by rw [s1 hroom, if_pos hlast]⟩, s2⟩
    · obtain ⟨m, rfl⟩ : ∃ m, k = (emission s).run + m := ⟨k - (emission s).run, by omega⟩
      have hvi := afterEmission_index (bs := (emission s).bytes) e4
      obtain ⟨ps, h1, h2, h3, h4⟩ := ih m (by omega) (s := afterEmission (emission s).run (emission s).bytes s)
        (by rw [hvi, afterEmission_pixels]; omega) hd (by rw [hvi, afterEmission_pixels]; omega)
      simp only [afterEmission_slots, afterEmission_depth, afterEmission_bpp, afterEmission_maxRun, hvi] at h2 h3
      have hbytes : streamBytes (emission s :: ps) = (emission s).bytes ++ streamBytes ps := rfl
      refine ⟨emission s :: ps, ?_, ?_, ?_, fun u fuel hu hf => ?_⟩
      · show (emission s).run + streamRun ps = _; omega
      · show (emission s).expand ++ streamPixels ps = _
        rw [slots_add, List.map_append, emission_expand hd hi, h2]
      · intro p hp
        rcases List.mem_cons.1 hp with rfl | hq
        · exact ⟨e1, e2, e3, e5⟩
        · exact h3 p hq
      · have hv : EncodesFrom 4#3 (afterEmission (emission s).run (emission s).bytes s)
            (afterEmission (emission s).run (emission s).bytes u) := by
          obtain ⟨-, ho, hr, hp, hw, hh, hdd, hx⟩ := hu
          exact ⟨rfl, ho, hr, hp, hw, hh, hdd, congrArg (· + _) hx⟩
        obtain ⟨g1, g2⟩ := h4 _ (fuel - 1) hv (by omega)
        obtain ⟨s1, s2⟩ := encRle_step (fuel := fuel - 1) hd hi hu
        rw [show fuel - 1 + 1 = fuel by omega] at s1 s2
        rw [if_neg hlast] at s1
        rw [hbytes, List.length_append]
        constructor
        · intro hroom
          obtain ⟨w, tg, fc, hrun⟩ := g1 (roomFor_afterEmission hroom)
          exact ⟨w, tg, fc, by rw [s1 (roomFor_mono hroom (by omega)), hrun, encoded_afterEmission]⟩
        · intro hroom
          by_cases hone : roomFor (emission s).bytes.length u
          · obtain ⟨t, ht, hph⟩ := g2 (not_roomFor_afterEmission hroom hone)
            exact ⟨t, (s1 hone).trans ht, hph⟩
          · exact s2 hone

/-- A running `ENC_DIRECT` with room for the bytes of every slot left (R224). -/
theorem run_encDirect {k : Nat} {s : State} {fuel : Nat} (hk : s.pixels - s.index = k) (hb : s.phase = .busy)
    (ho : s.op = 3#3) (hr : s.resetIn = none) (hroom : roomFor (k * s.bpp) s) (hd : s.depth ∈ Config.dstDepths)
    (hi : s.index < s.pixels) (hfuel : k ≤ fuel) :
    ∃ (w : Working) (tg : List Byte) (fc : Nat), runCommand fuel s =
      .next (settled .done tg fc (encoded k (wireBytes s.bpp (slots s s.index k)) w tg s)) := by
  induction k generalizing s fuel with
  | zero => omega
  | succ k ih =>
    have hlen : (wireBytes s.bpp [s.slot s.index]).length = s.bpp := by
      rw [wireBytes_length (bpp_of_targetDepth hd), List.length_singleton, Nat.one_mul]
    have hsplit : roomFor (s.bpp + k * s.bpp) s := by rw [Nat.add_comm, ← Nat.succ_mul]; exact hroom
    have hbody : loopBody s = directOutStep := by simp [loopBody, ho]
    have henc : Encodes s 1 (wireBytes s.bpp [s.slot s.index]) :=
      ⟨Nat.le_refl _, by omega, by rw [hbody]; exact directOutStep_ok hd hi (roomFor_mono hsplit (by omega))⟩
    have hstep := encode_step (fuel := fuel - 1) hb (.inl ho) hr henc
    rw [show fuel - 1 + 1 = fuel by omega] at hstep
    by_cases hlast : s.index + 1 = s.pixels
    · rw [if_pos hlast] at hstep
      refine ⟨freeWork s.freeCount, [], s.freeCount + 1, ?_⟩
      rw [hstep, runCommand_rest (by simp [settled]), show k = 0 by omega]
      rfl
    · rw [if_neg hlast] at hstep
      have hvi := afterEmission_index (n := 1) (bs := wireBytes s.bpp [s.slot s.index]) (s := s) (by omega)
      obtain ⟨w, tg, fc, h1⟩ := ih (s := afterEmission 1 (wireBytes s.bpp [s.slot s.index]) s) (fuel := fuel - 1)
        (by rw [hvi, afterEmission_pixels]; omega) rfl ho hr (roomFor_afterEmission (by rw [hlen]; exact hsplit)) hd
        (by rw [hvi, afterEmission_pixels]; omega) (by omega)
      rw [encoded_afterEmission, hvi, afterEmission_bpp, afterEmission_slots] at h1
      refine ⟨w, tg, fc, ?_⟩
      have hw : wireBytes s.bpp (slots s s.index (k + 1)) =
          wireBytes s.bpp [s.slot s.index] ++ wireBytes s.bpp (slots s (s.index + 1) k) := by
        rw [slots_succ]; exact wireBytes_cons ..
      rw [hstep, hw, Nat.add_comm k 1]
      exact h1

end Sys2Proof.Machine
end

