-- ==== Sys2Proof/Laws/Start.lean ====
section
/-! SUPPORT. How a command starts (R46), what a step that goes on leaves, and how the host's queue drives the machine (R20,
R335). -/

namespace Sys2Proof.Machine

open Sys2Proof.Safety

/-! ### The start of a transfer command -/

theorem exec_transfer {i : Instr} {op : BitVec 3} (h : (i, op) ∈ transferCommands) (s : State) :
    ∃ body, exec i s = transfer op body s ∧ (op = 1#3 ∨ op = 2#3 ∨ op = 3#3 ∨ op = 4#3) := by
  simp only [transferCommands, List.mem_cons, Prod.mk.injEq, List.not_mem_nil, or_false] at h
  rcases h with ⟨rfl, rfl⟩ | ⟨rfl, rfl⟩ | ⟨rfl, rfl⟩ | ⟨rfl, rfl⟩ <;> exact ⟨_, rfl, by decide⟩

theorem transfer_start {op : BitVec 3} {body : State → Result Unit} {s : State} (h : s.phase = .idle ∨ s.phase = .done) :
    transfer op body s = startCommand op s := by rcases h with h | h <;> simp [transfer, h]

theorem startCommand_ok {op : BitVec 3} {s : State} (ho : op = 1#3 ∨ op = 2#3 ∨ op = 3#3 ∨ op = 4#3)
    (hd : depthOk op s.depth = true) (hw : s.width ≠ 0) (hh : s.height ≠ 0) :
    startCommand op s = .next (openCommand op s) := by
  have hr : reservedOp op = false := by rcases ho with rfl | rfl | rfl | rfl <;> decide
  rw [startCommand, if_neg (by rw [hr]; decide), if_neg (by rw [hd]; decide), if_neg (by tauto)]

theorem exec_ready {i : Instr} {op : BitVec 3} {s : State} (hi : (i, op) ∈ transferCommands) (h : ReadyFor op s) :
    exec i s = .next (openCommand op s) := by
  obtain ⟨body, he, ho⟩ := exec_transfer hi s
  obtain ⟨hp, -, -, hw, hh, hd⟩ := h
  rw [he, transfer_start hp, startCommand_ok ho hd hw hh]

theorem pixels_pos {op : BitVec 3} {s : State} (h : ReadyFor op s) : 0 < s.pixels := by
  obtain ⟨-, -, -, hw, hh, -⟩ := h
  have a : s.width.toNat ≠ 0 := fun e => hw (BitVec.eq_of_toNat_eq e)
  have b : s.height.toNat ≠ 0 := fun e => hh (BitVec.eq_of_toNat_eq e)
  exact Nat.mul_pos (by omega) (by omega)

/-! ### What a step that goes on leaves -/

theorem position_add {x : BitVec 64} {m i n N : Nat} (hx : x.toNat ≤ 5 * i) (hm : m ≤ 5 * n) (hn : i + n ≤ N)
    (hN : N < 2 ^ 32) : (x + BitVec.ofNat 64 m).toNat = x.toNat + m := by
  rw [BitVec.toNat_add, BitVec.toNat_ofNat]; omega

/-- Positions move forward and do not wrap (R30, R31, R32). -/
theorem goesOn_positions {s u : State} (h : GoesOn s u) (hi : s.iPos.toNat ≤ 5 * s.index)
    (ho : s.oPos.toNat ≤ 5 * s.index) :
    s.index < u.index ∧ u.index ≤ s.pixels ∧ u.pixels = s.pixels ∧ s.iPos.toNat ≤ u.iPos.toNat ∧
      u.iPos.toNat ≤ 5 * u.index ∧ s.oPos.toNat ≤ u.oPos.toNat ∧ u.oPos.toNat ≤ 5 * u.index := by
  have hN := pixels_lt s
  rcases h with ⟨-, ps, taken, rest, w, rfl, h1, h2, h3, -⟩ | ⟨-, n, bs, w, tg, rfl, h1, h2, h3⟩
  · rw [decoded_index h2]
    have e : (decoded ps taken.length rest w s).iPos.toNat = s.iPos.toNat + taken.length := position_add hi h3 h2 hN
    have e' : (decoded ps taken.length rest w s).oPos.toNat = s.oPos.toNat := rfl
    refine ⟨by omega, by omega, rfl, by omega, by omega, by omega, by omega⟩
  · rw [encoded_index h2]
    have e : (encoded n bs w tg s).oPos.toNat = s.oPos.toNat + bs.length := position_add ho h3 h2 hN
    have e' : (encoded n bs w tg s).iPos.toNat = s.iPos.toNat := rfl
    refine ⟨by omega, by omega, rfl, by omega, by omega, by omega, by omega⟩

/-- The configuration, the phase, the error latch and the host's plans stay. -/
theorem goesOn_fields {s u : State} (h : GoesOn s u) :
    u.op = s.op ∧ u.width = s.width ∧ u.height = s.height ∧ u.depth = s.depth ∧ u.phase = s.phase ∧
      u.errCode = s.errCode ∧ u.errInfo = s.errInfo ∧ u.hostQueue = s.hostQueue ∧ u.resetIn = s.resetIn := by
  rcases h with ⟨-, ps, taken, rest, w, rfl, -⟩ | ⟨-, n, bs, w, tg, rfl, -⟩ <;>
    exact ⟨rfl, rfl, rfl, rfl, rfl, rfl, rfl, rfl, rfl⟩

theorem goesOn_wf {s u : State} (hw : Memory.wf s.pix) (h : GoesOn s u) : Memory.wf u.pix := by
  rcases h with ⟨-, ps, taken, rest, w, rfl, -⟩ | ⟨-, n, bs, w, tg, rfl, -⟩
  · exact decoded_wf hw _ _ _ _
  · exact hw

/-! ### The host's queue -/

theorem drive_rest {s : State} (h : s.phase ≠ .busy) (hq : s.hostQueue = []) (fuel : Nat) : drive fuel s = .next s := by
  cases fuel with
  | zero => rfl
  | succ n => rw [drive, if_pos (by simp [atRest, h, hq])]

theorem drive_host {s t : State} {a : HostAction} {q : List HostAction} {fuel : Nat} (h : s.phase ≠ .busy)
    (hr : s.resetIn = none) (hq : s.hostQueue = a :: q) (ha : hostAct a { s with hostQueue := q } = .next t) :
    drive (fuel + 1) s = drive fuel t := by
  have hs : step s = .next t := by
    simp only [step, systemStep, hr, h, if_false, hostStep, hq]
    simpa [hr] using ha
  simp [drive, atRest, hq, hs, hr]

theorem drive_step {s t : State} {fuel : Nat} (hb : s.phase = .busy) (hr : s.resetIn = none) (h : blockStep s = .next t) :
    drive (fuel + 1) s = drive fuel t := by
  simp [drive, atRest, hb, step_running hr hb, h, hr]

end Sys2Proof.Machine
end

