-- ==== Sys2Proof/Laws/Codec.lean ====
section
/-! SUPPORT. What the host codec's operations can answer: an append of the host (R262, R264), the sizing constructor (R268), the
report of a command (R336), the host's actions, and a reset that lands on the way (R332). -/

namespace Sys2Proof.Machine

open Sys2Proof.Safety

/-! ### Answers -/

@[simp] theorem CodecResult.bind_value {α β : Type} (a : α) (s : State) (f : α → State → CodecResult β) :
    (CodecResult.value a s).bind f = f a s := rfl
@[simp] theorem CodecResult.bind_error {α β : Type} (k : ErrorKind) (e : ErrWord) (s : State)
    (f : α → State → CodecResult β) : (CodecResult.error k e s).bind f = .error k e s := rfl
@[simp] theorem CodecResult.bind_abandoned {α β : Type} (s : State) (f : α → State → CodecResult β) :
    (CodecResult.abandoned s).bind f = .abandoned s := rfl

/-- A call reports a value only of a command that is `DONE` (R336). -/
theorem report_value {α : Type} {f : State → α} {o : Host.Outcome State Fault Refusal} {a : α} {t : State}
    (h : report f o = .value a t) : o = .next t ∧ t.phase = .done ∧ a = f t := by
  unfold report at h
  split at h
  · split at h <;> cases h
    exact ⟨rfl, ‹_›, rfl⟩
  · cases h
  · cases h

theorem report_done {α : Type} {f : State → α} {t : State} (h : t.phase = .done) : report f (.next t) = .value (f t) t := by
  simp only [report, h]

/-- A command that the platform's reset has taken away reports nothing (R332). -/
theorem report_idle {α : Type} {f : State → α} {t : State} (h : t.phase = .idle) : report f (.next t) = .abandoned t := by
  simp only [report, h]

/-! ### The host's own writes and the Image -/

theorem hostAppend_ok {b : List Byte} {s : State} (h : roomFor b.length s) :
    hostAppend b s = .value () { s with outBytes := s.outBytes ++ b, outRoom := roomAfter b.length s } := by
  unfold hostAppend roomAfter
  cases ho : s.outRoom with
  | none => rfl
  | some r => simp [h r ho]

/-- A write of the host that its sink cannot take fails with the sink's word; some prefix of it is in OUT (N11; log 25). -/
theorem hostAppend_full {b : List Byte} {s : State} {room : Nat} {e : ErrWord} (hr : s.outRoom = some (room, e))
    (h : room < b.length) : ∃ n, n ≤ b.length ∧
      hostAppend b s =
        .error .streamError e { s with outBytes := s.outBytes ++ b.take n, freeCount := s.freeCount + 1 } := by
  refine ⟨(Config.freeBits 32 .outTaken s.freeCount).toNat % (b.length + 1),
    Nat.le_of_lt_succ (Nat.mod_lt _ (Nat.succ_pos _)), ?_⟩
  simp only [hostAppend, hr, if_neg (Nat.not_le.2 h), appendSome]

theorem sizeImage_ok {w h : Nat} (hw : w ≠ 0) (hh : h ≠ 0) (s : State) :
    sizeImage true w h s = .value ⟨w, h, List.replicate (Config.canonBpp * (w * h)) 0#8⟩ s := by
  simp [sizeImage, hw, hh]

/-- An Image that the constructor makes keeps the Image invariant (R268). -/
theorem sizeImage_imageOk {a : Bool} {w h : Nat} {s t : State} {i : Image} (hv : sizeImage a w h s = .value i t) :
    imageOk i = true ∧ i.width = w ∧ i.height = h ∧ t = s := by
  unfold sizeImage at hv
  split at hv
  · cases hv
  · rename_i h0
    split at hv <;> cases hv
    simp only [not_or] at h0
    refine ⟨?_, rfl, rfl, rfl⟩
    simp [imageOk, Nat.pos_of_ne_zero h0.1, Nat.pos_of_ne_zero h0.2]

/-- An encode call while `BUSY` is refused, whatever the sink (R47, R340; log 10). -/
theorem encodeImage_busy {i : Image} {compress : Bool} {room : Option (Nat × ErrWord)} {s : State} (hi : imageOk i = true)
    (hf : imageFits i = true) (hb : s.phase = .busy) :
    encodeImage i compress room s = .refused .hostAccessWhileBusy := by
  simp [encodeImage, hi, hf, hb]

/-! ### Driving the block -/

/-- What the host's actions other than a command and a byte store leave (R38, R61, R64, R252). -/
theorem hostAct_eq {s : State} (hb : s.phase ≠ .busy) (a : HostAction) :
    hostAct a s =
      match a with
      | .writeCmd v => writeCommand v s
      | .writeWidth v => .next { s with width := v }
      | .writeHeight v => .next { s with height := v }
      | .writeDepth v => .next { s with depth := v }
      | .writeReadOnly _ _ => .next s
      | .presentIn bytes ending => .next { s with inBytes := bytes, inEnd := ending }
      | .presentOut bytes room => .next { s with outBytes := bytes, outRoom := room }
      | .allocPix => .next { s with pix := [] }
      | .loadPix bytes => .next { s with pix := Memory.store [] 0 bytes }
      | .storePix addr v =>
        if addr < Config.pixSpace then .next { s with pix := Memory.set s.pix addr v } else .fault .pixOutOfBounds := by
  cases a <;> exact if_neg hb

/-- A reset that is due ends the drive: the block is idle and the host's plans are gone (log 27). -/
theorem drive_reset {s : State} {fuel : Nat} (hr : s.resetIn = some 0) (ha : atRest s = false) :
    drive (fuel + 1) s = .next { platformReset s with hostQueue := [] } := by
  have hs : step s = .next (platformReset s) := by simp [step, systemStep, hr]
  simp [drive, ha, hs, hr]

/-- A codec call in which a reset is due before the block is at rest is abandoned (R332). -/
theorem report_drive_reset {α : Type} {f : State → α} {s : State} {fuel : Nat} (hr : s.resetIn = some 0)
    (ha : atRest s = false) : ∃ t, report f (drive (fuel + 1) s) = .abandoned t := by
  rw [drive_reset hr ha]
  exact ⟨_, report_idle rfl⟩

end Sys2Proof.Machine
end

