-- ==== Sys2Proof/Laws/PerInstr.lean ====
section
/-! SUPPORT. Statements made for every constructor of Instr, one lemma each. -/

namespace Sys2Proof.Laws.TableRow

/-- A well-formed instruction is encoded in one byte, which matches its row of spec/opcode_table.json: the row's place, and
its pattern under its mask. -/
def Statement (i : Instr) : Prop :=
  i.wellFormed = true → ∃ b, encode i = [b] ∧ i.row.covers b = true ∧ i.row.place = i.place

theorem raw (n : Nat) : Statement (.raw n) := by
  intro h
  have := (packetHeader_fields h).1
  refine ⟨_, rfl, ?_, rfl⟩
  have hf := (header_fields (packetHeader 0#1 n)).2.1.1 this
  simpa [Instr.row, Row.covers] using hf

theorem rpt (n : Nat) : Statement (.rpt n) := by
  intro h
  have := (packetHeader_fields h).2.1
  refine ⟨_, rfl, ?_, rfl⟩
  have hf := (header_fields (packetHeader 1#1 n)).1.1 this
  simpa [Instr.row, Row.covers] using hf

theorem clr : Statement .clr := fun _ => ⟨_, rfl, by decide, rfl⟩
theorem decDirect : Statement .decDirect := fun _ => ⟨_, rfl, by decide, rfl⟩
theorem decRle : Statement .decRle := fun _ => ⟨_, rfl, by decide, rfl⟩
theorem encDirect : Statement .encDirect := fun _ => ⟨_, rfl, by decide, rfl⟩
theorem encRle : Statement .encRle := fun _ => ⟨_, rfl, by decide, rfl⟩
theorem toRgba16 : Statement .toRgba16 := fun _ => ⟨_, rfl, by decide, rfl⟩
theorem toRgba24 : Statement .toRgba24 := fun _ => ⟨_, rfl, by decide, rfl⟩
theorem toRgba32 : Statement .toRgba32 := fun _ => ⟨_, rfl, by decide, rfl⟩
theorem fromRgba24 : Statement .fromRgba24 := fun _ => ⟨_, rfl, by decide, rfl⟩
theorem fromRgba32 : Statement .fromRgba32 := fun _ => ⟨_, rfl, by decide, rfl⟩

end Sys2Proof.Laws.TableRow
end

