-- ==== Sys2Proof/Tests/Slice0.lean ====
section
/-! SUPPORT. Tests: ill-formed terms that WellFormed refuses, words written out from the spec's encodings, one step of each
instruction on the vectors of spec/95_test_vectors.md, and for every obligation with hypotheses a witness that meets them. -/

namespace Sys2Proof.Tests

open Sys2Proof Sys2Proof.Machine Sys2Proof.Safety

/-! ### Helpers -/

/-- The state that an outcome holds, or the reset state. -/
def after : Host.Outcome State Fault Refusal → State
  | .next s => s
  | .fault _ => State.reset
  | .refused _ => State.reset

/-- Is an outcome a next state? -/
def goes : Host.Outcome State Fault Refusal → Bool
  | .next _ => true
  | .fault _ => false
  | .refused _ => false

/-- Is an outcome this refusal? -/
def refuses (r : Refusal) : Host.Outcome State Fault Refusal → Bool
  | .next _ => false
  | .fault _ => false
  | .refused q => decide (q = r)

/-- The value of a codec call. -/
def valueOf {α : Type} : CodecResult α → Option α
  | .value a _ => some a
  | .error _ _ _ => none
  | .abandoned _ => none
  | .fault _ => none
  | .refused _ => none

/-- The error of a codec call. -/
def errorOf {α : Type} : CodecResult α → Option (ErrorKind × ErrWord)
  | .value _ _ => none
  | .error k e _ => some (k, e)
  | .abandoned _ => none
  | .fault _ => none
  | .refused _ => none

/-- Was a codec call abandoned? -/
def gaveUp {α : Type} : CodecResult α → Bool
  | .value _ _ => false
  | .error _ _ _ => false
  | .abandoned _ => true
  | .fault _ => false
  | .refused _ => false

/-- An idle machine with dimensions, a depth and IN. -/
def idle (w h : BitVec 16) (d : Byte) (bytes : List Byte) : State :=
  { State.reset with width := w, height := h, depth := d, inBytes := bytes }

/-- A running command on such a machine. -/
def busy (op : BitVec 3) (w h : BitVec 16) (d : Byte) (bytes : List Byte) : State :=
  { idle w h d bytes with phase := .busy, op := op }

/-- The same with a PIX. -/
def withPix (bytes : List Byte) (s : State) : State := { s with pix := Memory.store [] 0 bytes }

/-- The short pixels `a`, `b` of spec/95_test_vectors.md. -/
def pixA : List Byte := [0x01#8, 0x02#8, 0x03#8, 0xff#8]
def pixB : List Byte := [0x04#8, 0x05#8, 0x06#8, 0xff#8]

/-- A working register `s`. -/
def source (a b c d : Byte) : State := { State.reset with work := { Working.reset with s := ⟨a, b, c, d⟩ } }

/-- A working register `p`. -/
def target (r g b a : Byte) : State := { State.reset with work := { Working.reset with p := ⟨r, g, b, a⟩ } }

/-! ### WellFormed: each check refuses an ill-formed term (R93) -/

theorem smoke_raw_zero : (Instr.raw 0).wellFormed = false := by decide
theorem smoke_raw_long : (Instr.raw 129).wellFormed = false := by decide
theorem smoke_rpt_zero : (Instr.rpt 0).wellFormed = false := by decide
theorem smoke_rpt_long : (Instr.rpt 129).wellFormed = false := by decide
theorem smoke_bounds_accepted : ((Instr.raw 1).wellFormed && (Instr.raw 128).wellFormed && (Instr.rpt 1).wellFormed
    && (Instr.rpt 128).wellFormed) = true := by decide

/-! ### Words written out from the encodings (R92, R93, R100, R107; spec/95 section 3.1) -/

theorem word_raw_1 : decode .packet [0b00000000#8] = .ok (.raw 1, []) := by decide
theorem word_raw_128 : decode .packet [0b01111111#8] = .ok (.raw 128, []) := by decide
theorem word_rpt_1 : decode .packet [0b10000000#8] = .ok (.rpt 1, []) := by decide
theorem word_rpt_4 : decode .packet [0b10000011#8] = .ok (.rpt 4, []) := by decide
theorem word_rpt_128 : decode .packet [0b11111111#8] = .ok (.rpt 128, []) := by decide
theorem word_clr : decode .command [0b00000000#8] = .ok (.clr, []) := by decide
theorem word_decDirect : decode .command [0b00000001#8] = .ok (.decDirect, []) := by decide
theorem word_decRle : decode .command [0b00000010#8] = .ok (.decRle, []) := by decide
theorem word_encDirect : decode .command [0b00000011#8] = .ok (.encDirect, []) := by decide
theorem word_encRle : decode .command [0b00000100#8] = .ok (.encRle, []) := by decide
theorem word_reserved : decode .command [0b00000111#8] = .error (.reservedCommand 7#3) := by decide
theorem word_high_bits_ignored : decode .command [0b11111010#8] = .ok (.decRle, []) := by decide
theorem word_toRgba16 : decode .forward [16#8] = .ok (.toRgba16, []) := by decide
theorem word_toRgba24 : decode .forward [24#8] = .ok (.toRgba24, []) := by decide
theorem word_toRgba32 : decode .forward [32#8] = .ok (.toRgba32, []) := by decide
theorem word_fromRgba24 : decode .reverse [24#8] = .ok (.fromRgba24, []) := by decide
theorem word_fromRgba32 : decode .reverse [32#8] = .ok (.fromRgba32, []) := by decide
theorem word_no_reverse_16 : decode .reverse [16#8] = .error (.noFormat 16#8) := by decide
theorem word_packet_length : packetLength 3 0x7f#8 = 385 ∧ packetLength 2 0x01#8 = 5 ∧ packetLength 4 0xff#8 = 5 := by decide

/-! ### One step on the vectors -/

theorem test_toRgba16_mixed : (after (exec .toRgba16 (source 0x34#8 0x12#8 0 0))).work.p = ⟨0x20#8, 0x88#8, 0xa0#8, 0x00#8⟩ := by
  decide
theorem test_toRgba16_alpha : (after (exec .toRgba16 (source 0xcd#8 0xab#8 0 0))).work.p = ⟨0x50#8, 0xf0#8, 0x68#8, 0x80#8⟩ := by
  decide
theorem test_toRgba24 : (after (exec .toRgba24 (source 0x10#8 0x20#8 0x30#8 0))).work.p = ⟨0x30#8, 0x20#8, 0x10#8, 0xff#8⟩ := by
  decide
theorem test_toRgba32 : (after (exec .toRgba32 (source 0xaa#8 0xbb#8 0xcc#8 0))).work.p = ⟨0xcc#8, 0xbb#8, 0xaa#8, 0x00#8⟩ := by
  decide
theorem test_fromRgba24 : (after (exec .fromRgba24 (target 0x30#8 0x20#8 0x10#8 0))).target = [0x10#8, 0x20#8, 0x30#8] := by decide
theorem test_fromRgba32 : (after (exec .fromRgba32 (target 0x33#8 0x22#8 0x11#8 0x44#8))).target
    = [0x11#8, 0x22#8, 0x33#8, 0x44#8] := by decide

/-- Vector P1: the repeat packet alone, its header fetched. -/
theorem test_rpt_p1 : Memory.load (after (exec (.rpt 4) (busy 2 2 2 24 [1, 2, 3]))).pix 0 8
    = [0x03#8, 0x02#8, 0x01#8, 0xff#8, 0x03#8, 0x02#8, 0x01#8, 0xff#8] := by decide

/-- Vector F4: a run of 5 at 4 slots; nothing is read. -/
theorem test_rpt_f4 : (after (exec (.rpt 5) (busy 2 2 2 24 [1, 2, 3]))).errCode = 6#4
    ∧ (after (exec (.rpt 5) (busy 2 2 2 24 [1, 2, 3]))).inBytes = [1, 2, 3] := by decide

/-- The raw packet of vector P3. -/
theorem test_raw_p3 : Memory.load (after (exec (.raw 2) (busy 2 4 1 16 [0x1f, 0x00, 0x00, 0x80]))).pix 0 8
    = [0x00#8, 0x00#8, 0xf8#8, 0x00#8, 0x00#8, 0x00#8, 0x00#8, 0x80#8] := by decide

/-- Vector F3, scaled to two pixels: the second pixel is cut short. -/
theorem test_raw_short : (after (exec (.raw 2) (busy 2 2 1 24 [1, 2, 3, 4, 5]))).errCode = 4#4 := by decide

/-- Vector P1 as a step of the command. -/
theorem test_decRle_p1 : (after (step (busy 2 2 2 24 [0x83, 1, 2, 3]))).phase = .done
    ∧ (after (step (busy 2 2 2 24 [0x83, 1, 2, 3]))).pixIdx = 4#32 ∧ (after (step (busy 2 2 2 24 [0x83, 1, 2, 3]))).iPos = 4#64 := by
  decide

/-- Vector F1's first step does not finish. -/
theorem test_decRle_f1 : (after (step (busy 2 2 2 24 [0x81, 1, 2, 3]))).phase = .busy
    ∧ (after (step (busy 2 2 2 24 [0x81, 1, 2, 3]))).pixIdx = 2#32 := by decide

/-- Vector T1. -/
theorem test_decDirect_t1 : (after (step (busy 1 1 1 24 [0x10, 0x20, 0x30]))).slot 0 = ⟨0x30#8, 0x20#8, 0x10#8, 0xff#8⟩
    ∧ (after (step (busy 1 1 1 24 [0x10, 0x20, 0x30]))).phase = .done := by decide

/-- Vector S-7: the block itself rejects depth 8. -/
theorem test_decDirect_depth : (after (exec .decDirect (idle 1 1 8 []))).errCode = 2#4
    ∧ (after (exec .decDirect (idle 1 1 8 []))).iPos = 0#64 := by decide

/-- Vector X1. -/
theorem test_encDirect_x1 : (after (step (withPix [0x30, 0x20, 0x10, 0xff] (busy 3 1 1 24 [])))).outBytes
    = [0x10#8, 0x20#8, 0x30#8] := by decide

/-- Vector X4: no 16-bit output. -/
theorem test_encDirect_x4 : (after (exec .encDirect (idle 1 1 16 []))).errCode = 2#4 := by decide

/-- Vector E5's first step: a raw packet of one pixel, ended by the run behind it. -/
theorem test_encRle_e5 : (after (step (withPix (pixA ++ pixB ++ pixB) (busy 4 3 1 24 [])))).outBytes
    = [0x00#8, 0x03#8, 0x02#8, 0x01#8] := by decide

/-- Vector E3b's first step: the cap is the width. -/
theorem test_encRle_e3b : (after (step (withPix (pixA ++ pixA ++ pixA ++ pixA) (busy 4 2 2 24 [])))).outBytes
    = [0x81#8, 0x03#8, 0x02#8, 0x01#8] := by decide

/-- Program 3: `CLR` leaves phase `FAILED` and clears the dimensions. -/
theorem test_clr : (after (exec .clr { busy 2 2 2 24 [] with phase := .failed, errCode := 6 })).phase = .idle
    ∧ (after (exec .clr { busy 2 2 2 24 [] with phase := .failed, errCode := 6 })).width = 0#16 := by decide

/-- Program 3: another command is ignored in phase `FAILED`. -/
theorem test_failed_ignores : (after (hostAct (.writeCmd 2) { idle 2 2 24 [] with phase := .failed, errCode := 6 })).errCode = 6#4 := by
  decide

theorem test_reserved_code : (after (hostAct (.writeCmd 5) (idle 2 2 24 []))).errCode = 7#4 := by decide
theorem test_status_word : readReg .status { idle 2 2 24 [] with phase := .failed } = 4#64 := by decide
theorem test_host_busy : refuses .hostAccessWhileBusy (hostAct (.writeWidth 1) (busy 2 2 2 24 [])) = true := by decide

/-- Vectors S-4 and S-11 on one pixel: the file of scenario A decodes, and its image encodes to that file and the footer. -/
def fileA : List Byte :=
  [0x00, 0x00, 0x02, 0x00, 0x00, 0x00, 0x00, 0x00, 0x00, 0x00, 0x00, 0x00, 0x01, 0x00, 0x01, 0x00, 0x18, 0x00, 0x10, 0x20, 0x30]

def imageA : Image := ⟨1, 1, [0x30, 0x20, 0x10, 0xff]⟩

theorem test_decode_scenario_a : valueOf (decodeImage true fileA none State.reset) = some imageA := by decide
theorem test_encode_scenario_a : valueOf (encodeImage imageA false none State.reset) = some (fileA ++ footer) := by decide

/-- A sink that holds the whole file, and one that is one byte short: the footer's write fails. -/
theorem test_encode_bounded_sink : valueOf (encodeImage imageA false (some (47, 7)) State.reset) = some (fileA ++ footer)
    ∧ errorOf (encodeImage imageA false (some (46, 7)) State.reset) = some (.streamError, 7)
    ∧ errorOf (encodeImage imageA false (some (17, 7)) State.reset) = some (.streamError, 7) := by decide

/-- R332, R336: a reset that lands while the command runs, or before it starts, abandons the call. -/
theorem test_reset_abandons : gaveUp (decodeImage true fileA none { State.reset with resetIn := some 6 }) = true
    ∧ gaveUp (encodeImage imageA false none { State.reset with resetIn := some 6 }) = true
    ∧ gaveUp (decodeImage true fileA none { State.reset with resetIn := some 4 }) = true
    ∧ valueOf (decodeImage true fileA none { State.reset with resetIn := some 7 }) = some imageA := by decide

/-- A codec call while `BUSY` is refused; `fileA` with image type 0 would otherwise replace PIX. -/
def refusedBusy {α : Type} : CodecResult α → Bool
  | .value _ _ => false
  | .error _ _ _ => false
  | .abandoned _ => false
  | .fault _ => false
  | .refused r => decide (r = .hostAccessWhileBusy)

theorem test_codec_busy : refusedBusy (decodeImage true (fileA.set 2 0) none (busy 2 2 2 24 [])) = true
    ∧ refusedBusy (decodeImage true (fileA.set 2 1) none (busy 2 2 2 24 [])) = true
    ∧ refusedBusy (encodeImage imageA false (some (0, 7)) (busy 4 2 2 24 [])) = true := by decide

/-- The sizing constructor (R268, R299). -/
theorem test_sizeImage : valueOf (sizeImage true 1 2 State.reset) = some ⟨1, 2, [0, 0, 0, 0, 0, 0, 0, 0]⟩
    ∧ errorOf (sizeImage false 1 2 State.reset) = some (.allocationFailure, 0)
    ∧ valueOf (sizeImage true 0 2 State.reset) = none := by decide

/-- The table's words run as the first instruction after reset. -/
theorem test_fetch_packet : decodeTableWord 8 0x83 = some (.rpt 4)
    ∧ (after (step (State.reset.withFetchWord 8 0x83))).pixIdx = 4#32 := by decide
theorem test_fetch_command : decodeTableWord 8 0x02 = some .decRle
    ∧ (after (step (State.reset.withFetchWord 8 0x02))).errCode = 2#4 := by decide
theorem test_fetch_format : decodeTableWord 8 0x18 = some .toRgba24
    ∧ (after (step (State.reset.withFetchWord 8 0x18))).slot 0 = ⟨0, 0, 0, 0xff⟩ := by decide

/-! ### Witnesses: states and operands that meet the hypotheses of each obligation -/

/-- Four slots left of a 2×2 image at 24 bits, a whole packet's payload in IN. -/
def wPacket : State := busy 2 2 2 24 [1, 2, 3, 4, 5, 6, 7, 8, 9, 10, 11, 12]

/-- The last slot of the largest 16-bit row is left. -/
def wLast : State := { busy 2 65535 1 16 [0x1f, 0x00] with pixIdx := 65534 }

/-- A running encode of `a a b`, at the start and at the isolated pixel. -/
def wEncode : State := withPix (pixA ++ pixA ++ pixB) (busy 4 3 1 24 [])
def wEncodeLast : State := { wEncode with pixIdx := 2 }

/-- The same image before the command, with room for everything. -/
def wReady : State := withPix (pixA ++ pixA ++ pixB) (idle 3 1 24 [])

/-- A one-column image before the command. -/
def wColumn : State := withPix (pixA ++ pixA) (idle 1 2 32 [])

theorem witness_DecodeInvertsEncode : (Instr.raw 1).wellFormed = true ∧ (Instr.rpt 128).wellFormed = true
    ∧ Instr.clr.wellFormed = true ∧ Instr.fromRgba32.wellFormed = true := by decide

theorem witness_EveryHeaderByteIsAPacket : (0xff#8 &&& 0x80#8 = 0x80#8) ∧ (0x80#8 &&& 0x80#8 = 0x80#8)
    ∧ (0x00#8 &&& 0x80#8 = 0x00#8) ∧ (0x7f#8 &&& 0x80#8 = 0x00#8) := by decide

theorem witness_CommandCodesDecode : BitVec.extractLsb' 0 3 0xf8#8 = 0#3 ∧ BitVec.extractLsb' 0 3 0x01#8 = 1#3
    ∧ BitVec.extractLsb' 0 3 0x02#8 = 2#3 ∧ BitVec.extractLsb' 0 3 0x03#8 = 3#3 ∧ BitVec.extractLsb' 0 3 0xfc#8 = 4#3
    ∧ 5 ≤ (BitVec.extractLsb' 0 3 0x05#8).toNat ∧ 5 ≤ (BitVec.extractLsb' 0 3 0xff#8).toNat := by decide

theorem witness_PacketLengthFollowsHeader : (Packet.rpt 128 [1, 2, 3]).ok 3 = true ∧ (Packet.raw [[1, 2], [3, 4]]).ok 2 = true
    ∧ (Packet.rpt 128 [1, 2, 3]).bytes = 0xff#8 :: [1, 2, 3] ∧ (Packet.raw [[1, 2], [3, 4]]).bytes = 0x01#8 :: [1, 2, 3, 4] := by
  decide

theorem witness_ConverterInverses : fromRgba 4 ⟨1, 2, 3, 4⟩ = some [3, 2, 1, 4] ∧ fromRgba 3 ⟨1, 2, 3, 4⟩ = some [3, 2, 1]
    ∧ toRgba 3 ⟨1, 2, 3, 4⟩ = some ⟨3, 2, 1, 0xff⟩ ∧ toRgba 4 ⟨1, 2, 3, 4⟩ = some ⟨3, 2, 1, 4⟩ := by decide

theorem witness_ConverterImages : (0xf8#8 &&& 7#8 = 0#8) ∧ (0x08#8 &&& 7#8 = 0#8) ∧ (0x00#8 &&& 7#8 = 0#8)
    ∧ rgbaOf16 0xff 0xff = rgbaOf16 0xff 0xff ∧ rgbaOf24 1 2 3 = rgbaOf24 1 2 3 ∧ rgbaOf32 1 2 3 4 = ⟨3, 2, 1, 4⟩ := by decide

theorem witness_DepthSelectsConversion : decode .forward [(idle 1 1 16 []).depth] = .ok (.toRgba16, [])
    ∧ decode .forward [(idle 1 1 32 []).depth] = .ok (.toRgba32, [])
    ∧ decode .reverse [(idle 1 1 24 []).depth] = .ok (.fromRgba24, [])
    ∧ decode .reverse [(idle 1 1 32 []).depth] = .ok (.fromRgba32, []) := by decide

theorem witness_PixWriteThenRead : Memory.wf wPacket.pix ∧ 0 < wPacket.pixels ∧ 3 < wPacket.pixels := by decide

theorem witness_RptWritesRun : runLengthOk 4 = true ∧ wPacket.depth ∈ Config.srcDepths ∧ Memory.wf wPacket.pix
    ∧ 4 ≤ wPacket.slotsLeft ∧ [1#8, 2#8, 3#8].length = wPacket.bpp
    ∧ wPacket.inBytes = [1, 2, 3] ++ [4, 5, 6, 7, 8, 9, 10, 11, 12] := by decide

theorem witness_RptWritesRun_last : runLengthOk 1 = true ∧ wLast.depth ∈ Config.srcDepths ∧ Memory.wf wLast.pix
    ∧ 1 ≤ wLast.slotsLeft ∧ [0x1f#8, 0x00#8].length = wLast.bpp ∧ wLast.inBytes = [0x1f, 0x00] ++ [] := by decide

theorem witness_RawWritesPixels : runLengthOk [[1#8, 2, 3], [4, 5, 6], [7, 8, 9], [10, 11, 12]].length = true
    ∧ wPacket.depth ∈ Config.srcDepths ∧ Memory.wf wPacket.pix
    ∧ [[1#8, 2, 3], [4, 5, 6], [7, 8, 9], [10, 11, 12]].length ≤ wPacket.slotsLeft
    ∧ (∀ px ∈ [[1#8, 2, 3], [4, 5, 6], [7, 8, 9], [10, 11, 12]], px.length = wPacket.bpp)
    ∧ wPacket.inBytes = [[1#8, 2, 3], [4, 5, 6], [7, 8, 9], [10, 11, 12]].flatten ++ [] := by decide

theorem witness_OverrunRaises : Memory.wf wPacket.pix ∧ wPacket.slotsLeft < 5 ∧ Memory.wf wLast.pix ∧ wLast.slotsLeft < 2 := by
  decide

theorem witness_ShortPayloadRaises : Memory.wf wPacket.pix ∧ wPacket.depth ∈ Config.srcDepths ∧ runLengthOk 4 = true
    ∧ 4 ≤ wPacket.slotsLeft ∧ (idle 2 2 24 [1, 2]).inBytes.length < (idle 2 2 24 [1, 2]).bpp
    ∧ 4 ≤ (idle 2 2 24 [1, 2]).slotsLeft ∧ (idle 2 2 24 [1, 2]).inBytes.length < 4 * (idle 2 2 24 [1, 2]).bpp
    ∧ (idle 2 2 24 [1, 2]).depth ∈ Config.srcDepths ∧ Memory.wf (idle 2 2 24 [1, 2]).pix := by decide

theorem witness_RepeatActsAsRaw : runLengthOk 4 = true ∧ wPacket.depth ∈ Config.srcDepths ∧ 4 ≤ wPacket.slotsLeft
    ∧ [1#8, 2#8, 3#8].length = wPacket.bpp := by decide

theorem witness_TransferCommandStarts : (Instr.decRle, 2#3) ∈ transferCommands ∧ (Instr.encRle, 4#3) ∈ transferCommands
    ∧ (Instr.decDirect, 1#3) ∈ transferCommands ∧ (Instr.encDirect, 3#3) ∈ transferCommands
    ∧ ((idle 1 1 16 []).phase = .idle ∨ (idle 1 1 16 []).phase = .done)
    ∧ depthOk 1#3 (idle 1 1 16 []).depth = true ∧ depthOk 2#3 (idle 1 1 32 []).depth = true
    ∧ depthOk 3#3 (idle 1 1 24 []).depth = true ∧ depthOk 4#3 (idle 1 1 32 []).depth = true
    ∧ (idle 1 1 16 []).width ≠ 0 ∧ (idle 1 1 16 []).height ≠ 0 := by decide

theorem witness_UnsupportedDepthRaises : (Instr.decRle, 2#3) ∈ transferCommands ∧ (Instr.encRle, 4#3) ∈ transferCommands
    ∧ ((idle 1 1 17 []).phase = .idle ∨ (idle 1 1 17 []).phase = .done)
    ∧ ((2#3 = 1#3 ∨ 2#3 = 2#3) ∧ (idle 1 1 17 []).depth ≠ 16#8 ∧ (idle 1 1 17 []).depth ≠ 24#8
      ∧ (idle 1 1 17 []).depth ≠ 32#8)
    ∧ ((4#3 = 3#3 ∨ 4#3 = 4#3) ∧ (idle 1 1 16 []).depth ≠ 24#8 ∧ (idle 1 1 16 []).depth ≠ 32#8) := by decide

theorem witness_ReservedCodeRaises : ((idle 1 1 8 []).phase = .idle ∨ (idle 1 1 8 []).phase = .done)
    ∧ 5 ≤ (BitVec.extractLsb' 0 3 0x05#8).toNat ∧ 5 ≤ (BitVec.extractLsb' 0 3 0x0f#8).toNat := by decide

theorem witness_FailedIgnoresCommands : { idle 1 1 24 [] with phase := .failed }.phase = .failed
    ∧ BitVec.extractLsb' 0 3 0x01#8 ≠ 0#3 ∧ BitVec.extractLsb' 0 3 0x07#8 ≠ 0#3 := by decide

theorem witness_not_busy : (idle 1 1 24 []).phase ≠ .busy ∧ { idle 1 1 24 [] with phase := .failed }.phase ≠ .busy := by decide

theorem witness_ZeroDimensionRefused : (Instr.decRle, 2#3) ∈ transferCommands
    ∧ ((idle 0 1 24 []).phase = .idle ∨ (idle 0 1 24 []).phase = .done) ∧ depthOk 2#3 (idle 0 1 24 []).depth = true
    ∧ ((idle 0 1 24 []).width = 0 ∨ (idle 0 1 24 []).height = 0)
    ∧ ((idle 1 0 24 []).width = 0 ∨ (idle 1 0 24 []).height = 0) := by decide

theorem witness_DecDirectStep : { wPacket with op := 1 }.phase = .busy ∧ { wPacket with op := 1 }.op = 1#3
    ∧ wPacket.depth ∈ Config.srcDepths ∧ Memory.wf wPacket.pix ∧ wPacket.index < wPacket.pixels
    ∧ [1#8, 2#8, 3#8].length = wPacket.bpp ∧ wPacket.inBytes = [1, 2, 3] ++ [4, 5, 6, 7, 8, 9, 10, 11, 12] := by decide

theorem witness_roomFor (n : Nat) : roomFor n wEncode := by intro r h; cases h

theorem witness_EncDirectStep : { wEncode with op := 3 }.phase = .busy ∧ { wEncode with op := 3 }.op = 3#3
    ∧ wEncode.depth ∈ Config.dstDepths ∧ wEncode.index < wEncode.pixels ∧ roomFor wEncode.bpp { wEncode with op := 3 } :=
  ⟨by decide, by decide, by decide, by decide, witness_roomFor _⟩

theorem witness_DecRleStep : (busy 2 2 2 24 [0x83, 1, 2, 3, 9]).phase = .busy ∧ (busy 2 2 2 24 [0x83, 1, 2, 3, 9]).op = 2#3
    ∧ (busy 2 2 2 24 [0x83, 1, 2, 3, 9]).depth ∈ Config.srcDepths ∧ Memory.wf (busy 2 2 2 24 [0x83, 1, 2, 3, 9]).pix
    ∧ (Packet.rpt 4 [1, 2, 3]).ok (busy 2 2 2 24 [0x83, 1, 2, 3, 9]).bpp = true
    ∧ (Packet.rpt 4 [1, 2, 3]).run ≤ (busy 2 2 2 24 [0x83, 1, 2, 3, 9]).slotsLeft
    ∧ (busy 2 2 2 24 [0x83, 1, 2, 3, 9]).inBytes = (Packet.rpt 4 [1, 2, 3]).bytes ++ [9] := by decide

theorem witness_ShortStreamRaises : (busy 2 2 2 24 []).phase = .busy ∧ Memory.wf (busy 2 2 2 24 []).pix
    ∧ (busy 2 2 2 24 []).index < (busy 2 2 2 24 []).pixels ∧ (busy 2 2 2 24 []).op = 2#3 ∧ (busy 2 2 2 24 []).inBytes = []
    ∧ (busy 1 2 2 24 [1, 2]).phase = .busy ∧ Memory.wf (busy 1 2 2 24 [1, 2]).pix
    ∧ (busy 1 2 2 24 [1, 2]).index < (busy 1 2 2 24 [1, 2]).pixels ∧ (busy 1 2 2 24 [1, 2]).op = 1#3
    ∧ (busy 1 2 2 24 [1, 2]).inBytes.length < (busy 1 2 2 24 [1, 2]).bpp := by decide

theorem witness_EncRleRepeatStep : wEncode.phase = .busy ∧ wEncode.op = 4#3 ∧ wEncode.depth ∈ Config.dstDepths
    ∧ wEncode.index < wEncode.pixels ∧ roomFor (1 + wEncode.bpp) wEncode ∧ 2 ≤ localRun wEncode wEncode.index :=
  ⟨by decide, by decide, by decide, by decide, witness_roomFor _, by decide⟩

theorem witness_EncRleRawStep : wEncodeLast.phase = .busy ∧ wEncodeLast.op = 4#3 ∧ wEncodeLast.depth ∈ Config.dstDepths
    ∧ wEncodeLast.index < wEncodeLast.pixels
    ∧ roomFor (1 + rawCount wEncodeLast wEncodeLast.index * wEncodeLast.bpp) wEncodeLast
    ∧ localRun wEncodeLast wEncodeLast.index = 1 :=
  ⟨by decide, by decide, by decide, by decide, witness_roomFor _, by decide⟩

theorem witness_RunDetection : 0 < localRun wEncode 0 ∧ 2 < wEncode.pixels ∧ wEncode.pixels ≤ 3 := by decide

theorem witness_RawScan : 2 < wEncode.pixels ∧ localRun wEncode 2 = 1 := by decide

theorem witness_FullSinkRaises : { wEncode with op := 3, outRoom := some (2, 7) }.phase = .busy
    ∧ wEncode.depth ∈ Config.dstDepths ∧ wEncode.index < wEncode.pixels
    ∧ { wEncode with op := 3, outRoom := some (2, 7) }.outRoom = some (2, 7)
    ∧ { wEncode with op := 3, outRoom := some (2, 7) }.op = 3#3 ∧ 2 < wEncode.bpp
    ∧ wEncode.op = 4#3 ∧ { wEncode with outRoom := some (3, 7) }.outRoom = some (3, 7)
    ∧ 2 ≤ localRun wEncode wEncode.index ∧ 3 < 1 + wEncode.bpp := by decide

/-- Two isolated pixels: room for one of them is not room for the packet. -/
def wPair : State := withPix (pixA ++ pixB) (busy 4 2 1 24 [])

theorem witness_FullSinkRaises_raw : { wPair with outRoom := some (6, 7) }.phase = .busy ∧ wPair.op = 4#3
    ∧ wPair.depth ∈ Config.dstDepths ∧ wPair.index < wPair.pixels ∧ localRun wPair wPair.index = 1
    ∧ rawCount wPair wPair.index = 2 ∧ 1 + wPair.bpp ≤ 6 ∧ 6 < 1 + rawCount wPair wPair.index * wPair.bpp := by decide

/-- The states of vectors P1, T1 and the encodes are ready. -/
theorem witness_ReadyFor_decRle : ReadyFor 2#3 (idle 2 2 24 [0x83, 1, 2, 3]) :=
  ⟨.inl rfl, rfl, by decide, by decide, by decide, by decide⟩

theorem witness_DecodeExpandsPackets : ReadyFor 2#3 (idle 2 2 24 [0x83, 1, 2, 3])
    ∧ (∀ p ∈ [Packet.rpt 4 [1, 2, 3]], p.ok (idle 2 2 24 [0x83, 1, 2, 3]).bpp = true)
    ∧ streamRun [Packet.rpt 4 [1, 2, 3]] = (idle 2 2 24 [0x83, 1, 2, 3]).pixels
    ∧ (idle 2 2 24 [0x83, 1, 2, 3]).inBytes = streamBytes [Packet.rpt 4 [1, 2, 3]] ++ [] :=
  ⟨witness_ReadyFor_decRle, by decide, by decide, by decide⟩

theorem witness_CrossingPacketOverruns : ReadyFor 2#3 (idle 2 2 24 [0x81, 1, 2, 3, 0x02])
    ∧ (∀ p ∈ [Packet.rpt 2 [1, 2, 3]], p.ok (idle 2 2 24 [0x81, 1, 2, 3, 0x02]).bpp = true)
    ∧ streamRun [Packet.rpt 2 [1, 2, 3]] < (idle 2 2 24 [0x81, 1, 2, 3, 0x02]).pixels
    ∧ (∃ n, (Instr.raw 3 = .rpt n ∨ Instr.raw 3 = .raw n) ∧ runLengthOk n = true
      ∧ (idle 2 2 24 [0x81, 1, 2, 3, 0x02]).pixels < streamRun [Packet.rpt 2 [1, 2, 3]] + n)
    ∧ (idle 2 2 24 [0x81, 1, 2, 3, 0x02]).inBytes = streamBytes [Packet.rpt 2 [1, 2, 3]] ++ encode (.raw 3) ++ [] :=
  ⟨⟨.inl rfl, rfl, by decide, by decide, by decide, by decide⟩, by decide, by decide, ⟨3, .inr rfl, by decide, by decide⟩,
    by decide⟩

theorem witness_DirectDecodeFillsImage : ReadyFor 1#3 (idle 1 1 24 [0x10, 0x20, 0x30])
    ∧ (∀ px ∈ [[0x10#8, 0x20#8, 0x30#8]], px.length = (idle 1 1 24 [0x10, 0x20, 0x30]).bpp)
    ∧ [[0x10#8, 0x20#8, 0x30#8]].length = (idle 1 1 24 [0x10, 0x20, 0x30]).pixels
    ∧ (idle 1 1 24 [0x10, 0x20, 0x30]).inBytes = [[0x10#8, 0x20#8, 0x30#8]].flatten ++ [] :=
  ⟨⟨.inl rfl, rfl, by decide, by decide, by decide, by decide⟩, by decide, by decide, by decide⟩

/-- A sink whose room is given holds what is at most that. -/
theorem witness_roomHolds {n k : Nat} (e : ErrWord) (h : n ≤ k) : roomHolds n (some (k, e)) := by
  intro r hr
  cases hr
  exact h

/-- `wReady` before a sink with just the room that `ENC_DIRECT` needs. -/
def wReadyTight : State := { wReady with outRoom := some (9, 7) }

theorem witness_DirectEncodeWritesImage : ReadyFor 3#3 wReadyTight
    ∧ roomFor (wReadyTight.pixels * wReadyTight.bpp) wReadyTight :=
  ⟨⟨.inl rfl, rfl, by decide, by decide, by decide, by decide⟩, witness_roomHolds 7 (by decide)⟩

theorem witness_EncodeEmitsBoundedPackets : ReadyFor 4#3 wReady
    ∧ roomHolds (streamBytes [Packet.rpt 2 [3, 2, 1], .raw [[6, 5, 4]]]).length none
    ∧ roomHolds (streamBytes [Packet.rpt 2 [3, 2, 1], .raw [[6, 5, 4]]]).length (some (8, 7)) :=
  ⟨⟨.inl rfl, rfl, by decide, by decide, by decide, by decide⟩, (fun _ h => by cases h), witness_roomHolds 7 (by decide)⟩

/-- `wColumn` before a sink with just the room that `ENC_RLE` needs, and the state after the command. -/
def wColumnTight : State := { wColumn with outRoom := some (10, 7) }
def wColumnDone : State := after (runCommand wColumnTight.pixels (openCommand 4#3 wColumnTight))

theorem witness_WidthOneEncodesSingly : ReadyFor 4#3 wColumnTight
    ∧ roomFor (wColumnTight.pixels * (1 + wColumnTight.bpp)) wColumnTight ∧ wColumnTight.width = 1 :=
  ⟨⟨.inl rfl, rfl, by decide, by decide, by decide, by decide⟩, witness_roomHolds 7 (by decide), rfl⟩

theorem witness_EncodeSizeBounds : ReadyFor 4#3 wColumnTight ∧ RunsTo .encRle wColumnTight wColumnDone
    ∧ wColumnDone.phase = .done :=
  ⟨witness_WidthOneEncodesSingly.1, ⟨openCommand 4#3 wColumnTight, rfl, rfl, rfl, by decide⟩, by decide⟩

theorem witness_RleRoundTrip : ReadyFor 4#3 wReady ∧ roomHolds 8 (some (8, 7)) ∧ ReadyFor 2#3 (idle 3 1 24 [0x81, 3, 2, 1, 0x00, 6, 5, 4, 0])
    ∧ (idle 3 1 24 []).width = wReady.width ∧ (idle 3 1 24 []).height = wReady.height
    ∧ (idle 3 1 24 []).depth = wReady.depth
    ∧ (idle 3 1 24 [0x81, 3, 2, 1, 0x00, 6, 5, 4, 0]).inBytes
      = (after (runCommand wReady.pixels (openCommand 4#3 wReady))).outBytes ++ [0] :=
  ⟨witness_EncodeEmitsBoundedPackets.1, witness_roomHolds 7 (by decide), ⟨.inl rfl, rfl, by decide, by decide, by decide, by decide⟩, rfl, rfl, rfl, by decide⟩

theorem witness_DirectRoundTrip : ReadyFor 3#3 wReadyTight
    ∧ roomFor (wReadyTight.pixels * wReadyTight.bpp) wReadyTight ∧ ReadyFor 1#3 (idle 3 1 24 [3, 2, 1, 3, 2, 1, 6, 5, 4, 0])
    ∧ (idle 3 1 24 []).width = wReady.width ∧ (idle 3 1 24 []).height = wReady.height
    ∧ (idle 3 1 24 []).depth = wReady.depth
    ∧ (idle 3 1 24 [3, 2, 1, 3, 2, 1, 6, 5, 4, 0]).inBytes
      = (after (runCommand wReady.pixels (openCommand 3#3 wReady))).outBytes ++ [0] :=
  ⟨witness_DirectEncodeWritesImage.1, witness_DirectEncodeWritesImage.2, ⟨.inl rfl, rfl, by decide, by decide, by decide, by decide⟩, rfl, rfl, rfl, by decide⟩

/-- A running command in a state that meets the invariant, a failing one, and an idle one. -/
theorem witness_inv_busy : SystemInv wPacket ∧ SystemInv wEncode := ⟨⟨by decide, by decide, by decide, by decide⟩, by decide, by decide, by decide, by decide⟩

theorem witness_StepKeepsInvariant : SystemInv wPacket ∧ goes (step wPacket) = true ∧ goes (step State.reset) = true :=
  ⟨witness_inv_busy.1, by decide, by decide⟩

theorem witness_BusyStepsComplete : SystemInv wEncode ∧ wEncode.phase = .busy := ⟨witness_inv_busy.2, rfl⟩

/-- Every kind of phase change happens: a reset, `DONE`, `FAILED`, `CLR`, a start. -/
theorem witness_PhaseTransitions :
    (after (step { wEncode with resetIn := some 0 })).phase = .idle
    ∧ (after (step wEncodeLast)).phase = .done
    ∧ (after (step { wEncode with outRoom := some (0, 7) })).phase = .failed
    ∧ (after (step { wReady with phase := .failed, errCode := 6, hostQueue := [.writeCmd 0] })).phase = .idle
    ∧ (after (step { wReady with hostQueue := [.writeCmd 4] })).phase = .busy
    ∧ (after (step { wReady with hostQueue := [.writeCmd 5] })).phase = .failed := by decide

theorem witness_PositionsAdvance : SystemInv wEncode ∧ wEncode.phase = .busy ∧ wEncode.resetIn ≠ some 0
    ∧ goes (step wEncode) = true ∧ (after (step wEncode)).phase ≠ .failed :=
  ⟨witness_inv_busy.2, rfl, by decide, by decide, by decide⟩

/-- A failing step with a reset countdown running, and one with none. -/
theorem witness_FailureLeavesConfiguration : SystemInv { wEncode with outRoom := some (0, 7), resetIn := some 3 }
    ∧ { wEncode with outRoom := some (0, 7), resetIn := some 3 }.resetIn ≠ some 0
    ∧ (after (step { wEncode with outRoom := some (0, 7), resetIn := some 3 })).phase = .failed
    ∧ (after (step { wEncode with outRoom := some (0, 7), resetIn := some 3 })).resetIn = some 2
    ∧ SystemInv (busy 2 2 2 24 []) ∧ goes (step (busy 2 2 2 24 [])) = true ∧ (after (step (busy 2 2 2 24 []))).phase = .failed :=
  ⟨⟨by decide, by decide, by decide, by decide⟩, by decide, by decide, by decide,
    ⟨by decide, by decide, by decide, by decide⟩, by decide, by decide⟩

theorem witness_CommandsKeepOtherSpaces : SystemInv wPacket ∧ wPacket.op = 2#3 ∧ goes (step wPacket) = true
    ∧ SystemInv wEncode ∧ wEncode.op = 4#3 ∧ goes (step wEncode) = true :=
  ⟨witness_inv_busy.1, rfl, by decide, witness_inv_busy.2, rfl, by decide⟩

theorem witness_IdleDoesNothing : wReady.phase ≠ .busy ∧ wReady.hostQueue = [] ∧ wReady.resetIn = none := by decide

theorem witness_PlatformResetClears : Memory.wf { wPacket with resetIn := some 0 }.pix
    ∧ { wPacket with resetIn := some 0 }.resetIn = some 0 ∧ { wEncode with resetIn := some 0 }.op ≠ 1#3
    ∧ { wEncode with resetIn := some 0 }.op ≠ 2#3 ∧ { wReady with resetIn := some 0 }.phase ≠ .busy
    ∧ Memory.wf { wEncode with resetIn := some 0 }.pix := by decide

theorem witness_StepRunsWrittenCommand : { wReady with hostQueue := [.writeCmd 0x84#8] }.resetIn = none
    ∧ { wReady with hostQueue := [.writeCmd 0x84#8] }.phase ≠ .busy
    ∧ { wReady with hostQueue := [.writeCmd 0x84#8] }.hostQueue = .writeCmd 0x84#8 :: []
    ∧ decode .command [0x84#8] = .ok (.encRle, []) := by decide

theorem witness_StepRunsRunningCommand : (Instr.encRle, 4#3) ∈ transferCommands ∧ wEncode.resetIn = none
    ∧ wEncode.phase = .busy ∧ wEncode.op = 4#3 := by decide

theorem witness_StepRunsFetchedPacket : (busy 2 2 2 24 [0x83, 1, 2, 3]).resetIn = none
    ∧ (busy 2 2 2 24 [0x83, 1, 2, 3]).phase = .busy ∧ (busy 2 2 2 24 [0x83, 1, 2, 3]).op = 2#3
    ∧ (busy 2 2 2 24 [0x83, 1, 2, 3]).index < (busy 2 2 2 24 [0x83, 1, 2, 3]).pixels
    ∧ (busy 2 2 2 24 [0x83, 1, 2, 3]).inBytes = 0x83 :: [1, 2, 3]
    ∧ decode .packet [0x83#8, 1, 2, 3] = .ok (.rpt 4, [1, 2, 3]) := by decide

theorem witness_StepRunsSelectedConversion : (busy 1 1 1 16 [0x34, 0x12]).resetIn = none
    ∧ (busy 1 1 1 16 [0x34, 0x12]).phase = .busy ∧ (busy 1 1 1 16 [0x34, 0x12]).op = 1#3
    ∧ (busy 1 1 1 16 [0x34, 0x12]).index < (busy 1 1 1 16 [0x34, 0x12]).pixels
    ∧ (busy 1 1 1 16 [0x34, 0x12]).inBytes = [0x34, 0x12] ++ [] ∧ [0x34#8, 0x12#8].length = (busy 1 1 1 16 [0x34, 0x12]).bpp
    ∧ decode .forward [(busy 1 1 1 16 [0x34, 0x12]).depth] = .ok (.toRgba16, [])
    ∧ { wEncode with op := 3 }.resetIn = none ∧ { wEncode with op := 3 }.op = 3#3
    ∧ decode .reverse [{ wEncode with op := 3 }.depth] = .ok (.fromRgba24, []) := by decide

theorem witness_HeaderParsesLittleEndian : (fileA.take 18).length = 18 ∧ (fileA.take 17).length < 18 ∧ wordAt fileA 12 = 1 := by
  decide

theorem witness_DecoderChecksInOrder : [0#8].length < 18 ∧ (Header.mk 0 0 1 0 0 0 0 0 1 1 24 0).imageDepth ∈ Config.srcDepths
    ∧ skipCount (Header.mk 0 0 1 0 0 0 0 0 1 1 24 0) ≤ ([] : List Byte).length
    ∧ State.reset.phase ≠ .busy ∧ wPacket.phase = .busy
    ∧ (Header.mk 0 0 1 0 0 0 0 0 1 1 24 0).imageWidth ≠ 0 ∧ (Header.mk 0 0 1 0 0 0 0 0 1 1 24 0).imageHeight ≠ 0
    ∧ (Header.mk 0 0 1 0 0 0 0 0 1 1 24 0).imageType ≠ 0#8 ∧ (Header.mk 0 0 1 0 0 0 0 0 1 1 24 0).imageType ≠ 2#8
    ∧ (Header.mk 0 0 1 0 0 0 0 0 1 1 24 0).imageType ≠ 10#8
    ∧ (Header.mk 0 0 2 0 0 0 0 0 1 1 8 0).imageDepth ≠ 16#8 ∧ (Header.mk 0 0 2 0 0 0 0 0 1 1 8 0).imageDepth ≠ 24#8
    ∧ (Header.mk 0 0 2 0 0 0 0 0 1 1 8 0).imageDepth ≠ 32#8 := by decide

theorem witness_CodecRoundTrip : imageOk imageA = true ∧ imageFits imageA = true ∧ State.reset.phase ≠ .busy
    ∧ State.reset.resetIn = none ∧ (fileA ++ footer).length = 47 ∧ roomHolds 47 (some (47, 7)) :=
  ⟨by decide, by decide, by decide, by decide, by decide, witness_roomHolds 7 (by decide)⟩

/-- The read-out clauses of the reset statement meet each phase. -/
theorem witness_ResetValues : { wReady with phase := .failed }.phase ≠ .busy ∧ wEncode.phase = .busy
    ∧ readReg .status { wReady with phase := .done } = 0b010#64 ∧ readReg .status wEncode = 0b001#64 := by decide

end Sys2Proof.Tests
end

section
/-! SUPPORT. How the system moves: what a command start, a host write of `CMD`, a host action and a step of the system can
answer (R36, R38, R46, R330). The proofs about the state below cite these and never unfold a meaning. -/

namespace Sys2Proof.Machine

open Sys2Proof.Safety

/-! ### Command codes -/

/-- A command code is `CLR`'s, a transfer command's or a reserved one (R100). -/
theorem commandCode_cases (op : BitVec 3) :
    (op = 0#3 ∧ decodeOp op = .ok .clr) ∨ (op ≠ 0#3 ∧ ∃ i, (i, op) ∈ transferCommands ∧ decodeOp op = .ok i) ∨
      (op ≠ 0#3 ∧ ∃ e, decodeOp op = .error e) := by
  have hop : op = 0#3 ∨ op = 1#3 ∨ op = 2#3 ∨ op = 3#3 ∨ op = 4#3 ∨ op = 5#3 ∨ op = 6#3 ∨ op = 7#3 := by
    revert op; decide
  rcases hop with rfl | rfl | rfl | rfl | rfl | rfl | rfl | rfl
  · exact .inl ⟨rfl, rfl⟩
  · exact .inr (.inl ⟨by decide, .decDirect, by decide, rfl⟩)
  · exact .inr (.inl ⟨by decide, .decRle, by decide, rfl⟩)
  · exact .inr (.inl ⟨by decide, .encDirect, by decide, rfl⟩)
  · exact .inr (.inl ⟨by decide, .encRle, by decide, rfl⟩)
  · exact .inr (.inr ⟨by decide, _, rfl⟩)
  · exact .inr (.inr ⟨by decide, _, rfl⟩)
  · exact .inr (.inr ⟨by decide, _, rfl⟩)

/-- The codes from 5 on are the reserved ones (R46 step 4). -/
theorem reservedOp_iff (op : BitVec 3) : reservedOp op = true ↔ 5 ≤ op.toNat := by
  revert op; decide

/-- A code that is neither `CLR`'s nor reserved is a transfer command's (R100). -/
theorem transferCode_of_not_reserved : ∀ op : BitVec 3, op ≠ 0#3 → reservedOp op = false →
    op = 1#3 ∨ op = 2#3 ∨ op = 3#3 ∨ op = 4#3 := by decide

theorem reservedOp_of_transfer {i : Instr} {op : BitVec 3} (h : (i, op) ∈ transferCommands) : reservedOp op = false := by
  obtain ⟨-, -, ho⟩ := exec_transfer h State.reset
  rcases ho with rfl | rfl | rfl | rfl <;> rfl

/-- A lone byte decodes at a place as `decodeByte` reads it. -/
theorem decode_singleton {place : Place} {b : Byte} {i : Instr} (h : decode place [b] = .ok (i, [])) :
    decodeByte place b = .ok i := by
  simp only [decode] at h
  split at h <;> cases h
  assumption

/-! ### The start of a command -/

/-- At rest and not failed, the meaning of a transfer command is its start (R46). -/
theorem exec_start {i : Instr} {op : BitVec 3} {s : State} (hi : (i, op) ∈ transferCommands)
    (h : s.phase = .idle ∨ s.phase = .done) : exec i s = startCommand op s := by
  obtain ⟨body, he, -⟩ := exec_transfer hi s
  rw [he, transfer_start h]

/-- In phase `FAILED` a transfer command does nothing (R36). -/
theorem exec_failed {i : Instr} {op : BitVec 3} {s : State} (hi : (i, op) ∈ transferCommands) (h : s.phase = .failed) :
    exec i s = .next s := by
  obtain ⟨body, he, -⟩ := exec_transfer hi s
  simp only [he, transfer, h]

theorem startCommand_reserved {op : BitVec 3} (h : reservedOp op = true) (s : State) :
    startCommand op s = .next (latchError .illegalCommand 0 (openCommand op s)) := if_pos h

theorem startCommand_badDepth {op : BitVec 3} {s : State} (hr : reservedOp op = false) (hd : depthOk op s.depth = false) :
    startCommand op s = .next (latchError .unsupportedBitdepth 0 (openCommand op s)) := by
  simp [startCommand, hr, hd]

theorem startCommand_zeroDimension {op : BitVec 3} {s : State} (hr : reservedOp op = false)
    (hd : depthOk op s.depth = true) (hz : s.width = 0 ∨ s.height = 0) :
    startCommand op s = .refused .zeroDimension := by
  rw [startCommand, if_neg (by rw [hr]; decide), if_neg (by rw [hd]; decide), if_pos hz]

/-- A command start that answers a next state has failed with a kind the block raises, or the command runs (R46). -/
theorem startCommand_cases {op : BitVec 3} {s t : State} (h : startCommand op s = .next t) :
    (∃ k, k.raisedByBlock = true ∧ t = latchError k 0 (openCommand op s)) ∨
      (reservedOp op = false ∧ depthOk op s.depth = true ∧ s.width ≠ 0 ∧ s.height ≠ 0 ∧ t = openCommand op s) := by
  cases hr : reservedOp op with
  | true =>
    rw [startCommand_reserved hr] at h
    cases h
    exact .inl ⟨.illegalCommand, rfl, rfl⟩
  | false =>
    cases hd : depthOk op s.depth with
    | false =>
      rw [startCommand_badDepth hr hd] at h
      cases h
      exact .inl ⟨.unsupportedBitdepth, rfl, rfl⟩
    | true =>
      by_cases hz : s.width = 0 ∨ s.height = 0
      · rw [startCommand_zeroDimension hr hd hz] at h
        cases h
      · rw [startCommand, if_neg (by rw [hr]; decide), if_neg (by rw [hd]; decide), if_neg hz] at h
        cases h
        rw [not_or] at hz
        exact .inr ⟨rfl, rfl, hz.1, hz.2, rfl⟩

/-! ### The host's actions -/

theorem idle_or_done {s : State} (hb : s.phase ≠ .busy) (hf : s.phase ≠ .failed) : s.phase = .idle ∨ s.phase = .done := by
  cases hp : s.phase with
  | idle => exact .inl rfl
  | done => exact .inr rfl
  | busy => exact absurd hp hb
  | failed => exact absurd hp hf

/-- A host write of `CMD`: `CLR` clears, another code is ignored in phase `FAILED` and starts a command elsewhere (R36,
R46). -/
theorem writeCommand_eq {s : State} (hb : s.phase ≠ .busy) (v : BitVec 8) :
    writeCommand v s =
      if commandOp v = 0#3 then .next (clearRegisters s)
      else if s.phase = .failed then .next s else startCommand (commandOp v) s := by
  rcases commandCode_cases (commandOp v) with ⟨h0, hd⟩ | ⟨h0, i, hi, hd⟩ | ⟨h0, e, hd⟩
  · simp only [writeCommand, hd, if_pos h0]
    exact if_neg hb
  · simp only [writeCommand, hd, if_neg h0]
    split
    · exact exec_failed hi ‹_›
    · exact exec_start hi (idle_or_done hb ‹_›)
  · simp only [writeCommand, hd, if_neg h0]
    cases hp : s.phase with
    | busy => exact absurd hp hb
    | failed => rfl
    | idle => rfl
    | done => rfl

/-- The phase, `CMD.OP`, the error latch and the positions are the same. -/
def ControlKept (s t : State) : Prop :=
  t.phase = s.phase ∧ t.op = s.op ∧ t.errCode = s.errCode ∧ t.errInfo = s.errInfo ∧ t.pixIdx = s.pixIdx
    ∧ t.iPos = s.iPos ∧ t.oPos = s.oPos

theorem ControlKept.refl (s : State) : ControlKept s s := ⟨rfl, rfl, rfl, rfl, rfl, rfl, rfl⟩

/-- An action of the host is a write of `CMD`, or it leaves the phase, the latch and the positions and keeps PIX canonical
(R38). -/
theorem hostAct_cases {a : HostAction} {s t : State} (hb : s.phase ≠ .busy) (h : hostAct a s = .next t) :
    (∃ v, a = .writeCmd v ∧ writeCommand v s = .next t) ∨
      (ControlKept s t ∧ (Memory.wf s.pix → Memory.wf t.pix)) := by
  rw [hostAct_eq hb] at h
  cases a with
  | writeCmd v => exact .inl ⟨v, rfl, h⟩
  | allocPix => cases h; exact .inr ⟨.refl _, fun _ => Memory.wf_nil⟩
  | loadPix bytes => cases h; exact .inr ⟨.refl _, fun _ => Memory.store_wf Memory.wf_nil _ _⟩
  | storePix addr v =>
    simp only at h
    split at h <;> cases h
    exact .inr ⟨.refl _, fun hw => Memory.set_wf hw _ _⟩
  | writeWidth v => cases h; exact .inr ⟨.refl _, id⟩
  | writeHeight v => cases h; exact .inr ⟨.refl _, id⟩
  | writeDepth v => cases h; exact .inr ⟨.refl _, id⟩
  | writeReadOnly r v => cases h; exact .inr ⟨.refl _, id⟩
  | presentIn bytes ending => cases h; exact .inr ⟨.refl _, id⟩
  | presentOut bytes room => cases h; exact .inr ⟨.refl _, id⟩

/-- A step of the host is a write of `CMD`, or it leaves the phase, the latch and the positions and keeps PIX canonical. -/
theorem hostStep_cases {s t : State} (hb : s.phase ≠ .busy) (h : hostStep s = .next t) :
    (∃ v q, s.hostQueue = .writeCmd v :: q ∧ writeCommand v { s with hostQueue := q } = .next t) ∨
      (ControlKept s t ∧ (Memory.wf s.pix → Memory.wf t.pix)) := by
  rw [hostStep] at h
  split at h
  · cases h
    exact .inr ⟨.refl _, id⟩
  · rename_i a q hq
    rcases hostAct_cases (s := { s with hostQueue := q }) hb h with ⟨v, rfl, hv⟩ | hk
    · exact .inl ⟨v, q, hq, hv⟩
    · exact .inr hk

/-! ### The step of the system -/

/-- The platform's reset input one step later (R330; log 11). -/
def countDown (s : State) : State := { s with resetIn := s.resetIn.map (· - 1) }

/-- No reset is pending, so none comes nearer. -/
theorem countDown_of_none {s : State} (h : s.resetIn = none) : countDown s = s := by
  cases s
  cases h
  rfl

/-- With no reset due a step is the block's while `BUSY`, else the host's. -/
theorem step_of_not_due {s : State} (h : s.resetIn ≠ some 0) :
    step s = if s.phase = .busy then blockStep (countDown s) else hostStep (countDown s) := by
  unfold step systemStep
  split
  · exact absurd ‹_› h
  · rename_i k hk
    simp [countDown, hk]
  · rw [countDown_of_none ‹_›]

/-- A step of the system that answers a next state is the reset that was due, a step of the block or a step of the host. -/
theorem step_cases {s t : State} (h : step s = .next t) :
    (s.resetIn = some 0 ∧ t = platformReset s) ∨ (s.phase = .busy ∧ blockStep (countDown s) = .next t) ∨
      (s.phase ≠ .busy ∧ hostStep (countDown s) = .next t) := by
  by_cases hr : s.resetIn = some 0
  · simp only [step, systemStep, hr] at h
    cases h
    exact .inl ⟨hr, rfl⟩
  · rw [step_of_not_due hr] at h
    split at h
    · exact .inr (.inl ⟨‹_›, h⟩)
    · exact .inr (.inr ⟨‹_›, h⟩)

end Sys2Proof.Machine
end

section
/-! SUPPORT. The system's invariant (R30, R31, R32, R35, R43), phase by phase, and that each move of the system keeps it. -/

namespace Sys2Proof.Machine

open Sys2Proof.Safety

/-! ### What the invariant says in each phase -/

/-- A kind that the block raises has a code that the block can latch (R290). -/
theorem blockCode_of_raised : ∀ k : ErrorKind, k.raisedByBlock = true → blockCode k.code = true := by
  intro k; cases k <;> decide

theorem latchOk_iff {s : State} (h : s.phase ≠ .failed) : latchOk s = true ↔ s.errCode = 0 ∧ s.errInfo = 0 := by
  simp [latchOk, h]

theorem positionsOk_iff {s : State} (h : s.phase ≠ .failed) :
    positionsOk s = true ↔ s.iPos.toNat ≤ 5 * s.index ∧ s.oPos.toNat ≤ 5 * s.index ∧
      (s.phase = .idle → s.op = 0 ∧ s.index = 0) := by
  simp [positionsOk, h, and_assoc, imp_iff_not_or]

/-- Outside phase `FAILED` the error latch is clear and no position exceeds `5 × PIXIDX`. -/
theorem systemInv_iff {s : State} (h : s.phase ≠ .failed) :
    SystemInv s ↔ Memory.wf s.pix ∧ (s.phase = .busy → runningOk s = true) ∧ (s.errCode = 0 ∧ s.errInfo = 0) ∧
      s.iPos.toNat ≤ 5 * s.index ∧ s.oPos.toNat ≤ 5 * s.index ∧ (s.phase = .idle → s.op = 0 ∧ s.index = 0) := by
  rw [SystemInv, latchOk_iff h, positionsOk_iff h]

/-- In phase `FAILED` the latch holds what `raise` wrote (R300). -/
theorem systemInv_failed {k : ErrorKind} {info : ErrWord} {s : State} (hp : s.phase = .failed) (hw : Memory.wf s.pix)
    (hk : k.raisedByBlock = true) (hc : s.errCode = k.code) (hi : s.errInfo = info)
    (h0 : k ≠ .streamError → info = 0) : SystemInv s := by
  have hlatch : s.errCode = ErrorKind.streamError.code ∨ s.errInfo = 0 := by
    by_cases hs : k = .streamError
    · exact .inl (by rw [hc, hs])
    · exact .inr (by rw [hi, h0 hs])
  refine ⟨hw, fun hb => ?_, ?_, ?_⟩
  · rw [hp] at hb; cases hb
  · simpa [latchOk, hp, hc, blockCode_of_raised k hk] using hlatch
  · simp [positionsOk, hp]

/-- In phase `IDLE` with every register that the invariant speaks of 0, only PIX is left to look at (R55, R226). -/
theorem systemInv_cleared {s : State} (hp : s.phase = .idle) (hw : Memory.wf s.pix) (hop : s.op = 0) (hc : s.errCode = 0)
    (hi : s.errInfo = 0) (hidx : s.pixIdx = 0) (hin : s.iPos = 0) (hout : s.oPos = 0) : SystemInv s := by
  rw [systemInv_iff (by simp [hp])]
  simpa [State.index, hp, hop, hc, hi, hidx, hin, hout] using hw

/-! ### What keeps it -/

theorem systemInv_countDown {s : State} (h : SystemInv s) : SystemInv (countDown s) := h

/-- A move that leaves the phase, the latch and the positions keeps the invariant while no command runs. -/
theorem systemInv_of_controlKept {s t : State} (hb : s.phase ≠ .busy) (hk : ControlKept s t)
    (hw : Memory.wf s.pix → Memory.wf t.pix) (h : SystemInv s) : SystemInv t := by
  obtain ⟨hphase, hop, hcode, hinfo, hidx, hin, hout⟩ := hk
  obtain ⟨hpix, -, hlatch, hpos⟩ := h
  refine ⟨hw hpix, fun ht => absurd (hphase ▸ ht) hb, ?_, ?_⟩
  · simpa only [latchOk, hphase, hcode, hinfo] using hlatch
  · have hindex : t.index = s.index := congrArg BitVec.toNat hidx
    simpa only [positionsOk, hphase, hop, hindex, hin, hout, Bool.or_eq_true, Bool.and_eq_true, decide_eq_true_eq]
      using hpos

theorem clearRegisters_systemInv {s : State} (h : Memory.wf s.pix) : SystemInv (clearRegisters s) :=
  systemInv_cleared rfl h rfl rfl rfl rfl rfl rfl

theorem platformReset_systemInv {s : State} (h : Memory.wf s.pix) : SystemInv (platformReset s) := by
  refine clearRegisters_systemInv (s := if s.phase = .busy ∧ (s.op = 1#3 ∨ s.op = 2#3) then voidPix s else s) ?_
  split
  · exact Memory.fill_wf h _ _
  · exact h

/-- A command that starts meets the invariant: nothing is done yet and there is at least one slot (R46). -/
theorem openCommand_systemInv {op : BitVec 3} {s : State} (hw : Memory.wf s.pix) (h0 : op ≠ 0#3)
    (hr : reservedOp op = false) (hd : depthOk op s.depth = true) (hwidth : s.width ≠ 0) (hheight : s.height ≠ 0) :
    SystemInv (openCommand op s) := by
  have hslot : 0 < s.pixels := Nat.mul_pos
    (Nat.pos_of_ne_zero fun e => hwidth (BitVec.eq_of_toNat_eq e))
    (Nat.pos_of_ne_zero fun e => hheight (BitVec.eq_of_toNat_eq e))
  exact (systemInv_iff (by simp [openCommand])).2
    ⟨hw, fun _ => runningOk_iff.2 ⟨transferCode_of_not_reserved op h0 hr, hd, hwidth, hheight, hslot⟩, ⟨rfl, rfl⟩,
      Nat.zero_le _, Nat.zero_le _, fun hi => by cases hi⟩

theorem startCommand_systemInv {op : BitVec 3} {s t : State} (hw : Memory.wf s.pix) (h0 : op ≠ 0#3)
    (h : startCommand op s = .next t) : SystemInv t := by
  rcases startCommand_cases h with ⟨k, hk, rfl⟩ | ⟨hr, hd, hwidth, hheight, rfl⟩
  · refine systemInv_failed (k := k) (info := 0) rfl hw hk rfl ?_ fun _ => rfl
    simp
  · exact openCommand_systemInv hw h0 hr hd hwidth hheight

theorem writeCommand_systemInv {v : BitVec 8} {s t : State} (hb : s.phase ≠ .busy) (hinv : SystemInv s)
    (h : writeCommand v s = .next t) : SystemInv t := by
  rw [writeCommand_eq hb] at h
  split at h
  · cases h
    exact clearRegisters_systemInv hinv.1
  · split at h
    · cases h
      exact hinv
    · exact startCommand_systemInv hinv.1 ‹_› h

theorem hostStep_systemInv {s t : State} (hb : s.phase ≠ .busy) (hinv : SystemInv s) (h : hostStep s = .next t) :
    SystemInv t := by
  rcases hostStep_cases hb h with ⟨v, q, -, hv⟩ | ⟨hk, hw⟩
  · exact writeCommand_systemInv (s := { s with hostQueue := q }) hb hinv hv
  · exact systemInv_of_controlKept hb hk hw hinv

/-- After a step of a running command that goes on, the command is done or has slots left (R32, R35). -/
theorem endStep_systemInv {s u : State} (hb : s.phase = .busy) (hinv : SystemInv s) (hg : GoesOn s u) :
    SystemInv (endStep u) := by
  obtain ⟨hw, hrun, ⟨hcode, hinfo⟩, hin, hout, -⟩ := (systemInv_iff (by simp [hb])).1 hinv
  obtain ⟨hop, hdepth, hwidth, hheight, -⟩ := runningOk_iff.1 (hrun hb)
  obtain ⟨uop, uwidth, uheight, udepth, uphase, ucode, uinfo, -, -⟩ := goesOn_fields hg
  obtain ⟨-, hle, hpixels, -, uin, -, uout⟩ := goesOn_positions hg hin hout
  have hphase : (endStep u).phase = if u.index = u.pixels then .done else .busy := by
    rw [endStep_phase, uphase, hb]
  have hfailed : (endStep u).phase ≠ .failed := by rw [hphase]; split <;> simp
  refine (systemInv_iff hfailed).2 ⟨by simpa using goesOn_wf hw hg, fun hbusy => ?_, ?_, ?_, ?_, fun hidle => ?_⟩
  · have hleft : u.index ≠ u.pixels := fun e => by simp [hphase, e] at hbusy
    refine runningOk_iff.2 ⟨?_, ?_, ?_, ?_, ?_⟩
    · simpa [uop] using hop
    · simpa [uop, udepth] using hdepth
    · simpa [uwidth] using hwidth
    · simpa [uheight] using hheight
    · simp only [endStep_index, endStep_pixels]; omega
  · simp [ucode, uinfo, hcode, hinfo]
  · simpa using uin
  · simpa using uout
  · rw [hphase] at hidle
    split at hidle <;> cases hidle

theorem blockStep_systemInv {s t : State} (hb : s.phase = .busy) (hinv : SystemInv s) (h : blockStep s = .next t) :
    SystemInv t := by
  rcases blockStep_cases hinv.1 hb (hinv.2.1 hb) with ⟨u, hg, hu⟩ | ⟨f, k, info, hf, hfail, hw, hk, hinfo⟩
  · rw [hu] at h
    cases h
    exact endStep_systemInv hb hinv hg
  · rw [hf] at h
    cases h
    obtain ⟨hphase, hcode, hword, -⟩ := hfail
    exact systemInv_failed hphase hw hk hcode hword hinfo

/-- Settles O45: each move that `step_cases` names keeps the invariant. -/
theorem stepKeepsInvariant : Obligations.StepKeepsInvariant := by
  intro s t hinv h
  rcases step_cases h with ⟨-, rfl⟩ | ⟨hb, hblock⟩ | ⟨hb, hhost⟩
  · exact platformReset_systemInv hinv.1
  · exact blockStep_systemInv (s := countDown s) hb (systemInv_countDown hinv) hblock
  · exact hostStep_systemInv (s := countDown s) hb (systemInv_countDown hinv) hhost

/-- Settles O44: the reset state is canonical, idle, and every register is 0. -/
theorem resetMeetsInvariant : Obligations.ResetMeetsInvariant :=
  systemInv_cleared rfl Memory.wf_nil rfl rfl rfl rfl rfl rfl

/-! ### Phase transitions -/

/-- A step of a running command that changes the phase has made `PIXIDX` equal `N`, or has failed (R36). -/
theorem blockStep_phase {s t : State} (hb : s.phase = .busy) (hinv : SystemInv s) (h : blockStep s = .next t)
    (hne : t.phase ≠ .busy) : (t.phase = .done ∧ t.index = t.pixels) ∨ t.phase = .failed := by
  rcases blockStep_cases hinv.1 hb (hinv.2.1 hb) with ⟨u, hg, hu⟩ | ⟨f, k, info, hf, hfail, -⟩
  · rw [hu] at h
    cases h
    obtain ⟨-, -, -, -, uphase, -⟩ := goesOn_fields hg
    rw [endStep_phase, uphase, hb] at hne ⊢
    split at hne
    · rename_i hend
      exact .inl ⟨if_pos hend, by simpa using hend⟩
    · exact absurd rfl hne
  · rw [hf] at h
    cases h
    exact .inr hfail.1

/-- A write of `CMD` that changes the phase is `CLR`, or it starts a command, which runs or fails at once (R36, R46). -/
theorem writeCommand_phase {v : BitVec 8} {s t : State} (hb : s.phase ≠ .busy) (h : writeCommand v s = .next t)
    (hne : t.phase ≠ s.phase) :
    (commandOp v = 0#3 ∧ t.phase = .idle) ∨
      (commandOp v ≠ 0#3 ∧ s.phase ≠ .failed ∧ (t.phase = .busy ∨ t.phase = .failed)) := by
  rw [writeCommand_eq hb] at h
  split at h
  · cases h
    exact .inl ⟨‹_›, rfl⟩
  · split at h
    · cases h
      exact absurd rfl hne
    · refine .inr ⟨‹_›, ‹_›, ?_⟩
      rcases startCommand_cases h with ⟨k, -, rfl⟩ | ⟨-, -, -, -, rfl⟩
      · exact .inr rfl
      · exact .inl rfl

/-- Settles O47: the moves of `step_cases` change the phase in the ways of R36 only. -/
theorem phaseTransitions : Obligations.PhaseTransitions := by
  intro s t hinv h hne
  rcases step_cases h with ⟨hr, rfl⟩ | ⟨hb, hblock⟩ | ⟨hb, hhost⟩
  · exact .inl ⟨hr, rfl⟩
  · rcases blockStep_phase (s := countDown s) hb (systemInv_countDown hinv) hblock (hb ▸ hne) with ⟨hd, hi⟩ | hf
    · exact .inr (.inl ⟨hb, hd, hi⟩)
    · exact .inr (.inr (.inl ⟨hb, hf⟩))
  · rcases hostStep_cases (s := countDown s) hb hhost with ⟨v, q, hq, hv⟩ | ⟨⟨hphase, -⟩, -⟩
    · exact .inr (.inr (.inr ⟨v, q, hb, hq, writeCommand_phase (s := { countDown s with hostQueue := q }) hb hv hne⟩))
    · exact absurd hphase hne

end Sys2Proof.Machine
end

section
/-! PROOFS. Command start, register accesses and the step that runs a command (10_state.md). -/

namespace Sys2Proof.Machine

open Sys2Proof.Safety

/-! ### Command start -/

/-- Settles O18, by `exec_start` and `startCommand_ok`. -/
theorem transferCommandStarts : Obligations.TransferCommandStarts := by
  intro i op s hi hp hd hw hh
  obtain ⟨-, -, ho⟩ := exec_transfer hi s
  refine ⟨openCommand op s, ?_, rfl, rfl, rfl, rfl, rfl, rfl, rfl, rfl⟩
  rw [exec_start hi hp, startCommand_ok ho hd hw hh]

/-- Settles O19: the depths named are exactly those `depthOk` rejects. -/
theorem unsupportedDepthRaises : Obligations.UnsupportedDepthRaises := by
  intro i op s hi hp hdepth
  have hd : depthOk op s.depth = false := by
    rcases hdepth with ⟨ho, h16, h24, h32⟩ | ⟨ho, h24, h32⟩
    · simp [depthOk, ho, Config.srcDepths, h16, h24, h32]
    · rcases ho with rfl | rfl <;> simp [depthOk, Config.dstDepths, h24, h32]
  refine ⟨latchError .unsupportedBitdepth 0 (openCommand op s), ?_, rfl, rfl, rfl⟩
  rw [exec_start hi hp, startCommand_badDepth (reservedOp_of_transfer hi) hd]

/-- Settles O23, by `startCommand_zeroDimension`. -/
theorem zeroDimensionRefused : Obligations.ZeroDimensionRefused := by
  intro i op s hi hp hd hz
  rw [exec_start hi hp, startCommand_zeroDimension (reservedOp_of_transfer hi) hd hz]

/-! ### Host writes -/

theorem hostAct_writeCmd {s : State} (hb : s.phase ≠ .busy) (v : BitVec 8) :
    hostAct (.writeCmd v) s = writeCommand v s := hostAct_eq hb _

/-- Settles O20: a reserved code is no `CLR`, so the write starts it, and the start fails. -/
theorem reservedCodeRaises : Obligations.ReservedCodeRaises := by
  intro v s hp (h5 : 5 ≤ (commandOp v).toNat)
  have hb : s.phase ≠ .busy := by rcases hp with h | h <;> simp [h]
  have hf : s.phase ≠ .failed := by rcases hp with h | h <;> simp [h]
  have h0 : commandOp v ≠ 0#3 := fun e => by simp [e] at h5
  refine ⟨latchError .illegalCommand 0 (openCommand (commandOp v) s), ?_, rfl, rfl, rfl⟩
  have hr : reservedOp (commandOp v) = true := (reservedOp_iff _).2 h5
  rw [hostAct_writeCmd hb, writeCommand_eq hb, if_neg h0, if_neg hf, startCommand_reserved hr]

/-- Settles O21, by `writeCommand_eq`. -/
theorem failedIgnoresCommands : Obligations.FailedIgnoresCommands := by
  intro v s hf (h0 : commandOp v ≠ 0#3)
  have hb : s.phase ≠ .busy := by simp [hf]
  rw [hostAct_writeCmd hb, writeCommand_eq hb, if_neg h0, if_pos hf]

/-- Settles O24, by `hostAct_eq`. -/
theorem registerWrites : Obligations.RegisterWrites := by
  intro s hb
  refine ⟨fun v => ?_, fun v => ?_, fun v => ?_, fun r v => ?_⟩ <;> rw [hostAct_eq hb]

/-! ### Host reads -/

/-- Settles O43: a register is zero-extended to the 64 bits of a read, so its value stays. -/
theorem resetValues : Obligations.ResetValues := by
  refine ⟨fun r => by cases r <;> rfl, rfl, fun s => ⟨?_, ?_, ?_, ?_, rfl, rfl, fun _ => ⟨?_, ?_, ?_, ?_⟩⟩⟩
  · rw [readReg]
    cases s.phase <;> rfl
  all_goals exact BitVec.toNat_setWidth_of_le (by decide)

/-! ### A step runs the decoded command -/

/-- With no reset pending and no command running, a step is the host's next action. -/
theorem step_pending {s : State} {a : HostAction} {q : List HostAction} (hr : s.resetIn = none) (hb : s.phase ≠ .busy)
    (hq : s.hostQueue = a :: q) : step s = hostAct a { s with hostQueue := q } := by
  rw [step_of_not_due (by simp [hr]), if_neg hb, countDown_of_none hr, hostStep, hq]

/-- Settles O53: the written byte's command is the one `writeCommand` executes. -/
theorem stepRunsWrittenCommand : Obligations.StepRunsWrittenCommand := by
  intro s v q i hr hb hq hd
  have hi : decodeOp (commandOp v) = .ok i := decode_singleton hd
  rw [step_pending hr hb hq, hostAct_writeCmd (s := { s with hostQueue := q }) hb, writeCommand, hi]

/-- Settles O54: `CMD.OP` names the command that `blockStep` executes. -/
theorem stepRunsRunningCommand : Obligations.StepRunsRunningCommand := by
  intro s i op hi hr hb ho
  rw [step_running hr hb, blockStep, runningCommand_eq hi ho]

end Sys2Proof.Machine
end

section
/-! PROOFS. The PIX space, the steps of a running command and the spaces they touch (20_memory.md). -/

namespace Sys2Proof.Machine

open Sys2Proof.Safety

/-! ### PIX -/

theorem putPixels_singleton (i : Nat) (p : Pixel) (s : State) :
    putPixels i [p] s = storePix (slotAddr i) (pixelBytes p) s := by
  rw [putPixels_cons, putPixels_nil]

/-- A write to one slot leaves every byte outside it (R66). -/
theorem storePix_pixSameOutside {s : State} (h : Memory.wf s.pix) (i : Nat) (p : Pixel) :
    PixSameOutside i 1 s (storePix (slotAddr i) (pixelBytes p) s) := by
  intro a ha
  rw [← putPixels_singleton]
  exact putPixels_get h i [p] a ha

/-- The four bytes of a slot that reads as `p`, in ascending address order (R66, R113). -/
theorem get_of_slot_eq {s : State} {i : Nat} {p : Pixel} (h : s.slot i = p) :
    Memory.get s.pix (4 * i) = p.r ∧ Memory.get s.pix (4 * i + 1) = p.g ∧ Memory.get s.pix (4 * i + 2) = p.b ∧
      Memory.get s.pix (4 * i + 3) = p.a := by
  rw [slot_eq] at h
  subst h
  exact ⟨rfl, rfl, rfl, rfl⟩

/-- Settles O12: the write stores the pixel's four bytes, and the slot then reads as the pixel. -/
theorem pixWriteThenRead : Obligations.PixWriteThenRead := by
  intro s i p hw hi
  have hslot := slot_storePix_same hw i p
  obtain ⟨hr, hg, hb, ha⟩ := get_of_slot_eq hslot
  refine ⟨storePix (slotAddr i) (pixelBytes p) s, pixWrite_ok hi p, ?_, Memory.store_wf hw _ _,
    storePix_pixSameOutside hw i p, hr, hg, hb, ha, rfl⟩
  rw [pixRead_ok (by simpa using hi), hslot]

/-! ### A full sink -/

/-- While a command runs, its meaning is the step of the block (R39, R44). -/
theorem exec_eq_blockStep {i : Instr} {op : BitVec 3} {s : State} (hi : (i, op) ∈ transferCommands) (ho : s.op = op) :
    exec i s = blockStep s := by
  rw [blockStep, runningCommand_eq hi ho]

/-- A running encode command whose step fails answers the failed state, with PIX and IN as they were (R74, R300). -/
theorem exec_encode_raised {i : Instr} {op : BitVec 3} {s t : State} (hb : s.phase = .busy)
    (hi : (i, op) ∈ transferCommands) (ho : s.op = op) (henc : op = 3#3 ∨ op = 4#3) (hidx : s.index < s.pixels)
    (h : loopBody s s = .raised t) : exec i s = .next t ∧ t.pix = s.pix ∧ t.inBytes = s.inBytes := by
  subst ho
  have hstep : blockStep s = .next t := blockStep_raised hb (.inr (.inr henc)) hidx h
  obtain ⟨hin, -, hpix⟩ := blockStep_source hb henc hstep
  exact ⟨(exec_eq_blockStep hi rfl).trans hstep, hpix, hin⟩

/-- Settles O33: the bytes that do not fit are those of the pixel, or of the packet that `emission` names. -/
theorem fullSinkRaises : Obligations.FullSinkRaises := by
  intro s room e hb hd hidx hroom
  constructor
  · intro ho hfull
    have hbody : loopBody s = directOutStep := by simp [loopBody, ho]
    obtain ⟨t, ht, hfail, -⟩ := directOutStep_full hd hidx hroom hfull
    obtain ⟨hexec, hkept⟩ := exec_encode_raised (i := .encDirect) hb (by decide) ho (.inl rfl) hidx (hbody ▸ ht)
    exact ⟨t, hexec, hfail, hkept⟩
  · intro ho hfull
    have hbody : loopBody s = emitStep := by simp [loopBody, ho]
    have hlong : room < (emission s).bytes.length := by
      rw [emission_bytes_length hd]
      rcases hfull with ⟨hrun, hlt⟩ | ⟨hrun, hlt⟩
      · rwa [if_pos hrun]
      · rwa [if_neg (by omega)]
    obtain ⟨t, ht, hfail, -⟩ := emitStep_full hd hidx hroom hlong
    obtain ⟨hexec, hkept⟩ := exec_encode_raised (i := .encRle) hb (by decide) ho (.inr rfl) hidx (hbody ▸ ht)
    exact ⟨t, hexec, hfail, hkept⟩

/-! ### The steps of a running command -/

/-- A reset that is due is the step (R330). -/
theorem step_of_due {s : State} (h : s.resetIn = some 0) : step s = .next (platformReset s) := by
  simp only [step, systemStep, h]

/-- Settles O46: the step is the due reset, or a step of the block, which goes on or fails. -/
theorem busyStepsComplete : Obligations.BusyStepsComplete := by
  intro s hinv hb
  by_cases hr : s.resetIn = some 0
  · exact ⟨_, step_of_due hr⟩
  · rw [step_of_not_due hr, if_pos hb]
    rcases blockStep_cases (s := countDown s) hinv.1 hb (hinv.2.1 hb) with ⟨u, -, hu⟩ | ⟨t, -, -, ht, -⟩
    · exact ⟨_, hu⟩
    · exact ⟨t, ht⟩

/-- Settles O50: the step is the block's; `blockStep_out` and `blockStep_source` say what it leaves. -/
theorem commandsKeepOtherSpaces : Obligations.CommandsKeepOtherSpaces := by
  intro s t _ hb hr h
  rw [step_of_not_due hr, if_pos hb] at h
  exact ⟨fun ho => blockStep_out (s := countDown s) hb ho h, fun ho => blockStep_source (s := countDown s) hb ho h⟩

end Sys2Proof.Machine
end

section
/-! PROOFS. The encodings of packet headers, command codes and pixel formats, and the 16-bit pixel (30_encoding.md). -/

namespace Sys2Proof

/-! ### Bytes and the instructions they select -/

/-- Only the selecting byte is read; what follows it stays unread. -/
theorem decode_cons_ok {place : Place} {b : Byte} {i : Instr} (h : decodeByte place b = .ok i) (rest : List Byte) :
    decode place (b :: rest) = .ok (i, rest) := by
  rw [decode, h]

theorem decode_cons_error {place : Place} {b : Byte} {e : DecodeError} (h : decodeByte place b = .error e)
    (rest : List Byte) : decode place (b :: rest) = .error e := by
  rw [decode, h]

theorem decodePacket_of_repeat {hdr : Byte} (h : headerMode hdr = 1#1) :
    decodePacket hdr = .rpt (headerRunLength hdr) := if_pos h

theorem decodePacket_of_raw {hdr : Byte} (h : headerMode hdr = 0#1) :
    decodePacket hdr = .raw (headerRunLength hdr) := if_neg (by rw [h]; decide)

/-- An instruction's one byte selects it at its place: a header through its two fields (R92, R93), the other rows of the
opcode table by their fixed values (R100, R107). -/
theorem encode_selects {i : Instr} (h : i.wellFormed = true) :
    ∃ b, encode i = [b] ∧ decodeByte i.place b = .ok i := by
  cases i with
  | raw n =>
    obtain ⟨hmode, -, hrun, -⟩ := packetHeader_fields h
    exact ⟨packetHeader 0#1 n, rfl, by rw [Instr.place, decodeByte, decodePacket_of_raw hmode, hrun]⟩
  | rpt n =>
    obtain ⟨-, hmode, -, hrun⟩ := packetHeader_fields h
    exact ⟨packetHeader 1#1 n, rfl, by rw [Instr.place, decodeByte, decodePacket_of_repeat hmode, hrun]⟩
  | clr | decDirect | decRle | encDirect | encRle => exact ⟨_, rfl, rfl⟩
  | toRgba16 | toRgba24 | toRgba32 | fromRgba24 | fromRgba32 => exact ⟨_, rfl, rfl⟩

/-- Settles O1: the encoding is one byte, which selects the instruction. -/
theorem decodeInvertsEncode : Obligations.DecodeInvertsEncode := by
  intro i rest h
  obtain ⟨b, henc, hdec⟩ := encode_selects h
  rw [henc]
  exact decode_cons_ok hdec rest

/-! ### Packet headers -/

/-- Every header byte is legal (R97). -/
theorem decodePacket_wellFormed (hdr : Byte) : (decodePacket hdr).wellFormed = true := by
  obtain ⟨-, -, hone, hmax, -⟩ := header_fields hdr
  have hrun : runLengthOk (headerRunLength hdr) = true := runLengthOk_iff.2 ⟨hone, hmax⟩
  rcases headerMode_cases hdr with hmode | hmode
  · rwa [decodePacket_of_repeat hmode]
  · rwa [decodePacket_of_raw hmode]

/-- A header's two fields make it up, so it is the encoding of its packet (R92, R93). -/
theorem encode_decodePacket (hdr : Byte) : encode (decodePacket hdr) = [hdr] := by
  obtain ⟨-, -, -, -, hmake⟩ := header_fields hdr
  rcases headerMode_cases hdr with hmode | hmode
  · rw [decodePacket_of_repeat hmode, encode, ← hmode, hmake]
  · rw [decodePacket_of_raw hmode, encode, ← hmode, hmake]

/-- Settles O2: bit 7 is the header's mode, and the packet it selects is well formed and encoded by it. -/
theorem everyHeaderByteIsAPacket : Obligations.EveryHeaderByteIsAPacket := by
  intro hdr rest
  obtain ⟨hrepeat, hraw, -⟩ := header_fields hdr
  exact ⟨decodePacket hdr, decode_cons_ok rfl rest, decodePacket_wellFormed hdr, encode_decodePacket hdr,
    fun h => decodePacket_of_repeat (hrepeat.2 h), fun h => decodePacket_of_raw (hraw.2 h)⟩

/-! ### Command codes -/

/-- A code from 5 on is no command (R100). -/
theorem decodeOp_of_reserved {op : BitVec 3} (h : 5 ≤ op.toNat) : decodeOp op = .error (.reservedCommand op) := by
  have hne : ∀ k : BitVec 3, k.toNat < 5 → op ≠ k := by rintro k hk rfl; omega
  rw [decodeOp, if_neg (hne _ (by decide)), if_neg (hne _ (by decide)), if_neg (hne _ (by decide)),
    if_neg (hne _ (by decide)), if_neg (hne _ (by decide))]

/-- At the command place bits 2..0 alone select (R39). -/
theorem decodeByte_command {v : Byte} {op : BitVec 3} (h : v.extractLsb' 0 3 = op) :
    decodeByte .command v = decodeOp op := congrArg decodeOp h

/-- Settles O3, by `decodeOp` of each code. -/
theorem commandCodesDecode : Obligations.CommandCodesDecode := by
  intro v rest op
  refine ⟨fun h => ?clr, fun h => ?decDirect, fun h => ?decRle, fun h => ?encDirect, fun h => ?encRle,
    fun h => ?reserved⟩
  case reserved => exact decode_cons_error ((decodeByte_command rfl).trans (decodeOp_of_reserved h)) rest
  all_goals exact decode_cons_ok (decodeByte_command h) rest

/-- Settles O5: each word is a fixed value, which the decoder computes. -/
theorem specWordsDecode : Obligations.SpecWordsDecode := by
  unfold Obligations.SpecWordsDecode
  decide

end Sys2Proof

namespace Sys2Proof.Safety

open Sys2Proof.Machine

/-! ### The length of a packet -/

theorem packetLength_of_repeat {hdr : Byte} (h : headerMode hdr = 1#1) (bpp : Nat) : packetLength bpp hdr = 1 + bpp :=
  if_pos h

theorem packetLength_of_raw {hdr : Byte} (h : headerMode hdr = 0#1) (bpp : Nat) :
    packetLength bpp hdr = 1 + headerRunLength hdr * bpp := if_neg (by rw [h]; decide)

/-- The first byte of a packet is its header, and the length `packetLength` reads off it is the packet's (R94, R96). -/
theorem Packet.bytes_length_eq {bpp : Nat} {p : Packet} {hdr : Byte} {tail : List Byte} (hp : p.ok bpp = true)
    (hb : p.bytes = hdr :: tail) : p.bytes.length = packetLength bpp hdr := by
  cases p with
  | rpt n px =>
    simp only [Packet.ok, Bool.and_eq_true, decide_eq_true_eq] at hp
    obtain ⟨hrun, hpx⟩ := hp
    obtain ⟨rfl, rfl⟩ : packetHeader 1#1 n = hdr ∧ px = tail := List.cons.inj hb
    obtain ⟨-, hmode, -⟩ := packetHeader_fields hrun
    rw [packetLength_of_repeat hmode, hb, List.length_cons, hpx, Nat.add_comm]
  | raw pss =>
    simp only [Packet.ok, Bool.and_eq_true, List.all_eq_true, decide_eq_true_eq] at hp
    obtain ⟨hrun, hpss⟩ := hp
    obtain ⟨rfl, rfl⟩ : packetHeader 0#1 pss.length = hdr ∧ pss.flatten = tail := List.cons.inj hb
    obtain ⟨hmode, -, hlen, -⟩ := packetHeader_fields hrun
    rw [packetLength_of_raw hmode, hlen, hb, List.length_cons, flatten_length hpss, Nat.add_comm]

/-- Settles O4: a packet has the length its header states, and bit 7 says which of the two lengths that is. -/
theorem packetLengthFollowsHeader : Obligations.PacketLengthFollowsHeader := by
  intro bpp p hdr tail hp hb
  have hlen := Packet.bytes_length_eq hp hb
  obtain ⟨hrepeat, hraw, -⟩ := header_fields hdr
  exact ⟨hlen, fun h => hlen.trans (packetLength_of_repeat (hrepeat.2 h) bpp),
    fun h => hlen.trans (packetLength_of_raw (hraw.2 h) bpp)⟩

end Sys2Proof.Safety

namespace Sys2Proof.Machine

/-! ### The 16-bit pixel -/

/-- The 16-bit value of two bytes, the low one first (R110). -/
def littleEndian16 (lo hi : Byte) : BitVec 16 := lo.setWidth 16 ||| hi.setWidth 16 <<< 8

/-- Bits 7..0 of the word are the low byte's, bits 15..8 the high byte's. -/
theorem littleEndian16_getElem (lo hi : Byte) {k : Nat} (hk : k < 16) :
    (littleEndian16 lo hi)[k] = if h : k < 8 then lo[k] else hi[k - 8] := by
  by_cases h : k < 8
  · simp [littleEndian16, h, hk, ← BitVec.getLsbD_eq_getElem]
  · have hlo : lo.getLsbD k = false := BitVec.getLsbD_of_ge lo k (by omega)
    have hk' : k - 8 < 16 := by omega
    simp [littleEndian16, h, hlo, hk, hk', ← BitVec.getLsbD_eq_getElem]

/-- R131's masks and shifts of two bytes move the fields of R110's word to where they belong, bit by bit. -/
theorem rgbaOf16_eq_fields (lo hi : Byte) :
    rgbaOf16 lo hi =
      let w := littleEndian16 lo hi
      ⟨(w.extractLsb' 10 5).setWidth 8 <<< 3, (w.extractLsb' 5 5).setWidth 8 <<< 3,
        (w.extractLsb' 0 5).setWidth 8 <<< 3, (w.extractLsb' 15 1).setWidth 8 <<< 7⟩ := by
  rw [rgbaOf16, Pixel.mk.injEq]
  refine ⟨?red, ?green, ?blue, ?alpha⟩
  all_goals
    ext k hk
    interval_cases k <;> simp [littleEndian16_getElem]

theorem exec_toRgba16 (s : State) :
    exec .toRgba16 s = .next { s with work := { s.work with p := rgbaOf16 s.work.s.b0 s.work.s.b1 } } := rfl

/-- Settles O6: the meaning puts `rgbaOf16` of the two source bytes into `p`. -/
theorem toRgba16PlacesFields : Obligations.ToRgba16PlacesFields := by
  intro s
  rw [exec_toRgba16, rgbaOf16_eq_fields]
  rfl

end Sys2Proof.Machine
end

section
/-! PROOFS. The conversions between source bytes and canonical pixels: what they answer, when they are defined, their value
sets and the operation `DEPTH` selects (40_pixel_converter.md). -/

namespace Sys2Proof.Machine

/-! ### The meanings of the operations -/

theorem exec_toRgba24 (s : State) :
    exec .toRgba24 s = .next { s with work := { s.work with p := rgbaOf24 s.work.s.b0 s.work.s.b1 s.work.s.b2 } } := rfl

theorem exec_toRgba32 (s : State) :
    exec .toRgba32 s =
      .next { s with work := { s.work with p := rgbaOf32 s.work.s.b0 s.work.s.b1 s.work.s.b2 s.work.s.b3 } } := rfl

theorem exec_fromRgba24 (s : State) : exec .fromRgba24 s = .next { s with target := bytes24 s.work.p } := rfl

theorem exec_fromRgba32 (s : State) : exec .fromRgba32 s = .next { s with target := bytes32 s.work.p } := rfl

/-- Settles O7: the meanings put `rgbaOf24` and `rgbaOf32` of the source bytes into `p`. -/
theorem toRgba24And32Swap : Obligations.ToRgba24And32Swap :=
  fun s => ⟨exec_toRgba24 s, exec_toRgba32 s⟩

/-- Settles O8: the meanings latch `bytes24` and `bytes32` of `p`. -/
theorem fromRgbaSwaps : Obligations.FromRgbaSwaps :=
  fun s => ⟨exec_fromRgba24 s, exec_fromRgba32 s⟩

/-! ### The dispatch by length -/

@[simp] theorem toRgba_two (q : Quad) : toRgba 2 q = some (rgbaOf16 q.b0 q.b1) := rfl

@[simp] theorem toRgba_three (q : Quad) : toRgba 3 q = some (rgbaOf24 q.b0 q.b1 q.b2) := rfl

@[simp] theorem toRgba_four (q : Quad) : toRgba 4 q = some (rgbaOf32 q.b0 q.b1 q.b2 q.b3) := rfl

@[simp] theorem fromRgba_three (p : Pixel) : fromRgba 3 p = some (bytes24 p) := rfl

@[simp] theorem fromRgba_four (p : Pixel) : fromRgba 4 p = some (bytes32 p) := rfl

/-- The forward conversion is undefined exactly outside lengths 2, 3 and 4 (R134). -/
theorem toRgba_eq_none_iff (n : Nat) (q : Quad) : toRgba n q = none ↔ n ≠ 2 ∧ n ≠ 3 ∧ n ≠ 4 := by
  unfold toRgba
  split_ifs <;> simp [*]

/-- The reverse conversion is undefined exactly outside lengths 3 and 4 (R139). -/
theorem fromRgba_eq_none_iff (n : Nat) (p : Pixel) : fromRgba n p = none ↔ n ≠ 3 ∧ n ≠ 4 := by
  unfold fromRgba
  split_ifs <;> simp [*]

/-! ### The sources of a pixel -/

/-- A pixel whose channels keep five bits and whose alpha keeps one (R142). -/
def FiveBitPixel (p : Pixel) : Prop :=
  p.r &&& 7#8 = 0#8 ∧ p.g &&& 7#8 = 0#8 ∧ p.b &&& 7#8 = 0#8 ∧ (p.a = 0x00#8 ∨ p.a = 0x80#8)

/-- The low source byte of a 16-bit pixel: green's low three bits over blue's five (R110). -/
def lowByte16 (p : Pixel) : Byte := ((p.g <<< 2) &&& 0xe0#8) ||| (p.b >>> 3)

/-- The high source byte of a 16-bit pixel: alpha's bit, red's five and green's high two (R110). -/
def highByte16 (p : Pixel) : Byte := p.a ||| (p.r >>> 1) ||| (p.g >>> 6)

theorem and_seven_eq_zero_iff (v : Byte) : v &&& 7#8 = 0#8 ↔ v[0] = false ∧ v[1] = false ∧ v[2] = false := by
  revert v; decide

/-- R131's masks leave the low bits zero. -/
theorem rgbaOf16_fiveBit (lo hi : Byte) : FiveBitPixel (rgbaOf16 lo hi) := by
  have halpha : ∀ v : Byte, v &&& 0x80#8 = 0x00#8 ∨ v &&& 0x80#8 = 0x80#8 := by decide
  refine ⟨?red, ?green, ?blue, halpha hi⟩
  all_goals simp [rgbaOf16, and_seven_eq_zero_iff]

/-- The low source byte comes back: no bit of it is lost (R142). -/
theorem lowByte16_rgbaOf16 (lo hi : Byte) : lowByte16 (rgbaOf16 lo hi) = lo := by
  ext k hk
  interval_cases k <;> simp [lowByte16, rgbaOf16]

/-- The high source byte comes back: no bit of it is lost (R142). -/
theorem highByte16_rgbaOf16 (lo hi : Byte) : highByte16 (rgbaOf16 lo hi) = hi := by
  ext k hk
  interval_cases k <;> simp [highByte16, rgbaOf16]

/-- A pixel of five-bit channels is the conversion of the two bytes that hold its bits (R142). -/
theorem rgbaOf16_of_fiveBit {p : Pixel} (h : FiveBitPixel p) : rgbaOf16 (lowByte16 p) (highByte16 p) = p := by
  obtain ⟨r, g, b, a⟩ := p
  obtain ⟨hr, hg, hb, ha⟩ := h
  simp only [and_seven_eq_zero_iff] at hr hg hb
  rw [rgbaOf16, Pixel.mk.injEq]
  refine ⟨?red, ?green, ?blue, ?alpha⟩
  all_goals
    ext k hk
    rcases ha with rfl | rfl <;> interval_cases k <;> simp [lowByte16, highByte16, hr, hg, hb]

/-- The 16-bit source of a pixel is unique, and exists exactly for a pixel of five-bit channels (R142). -/
theorem rgbaOf16_eq_iff {lo hi : Byte} {p : Pixel} :
    rgbaOf16 lo hi = p ↔ lo = lowByte16 p ∧ hi = highByte16 p ∧ FiveBitPixel p := by
  constructor
  · rintro rfl
    exact ⟨(lowByte16_rgbaOf16 lo hi).symm, (highByte16_rgbaOf16 lo hi).symm, rgbaOf16_fiveBit lo hi⟩
  · rintro ⟨rfl, rfl, h⟩
    exact rgbaOf16_of_fiveBit h

/-- The 24-bit source of a pixel is unique, and exists exactly for an opaque pixel (R142). -/
theorem rgbaOf24_eq_iff {s0 s1 s2 : Byte} {p : Pixel} :
    rgbaOf24 s0 s1 s2 = p ↔ s0 = p.b ∧ s1 = p.g ∧ s2 = p.r ∧ p.a = 0xff#8 := by
  constructor
  · rintro rfl
    exact ⟨rfl, rfl, rfl, rfl⟩
  · rintro ⟨rfl, rfl, rfl, h⟩
    rw [rgbaOf24, ← h]

/-- The 32-bit source of a pixel exists and is unique (R142). -/
theorem rgbaOf32_eq_iff {s0 s1 s2 s3 : Byte} {p : Pixel} :
    rgbaOf32 s0 s1 s2 s3 = p ↔ s0 = p.b ∧ s1 = p.g ∧ s2 = p.r ∧ s3 = p.a := by
  constructor
  · rintro rfl
    exact ⟨rfl, rfl, rfl, rfl⟩
  · rintro ⟨rfl, rfl, rfl, rfl⟩
    rfl

/-- Settles O10: the sources of a pixel at each length say which pixels are reached, and that none is reached twice. -/
theorem converterImages : Obligations.ConverterImages := by
  refine ⟨rgbaOf16_fiveBit, fun p hr hg hb ha => ⟨_, _, rgbaOf16_of_fiveBit ⟨hr, hg, hb, ha⟩⟩, ?inj16,
    fun p => ⟨fun h => ⟨_, _, _, rgbaOf24_eq_iff.2 ⟨rfl, rfl, rfl, h⟩⟩, ?alpha24⟩, ?inj24,
    fun p => ⟨_, _, _, _, rgbaOf32_eq_iff.2 ⟨rfl, rfl, rfl, rfl⟩, fun _ _ _ _ => rgbaOf32_eq_iff.1⟩⟩
  case inj16 =>
    intro a b c d h
    obtain ⟨ha, hb, -⟩ := rgbaOf16_eq_iff.1 h
    exact ⟨ha.trans (lowByte16_rgbaOf16 c d), hb.trans (highByte16_rgbaOf16 c d)⟩
  case alpha24 =>
    rintro ⟨a, b, c, rfl⟩
    rfl
  case inj24 =>
    intro a b c d e f h
    obtain ⟨ha, hb, hc, -⟩ := rgbaOf24_eq_iff.1 h
    exact ⟨ha, hb, hc⟩

/-! ### The inverse laws -/

/-- Forcing alpha leaves the pixel exactly when its alpha is that already. -/
theorem with_alpha_eq_self_iff (p : Pixel) (a : Byte) : { p with a := a } = p ↔ p.a = a := by
  constructor
  · intro h
    rw [← h]
  · rintro rfl
    rfl

/-- What the 3-byte trip keeps of a pixel: all but alpha (R143). -/
theorem toRgba_bytes24 (q : Quad) (p : Pixel) : toRgba 3 (loadQuad q (bytes24 p)) = some { p with a := 0xff#8 } := rfl

/-- The 4-byte trip keeps a pixel (R143). -/
theorem toRgba_bytes32 (q : Quad) (p : Pixel) : toRgba 4 (loadQuad q (bytes32 p)) = some p := rfl

theorem bytes24_rgbaOf24 (s0 s1 s2 : Byte) : bytes24 (rgbaOf24 s0 s1 s2) = [s0, s1, s2] := rfl

theorem bytes32_rgbaOf32 (s0 s1 s2 s3 : Byte) : bytes32 (rgbaOf32 s0 s1 s2 s3) = [s0, s1, s2, s3] := rfl

/-- Settles O9: each conversion reads back the bytes the other one placed. -/
theorem converterInverses : Obligations.ConverterInverses := by
  refine ⟨fun p q bs h => ?pixel4, fun p q bs h => ⟨?pixel3, with_alpha_eq_self_iff p _⟩, fun q p h => ?bytes3,
    fun q p h => ?bytes4⟩
  case pixel4 =>
    obtain rfl : bytes32 p = bs := Option.some.inj h
    exact toRgba_bytes32 q p
  case pixel3 =>
    obtain rfl : bytes24 p = bs := Option.some.inj h
    exact toRgba_bytes24 q p
  case bytes3 =>
    obtain rfl : rgbaOf24 q.b0 q.b1 q.b2 = p := Option.some.inj h
    rw [fromRgba_three, bytes24_rgbaOf24]
  case bytes4 =>
    obtain rfl : rgbaOf32 q.b0 q.b1 q.b2 q.b3 = p := Option.some.inj h
    rw [fromRgba_four, bytes32_rgbaOf32]

/-! ### The operation `DEPTH` selects -/

/-- The `DEPTH` values that select a forward operation (R130). -/
theorem decodeForward_cases {d : Byte} {i : Instr} (h : decodeForward d = .ok i) :
    (d = 16#8 ∧ i = .toRgba16) ∨ (d = 24#8 ∧ i = .toRgba24) ∨ (d = 32#8 ∧ i = .toRgba32) := by
  unfold decodeForward at h
  split_ifs at h with h16 h24 h32 <;> cases h
  · exact .inl ⟨h16, rfl⟩
  · exact .inr (.inl ⟨h24, rfl⟩)
  · exact .inr (.inr ⟨h32, rfl⟩)

/-- The `DEPTH` values that select a reverse operation (R136). -/
theorem decodeReverse_cases {d : Byte} {i : Instr} (h : decodeReverse d = .ok i) :
    (d = 24#8 ∧ i = .fromRgba24) ∨ (d = 32#8 ∧ i = .fromRgba32) := by
  unfold decodeReverse at h
  split_ifs at h with h24 h32 <;> cases h
  · exact .inl ⟨h24, rfl⟩
  · exact .inr ⟨h32, rfl⟩

theorem bpp_of_depth_eq {s : State} {d : Byte} (h : s.depth = d) : s.bpp = d.toNat / 8 := by
  rw [State.bpp, h]

/-- The forward operation that `DEPTH` selects puts the conversion of length `bpp` into `p` (R130). -/
theorem exec_of_decodeForward {s : State} {i : Instr} (h : decodeForward s.depth = .ok i) :
    ∃ p, toRgba s.bpp s.work.s = some p ∧ exec i s = .next { s with work := { s.work with p := p } } := by
  rcases decodeForward_cases h with ⟨hd, rfl⟩ | ⟨hd, rfl⟩ | ⟨hd, rfl⟩ <;> rw [bpp_of_depth_eq hd]
  · exact ⟨_, toRgba_two _, exec_toRgba16 s⟩
  · exact ⟨_, toRgba_three _, exec_toRgba24 s⟩
  · exact ⟨_, toRgba_four _, exec_toRgba32 s⟩

/-- The reverse operation that `DEPTH` selects latches the bytes of length `bpp` (R136). -/
theorem exec_of_decodeReverse {s : State} {i : Instr} (h : decodeReverse s.depth = .ok i) :
    ∃ bs, fromRgba s.bpp s.work.p = some bs ∧ exec i s = .next { s with target := bs } := by
  rcases decodeReverse_cases h with ⟨hd, rfl⟩ | ⟨hd, rfl⟩ <;> rw [bpp_of_depth_eq hd]
  · exact ⟨_, fromRgba_three _, exec_fromRgba24 s⟩
  · exact ⟨_, fromRgba_four _, exec_fromRgba32 s⟩

/-- Settles O11: the selected operation is the dispatch by `bpp`, which is defined at the lengths it has a function for. -/
theorem depthSelectsConversion : Obligations.DepthSelectsConversion :=
  ⟨fun _ _ h => exec_of_decodeForward (decode_singleton h), fun _ _ h => exec_of_decodeReverse (decode_singleton h),
    toRgba_eq_none_iff, fromRgba_eq_none_iff⟩

end Sys2Proof.Machine
end

section
/-! PROOFS. RLE decode: the packets, the steps that fetch them, whole decodes, and the progress of every step
(41_rle_decode.md). -/

namespace Sys2Proof.Machine

open Sys2Proof.Safety

/-! ### The state after pixels were decoded -/

/-- `n` decoded pixels take the `n` slots from `PIXIDX` on, in order, and no other (R164, R165, R171). -/
theorem decoded_writes {s : State} (hw : Memory.wf s.pix) {ps : List Pixel} {n : Nat} (hlen : ps.length = n)
    (hfit : s.index + n ≤ s.pixels) (m : Nat) (rest : List Byte) (w : Working) :
    (decoded ps m rest w s).index = s.index + n ∧ PixSameOutside s.index n s (decoded ps m rest w s) ∧
      slots (decoded ps m rest w s) s.index n = ps ∧
      ∀ (k : Nat) (hk : k < n), (decoded ps m rest w s).slot (s.index + k) = ps[k]'(hlen.symm ▸ hk) := by
  subst hlen
  exact ⟨decoded_index hfit, decoded_pixSame hw _ _ _ _, decoded_slots hw _ _ _ _,
    fun k hk => slot_putPixels_inside hw hk⟩

theorem fits_of_le_slotsLeft {s : State} {n : Nat} (hn : 1 ≤ n) (hl : n ≤ s.slotsLeft) : s.index + n ≤ s.pixels := by
  rw [State.slotsLeft] at hl
  omega

/-! ### Packets that complete -/

/-- `RPT` with its pixel in IN (R164). -/
theorem exec_rpt_ok {n : Nat} {px rest : List Byte} {s : State} (hn : runLengthOk n = true)
    (hd : s.depth ∈ Config.srcDepths) (hl : n ≤ s.slotsLeft) (hp : px.length = s.bpp) (hin : s.inBytes = px ++ rest) :
    ∃ w, exec (.rpt n) s = .next (decoded (List.replicate n (pixelOfSource px)) s.bpp rest w s) := by
  obtain ⟨hone, -⟩ := runLengthOk_iff.1 hn
  obtain ⟨w, hbody⟩ := rptBody_ok hd hone hl hp hin
  exact ⟨w, congrArg Result.outcome hbody⟩

/-- `RAW` with its pixels in IN (R165). -/
theorem exec_raw_ok {pss : List (List Byte)} {rest : List Byte} {s : State} (hn : runLengthOk pss.length = true)
    (hd : s.depth ∈ Config.srcDepths) (hl : pss.length ≤ s.slotsLeft) (hp : ∀ px ∈ pss, px.length = s.bpp)
    (hin : s.inBytes = pss.flatten ++ rest) :
    ∃ w, exec (.raw pss.length) s = .next (decoded (pss.map pixelOfSource) (pss.length * s.bpp) rest w s) := by
  obtain ⟨hone, -⟩ := runLengthOk_iff.1 hn
  obtain ⟨w, hbody⟩ := rawBody_ok hd hone hl hp hin
  exact ⟨w, congrArg Result.outcome hbody⟩

/-- Settles O13: the packet decodes `n` copies of its pixel. -/
theorem rptWritesRun : Obligations.RptWritesRun := by
  intro s n px rest hn hd hw hl hp hin
  obtain ⟨hone, -⟩ := runLengthOk_iff.1 hn
  obtain ⟨w, hexec⟩ := exec_rpt_ok hn hd hl hp hin
  obtain ⟨hindex, hsame, -, hslot⟩ := decoded_writes hw List.length_replicate (fits_of_le_slotsLeft hone hl) s.bpp rest w
  refine ⟨_, hexec, rfl, hindex, rfl, fun k hk => ?_, hsame, decoded_wf hw .., rfl, decoded_frame ..⟩
  rw [hslot k hk, List.getElem_replicate]

/-- Settles O14: the packet decodes its pixels in order. -/
theorem rawWritesPixels : Obligations.RawWritesPixels := by
  intro s pss rest hn hd hw hl hp hin
  obtain ⟨hone, -⟩ := runLengthOk_iff.1 hn
  obtain ⟨w, hexec⟩ := exec_raw_ok hn hd hl hp hin
  obtain ⟨hindex, hsame, -, hslot⟩ := decoded_writes hw (List.length_map pixelOfSource) (fits_of_le_slotsLeft hone hl)
    (pss.length * s.bpp) rest w
  refine ⟨_, hexec, rfl, hindex, rfl, fun k hk => ?_, hsame, decoded_wf hw .., rfl, decoded_frame ..⟩
  rw [hslot k hk, List.getElem_map]

/-- Settles O17: both packets decode the same `n` pixels, from different numbers of bytes. -/
theorem repeatActsAsRaw : Obligations.RepeatActsAsRaw := by
  intro s n px rest hn hd hl hp
  have hlen : (List.replicate n px).length = n := List.length_replicate
  obtain ⟨w, hrpt⟩ := exec_rpt_ok (s := { s with inBytes := px ++ rest }) hn hd hl hp rfl
  obtain ⟨v, hraw⟩ := exec_raw_ok (s := { s with inBytes := (List.replicate n px).flatten ++ rest })
    (pss := List.replicate n px) (hlen.symm ▸ hn) hd (hlen.symm ▸ hl)
    (fun q hq => (List.eq_of_mem_replicate hq).symm ▸ hp) rfl
  rw [hlen, List.map_replicate] at hraw
  exact ⟨_, _, hrpt, hraw, rfl, rfl, rfl, rfl, rfl⟩

/-! ### Packets that fail -/

/-- A packet never touches OUT (R74). -/
theorem exec_packet_outBytes {i : Instr} {n : Nat} {s t : State} (hi : i = .rpt n ∨ i = .raw n)
    (h : exec i s = .next t) : t.outBytes = s.outBytes := by
  have hP : OutOnly fun t => t.outBytes = s.outBytes := ⟨fun _ _ hbytes _ h => hbytes.trans h⟩
  rcases hi with rfl | rfl
  · exact Result.all_next (rptBody_out hP n rfl) h
  · exact Result.all_next (rawBody_out hP n rfl) h

/-- Settles O15, by `packet_overruns`. -/
theorem overrunRaises : Obligations.OverrunRaises := by
  intro s n hw hlong i hi
  obtain ⟨⟨t, ht, hfail, -, hin⟩, ⟨u, hu, hfail', -, hin'⟩⟩ := packet_overruns hw hlong
  rcases hi with rfl | rfl
  · have hexec : exec (.rpt n) s = .next t := congrArg Result.outcome ht
    exact ⟨t, hexec, hfail, hin, exec_packet_outBytes (.inl rfl) hexec⟩
  · have hexec : exec (.raw n) s = .next u := congrArg Result.outcome hu
    exact ⟨u, hexec, hfail', hin', exec_packet_outBytes (.inr rfl) hexec⟩

/-- Settles O16, by `rptBody_short` and `rawBody_short`. -/
theorem shortPayloadRaises : Obligations.ShortPayloadRaises := by
  intro s n hw hd hn hl
  obtain ⟨hone, -⟩ := runLengthOk_iff.1 hn
  constructor
  · intro hshort
    obtain ⟨t, ht, hfail, -⟩ := rptBody_short hw hl hshort
    have hexec : exec (.rpt n) s = .next t := congrArg Result.outcome ht
    exact ⟨t, hexec, hfail, exec_packet_outBytes (.inl rfl) hexec⟩
  · intro hshort
    obtain ⟨t, ht, hfail, -⟩ := rawBody_short hd hw hone hl hshort
    exact ⟨t, congrArg Result.outcome ht, hfail⟩

/-! ### Steps of the decode commands -/

theorem slots_congr {s t : State} (h : ∀ i, t.slot i = s.slot i) {i n : Nat} : slots t i n = slots s i n :=
  List.map_congr_left fun k _ => h k

/-- Settles O27: the packet's expansion is decoded, and the step ends. -/
theorem decRleStep : Obligations.DecRleStep := by
  intro s p rest hb ho hd hw hp hl hin
  obtain ⟨-, -, hone, -, hlen⟩ := Packet.bytes_length hp
  have hfit := fits_of_le_slotsLeft hone hl
  have hbody : loopBody s = packetStep := by simp [loopBody, ho]
  obtain ⟨w, hstep⟩ := packetStep_ok hd hp hl hin
  have hexec := (exec_eq_blockStep (i := .decRle) (by decide) ho).trans
    (blockStep_ok hb (.inr (.inl ho)) (by omega) (hbody ▸ hstep))
  obtain ⟨hindex, hsame, hslots, -⟩ := decoded_writes hw hlen hfit p.bytes.length rest w
  refine ⟨_, hexec, ?slots, ?same, ?bytes, ?index, ?position, ?phase, ?wf, endStep_decodeFrame (decoded_frame ..)⟩
  case slots => exact (slots_congr fun i => endStep_slot _ i).trans hslots
  case same => simpa [PixSameOutside] using hsame
  case bytes => exact endStep_inBytes _
  case index => exact (endStep_index _).trans hindex
  case position => exact endStep_iPos _
  case phase =>
    rw [endStep_phase, hindex]
    exact if_congr Iff.rfl rfl hb
  case wf => simpa using decoded_wf hw p.expand p.bytes.length rest w

/-- A decode step without a header byte (R167 a). -/
theorem packetStep_noHeader {s : State} (hw : Memory.wf s.pix) (h : s.inBytes = []) :
    ∃ t, packetStep s = .raised t ∧ FailedFrom (inFailure s).1 (inFailure s).2 s t := by
  obtain ⟨t, ht, hfail, -⟩ := inRead_fails (n := 1) hw (by simp [h])
  exact ⟨t, by rw [packetStep, fetchHeader, ht, Result.bind_raised, Result.bind_raised], hfail⟩

/-- A direct step without a whole pixel (R222). -/
theorem directInStep_short {s : State} (hw : Memory.wf s.pix) (h : s.inBytes.length < s.bpp) :
    ∃ t, directInStep s = .raised t ∧ FailedFrom (inFailure s).1 (inFailure s).2 s t := by
  obtain ⟨t, ht, hfail, -⟩ := decodePixel_short (i := s.index) hw h
  exact ⟨t, by rw [directInStep, ht, Result.bind_raised], hfail⟩

/-- Settles O28: the step fails as its first read does. -/
theorem shortStreamRaises : Obligations.ShortStreamRaises := by
  intro s hb hw hidx
  constructor
  · intro ho hin
    have hbody : loopBody s = packetStep := by simp [loopBody, ho]
    obtain ⟨t, ht, hfail⟩ := packetStep_noHeader hw hin
    exact ⟨t, (exec_eq_blockStep (i := .decRle) (by decide) ho).trans
      (blockStep_raised hb (.inr (.inl ho)) hidx (hbody ▸ ht)), hfail⟩
  · intro ho hshort
    have hbody : loopBody s = directInStep := by simp [loopBody, ho]
    obtain ⟨t, ht, hfail⟩ := directInStep_short hw hshort
    exact ⟨t, (exec_eq_blockStep (i := .decDirect) (by decide) ho).trans
      (blockStep_raised hb (.inl ho) hidx (hbody ▸ ht)), hfail⟩

/-- Settles O48: a step that goes on is one of `GoesOn`, whose positions `goesOn_positions` gives. -/
theorem positionsAdvance : Obligations.PositionsAdvance := by
  intro s t hinv hb hr h hok
  rw [step_of_not_due hr, if_pos hb] at h
  obtain ⟨hw, hrun, -, hin, hout, -⟩ := (systemInv_iff (by simp [hb])).1 hinv
  rcases blockStep_cases (s := countDown s) hw hb (hrun hb) with ⟨u, hg, hu⟩ | ⟨f, k, info, hf, ⟨hphase, -⟩, -⟩
  · rw [hu] at h
    cases h
    obtain ⟨hlt, hle, -, huin, -, huout, -⟩ := goesOn_positions hg hin hout
    rw [endStep_index, endStep_iPos, endStep_oPos]
    exact ⟨hlt, hle, huin, huout⟩
  · rw [hf] at h
    cases h
    exact absurd hphase hok

/-! ### The packet a header selects -/

/-- The body of the packet that a header byte selects (R163, R170). -/
def packetBody (hdr : Byte) (s : State) : Result Unit :=
  if headerMode hdr = 1#1 then rptBody (headerRunLength hdr) s else rawBody (headerRunLength hdr) s

theorem packetStep_eq_packetBody {hdr : Byte} {rest : List Byte} {s : State} (h : s.inBytes = hdr :: rest) :
    packetStep s = packetBody hdr (setHdr hdr (consumeIn 1 s)) := packetStep_cons h

theorem exec_decodePacket (hdr : Byte) (s : State) : exec (decodePacket hdr) s = (packetBody hdr s).outcome := by
  rcases headerMode_cases hdr with hmode | hmode
  · rw [decodePacket_of_repeat hmode, packetBody, if_pos hmode]
    rfl
  · rw [decodePacket_of_raw hmode, packetBody, if_neg (by rw [hmode]; decide)]
    rfl

/-! ### The phase an operation of a decode leaves -/

/-- An operation that goes on leaves phase `ph`, and one that raises leaves `FAILED` (R36, R300). -/
def Result.Phased {α : Type} (ph : Phase) : Result α → Prop
  | .ok _ t => t.phase = ph
  | .raised t => t.phase = .failed
  | .fault _ => True
  | .refused _ => True

theorem Result.phased_bind {α β : Type} {ph : Phase} {x : Result α} {f : α → State → Result β} (hx : x.Phased ph)
    (hf : ∀ a t, t.phase = ph → (f a t).Phased ph) : (x.bind f).Phased ph := by
  cases x with
  | ok a t => exact hf a t hx
  | raised t => exact hx
  | fault e => trivial
  | refused r => trivial

section Phased

variable {ph : Phase}

theorem inRead_phased (n : Nat) {s : State} (h : s.phase = ph) : (inRead n s).Phased ph := by
  unfold inRead
  split
  · exact h
  · split <;> rfl

theorem checkRun_phased (n : Nat) {s : State} (h : s.phase = ph) : (checkRun n s).Phased ph := by
  unfold checkRun
  split
  · rfl
  · exact h

theorem pixWrite_phased (i : Nat) (p : Pixel) {s : State} (h : s.phase = ph) : (pixWrite i p s).Phased ph := by
  unfold pixWrite memWrite
  split
  · exact h
  · trivial

theorem readSource_phased {s : State} (h : s.phase = ph) : (readSource s).Phased ph :=
  Result.phased_bind (inRead_phased _ h) fun _ _ h => h

theorem convertSource_phased {s : State} (h : s.phase = ph) : (convertSource s).Phased ph := by
  unfold convertSource
  split <;> exact h

theorem decodePixel_phased (i : Nat) {s : State} (h : s.phase = ph) : (decodePixel i s).Phased ph := by
  refine Result.phased_bind (readSource_phased h) fun _ _ h =>
    Result.phased_bind (convertSource_phased h) fun p _ h => ?_
  cases p with
  | none => exact h
  | some p => exact pixWrite_phased i p h

theorem writeRun_phased (p : Pixel) (n : Nat) {i : Nat} {s : State} (h : s.phase = ph) :
    (writeRun p i n s).Phased ph := by
  induction n generalizing i s with
  | zero => exact h
  | succ n ih => exact Result.phased_bind (pixWrite_phased i p h) fun _ _ h => ih h

theorem readPixels_phased (n : Nat) {i : Nat} {s : State} (h : s.phase = ph) : (readPixels i n s).Phased ph := by
  induction n generalizing i s with
  | zero => exact h
  | succ n ih => exact Result.phased_bind (decodePixel_phased i h) fun _ _ h => ih h

theorem rptBody_phased (n : Nat) {s : State} (h : s.phase = ph) : (rptBody n s).Phased ph := by
  refine Result.phased_bind (checkRun_phased n h) fun _ _ h => Result.phased_bind (readSource_phased h) fun _ _ h =>
    Result.phased_bind (convertSource_phased h) fun p _ h => Result.phased_bind ?_ fun _ _ h => h
  cases p with
  | none => exact h
  | some p => exact writeRun_phased p n h

theorem rawBody_phased (n : Nat) {s : State} (h : s.phase = ph) : (rawBody n s).Phased ph :=
  Result.phased_bind (checkRun_phased n h) fun _ _ h => Result.phased_bind (readPixels_phased n h) fun _ _ h => h

theorem packetBody_phased (hdr : Byte) {s : State} (h : s.phase = ph) : (packetBody hdr s).Phased ph := by
  unfold packetBody
  split
  · exact rptBody_phased _ h
  · exact rawBody_phased _ h

end Phased

/-- Settles O55: the step is the body of the packet that the header selects, and that body leaves phase `FAILED` exactly
where it raises. -/
theorem stepRunsFetchedPacket : Obligations.StepRunsFetchedPacket := by
  intro s hdr rest i hr hb ho hidx hin hdec
  obtain rfl : decodePacket hdr = i := by
    have hok := (decode_cons_ok (place := .packet) rfl rest).symm.trans hdec
    cases hok
    rfl
  have hfetch : { s with inBytes := rest, iPos := s.iPos + BitVec.ofNat 64 1, work := { s.work with hdr := hdr } } =
      setHdr hdr (consumeIn 1 s) := by simp [setHdr, consumeIn, hin]
  have hbody : loopBody s = packetStep := by simp [loopBody, ho]
  have hphase : (packetBody hdr (setHdr hdr (consumeIn 1 s))).Phased .busy := packetBody_phased hdr hb
  rw [step_running hr hb, blockStep_eq hb (.inr (.inl ho)), loopStep, if_pos hidx, hbody, packetStep_eq_packetBody hin,
    hfetch, exec_decodePacket]
  generalize packetBody hdr (setHdr hdr (consumeIn 1 s)) = x at hphase
  cases x with
  | ok a t =>
    have hbusy : t.phase = .busy := hphase
    simp [hbusy]
  | raised t =>
    have hfailed : t.phase = .failed := hphase
    simp [hfailed]
  | fault e => rfl
  | refused r => rfl

/-! ### Whole decodes -/

/-- The packets of a stream as chunks of a started decode. -/
theorem packets_decode {s : State} {ps : List Packet} (hd : s.depth ∈ Config.srcDepths)
    (hps : ∀ p ∈ ps, p.ok s.bpp = true) : ∀ c ∈ ps.map packetChunk, Decodes (openCommand 2#3 s) c := by
  intro c hc
  obtain ⟨p, hp, rfl⟩ := List.mem_map.1 hc
  exact packet_decodes rfl hd (hps p hp)

/-- No stream of packets that fit the image is long enough to wrap `IPOS` (R30). -/
theorem streamBytes_length_lt {s : State} {ps : List Packet} (hd : s.depth ∈ Config.srcDepths)
    (hps : ∀ p ∈ ps, p.ok s.bpp = true) (hrun : streamRun ps ≤ s.pixels) : (streamBytes ps).length < 2 ^ 64 := by
  obtain ⟨-, -, hlen, -⟩ := streamPixels_length hps
  have hpixels := pixels_lt s
  have hbpp : 1 + s.bpp ≤ 5 := by rcases bpp_of_depth hd with h | h | h <;> omega
  have hmul : streamRun ps * (1 + s.bpp) ≤ streamRun ps * 5 := Nat.mul_le_mul_left _ hbpp
  omega

/-- Settles O34: the started command runs over the packets as chunks that fill the image. -/
theorem decodeExpandsPackets : Obligations.DecodeExpandsPackets := by
  intro s ps rest hready hps hrun hin
  have hpos := pixels_pos hready
  have hexec := exec_ready (i := .decRle) (by decide) hready
  obtain ⟨-, hr, hw, -, -, hdepth⟩ := hready
  have hd := srcDepth_of_running (s := openCommand 2#3 s) hdepth (.inr rfl)
  obtain ⟨hlen, hcount, -, -⟩ := streamPixels_length hps
  have hindex : (openCommand 2#3 s).index = 0 := rfl
  have hfit : (openCommand 2#3 s).index + s.pixels = s.pixels := by rw [hindex, Nat.zero_add]
  have hne : ps ≠ [] := by
    rintro rfl
    exact hpos.ne hrun
  obtain ⟨w, tg, fc, hend⟩ := run_decode (fuel := s.pixels) (rest := rest) (s := openCommand 2#3 s) rfl (.inr rfl) hr hw
    (packets_decode hd hps) (by simpa using hne) (by rw [chunkPixels_packets, hlen, hrun]; exact hfit)
    (by rw [chunkBytes_packets]; exact hin) (by rw [List.length_map]; omega)
  rw [chunkPixels_packets, chunkBytes_packets] at hend
  obtain ⟨hdone, hsame, hslots, -⟩ := decoded_writes (s := openCommand 2#3 s) hw (hlen.trans hrun) hfit.le
    (streamBytes ps).length rest w
  refine ⟨_, ⟨_, hexec, rfl, hend, by simp [settled]⟩, rfl, hslots, hdone.trans hfit, rfl, ?_, rfl, rfl,
    fun a ha => hsame a (.inr (by rwa [hfit]))⟩
  show (0#64 + BitVec.ofNat 64 (streamBytes ps).length).toNat = _
  rw [BitVec.zero_add, BitVec.toNat_ofNat, Nat.mod_eq_of_lt (streamBytes_length_lt hd hps hrun.le)]

/-- A started decode over packets that do not fill the image is still running behind them (R171). -/
theorem runs_packets {s : State} {ps : List Packet} {rest : List Byte} (hready : ReadyFor 2#3 s)
    (hps : ∀ p ∈ ps, p.ok s.bpp = true) (hrun : streamRun ps < s.pixels) (hin : s.inBytes = streamBytes ps ++ rest)
    (fuel : Nat) :
    ∃ v, runCommand (ps.length + fuel) (openCommand 2#3 s) = runCommand fuel v ∧ v.phase = .busy ∧ v.op = 2#3 ∧
      v.resetIn = none ∧ v.pixels = s.pixels ∧ v.index = streamRun ps ∧ v.inBytes = rest ∧ Memory.wf v.pix ∧
      ∀ a, 4 * s.pixels ≤ a → Memory.get v.pix a = Memory.get s.pix a := by
  obtain ⟨-, hr, hw, -, -, hdepth⟩ := hready
  have hd := srcDepth_of_running (s := openCommand 2#3 s) hdepth (.inr rfl)
  obtain ⟨hlen, -⟩ := streamPixels_length hps
  have hindex : (openCommand 2#3 s).index = 0 := rfl
  have hfit : (openCommand 2#3 s).index + streamRun ps < s.pixels := by rwa [hindex, Nat.zero_add]
  obtain ⟨w, tg, fc, hchunks⟩ := run_chunks (fuel := fuel) (rest := rest) (s := openCommand 2#3 s) rfl (.inr rfl) hr hw
    (packets_decode hd hps) (by rw [chunkPixels_packets, hlen]; exact hfit) (by rw [chunkBytes_packets]; exact hin)
  rw [List.length_map, chunkPixels_packets, chunkBytes_packets] at hchunks
  obtain ⟨hnow, hsame, -⟩ := decoded_writes (s := openCommand 2#3 s) hw hlen hfit.le (streamBytes ps).length rest w
  exact ⟨_, hchunks, rfl, rfl, hr, rfl, hnow.trans (by rw [hindex, Nat.zero_add]), rfl,
    decoded_wf (s := openCommand 2#3 s) hw _ (streamBytes ps).length rest w,
    fun a ha => hsame a (.inr (by omega))⟩

/-- The step that meets the header of a packet longer than the slots left (R166). -/
theorem packetStep_overruns {hdr : Byte} {rest : List Byte} {s : State} (hw : Memory.wf s.pix)
    (hin : s.inBytes = hdr :: rest) (hlong : s.slotsLeft < headerRunLength hdr) :
    ∃ t, packetStep s = .raised t ∧ FailedFrom .runOverrun 0 s t := by
  obtain ⟨⟨t, ht, hfail, -⟩, ⟨u, hu, hfail', -⟩⟩ := packet_overruns (s := setHdr hdr (consumeIn 1 s)) hw hlong
  rw [packetStep_eq_packetBody hin, packetBody]
  split
  · exact ⟨t, ht, failedFrom_after (consumeHeader_kept hdr s) hfail⟩
  · exact ⟨u, hu, failedFrom_after (consumeHeader_kept hdr s) hfail'⟩

/-- The header of a packet states its run length (R93). -/
theorem encode_packet {i : Instr} {n : Nat} (hi : i = .rpt n ∨ i = .raw n) (hn : runLengthOk n = true) :
    ∃ hdr, encode i = [hdr] ∧ headerRunLength hdr = n := by
  obtain ⟨-, -, hraw, hrpt⟩ := packetHeader_fields hn
  rcases hi with rfl | rfl
  · exact ⟨_, rfl, hrpt⟩
  · exact ⟨_, rfl, hraw⟩

/-- Settles O35: the command runs over the packets, and its next step meets the header that overruns. -/
theorem crossingPacketOverruns : Obligations.CrossingPacketOverruns := by
  rintro s ps i rest hready hps hrun ⟨n, hi, hn, hcross⟩ hin
  have hexec := exec_ready (i := .decRle) (by decide) hready
  obtain ⟨hdr, henc, rfl⟩ := encode_packet hi hn
  rw [henc, List.append_assoc] at hin
  obtain ⟨-, hcount, -⟩ := streamPixels_length hps
  obtain ⟨v, hpackets, hb, ho, hr, hpixels, hindex, hhead, hw, hbefore⟩ :=
    runs_packets hready hps hrun hin (s.pixels - ps.length - 1 + 1)
  rw [show ps.length + (s.pixels - ps.length - 1 + 1) = s.pixels by omega] at hpackets
  have hbody : loopBody v = packetStep := by simp [loopBody, ho]
  obtain ⟨t, ht, hphase, hcode, hinfo, -, -, -, -, -, -, -, -, -, hafter⟩ :=
    packetStep_overruns hw hhead (by rw [State.slotsLeft]; omega)
  have hstep := blockStep_raised hb (.inr (.inl ho)) (by omega) (hbody ▸ ht)
  have hrest : t.phase ≠ .busy := by simp [hphase]
  refine ⟨t, ⟨_, hexec, rfl, ?_, hrest⟩, hphase, hcode, hinfo, fun a ha => ?_⟩
  · exact hpackets.trans ((runCommand_step hr hb hstep).trans (runCommand_rest hrest _))
  · exact (hafter a (hpixels.symm ▸ ha)).trans (hbefore a ha)

end Sys2Proof.Machine
end

section
/-! PROOFS. RLE encode: run detection, the raw scan, the two emissions, whole encodes and the round trip
(42_rle_encode.md). -/

namespace Sys2Proof.Machine

open Sys2Proof.Safety

/-! ### Run detection and the raw scan -/

/-- The run of R192: slots inside the buffer that equal slot `j`, and what stops it. -/
theorem localRun_spec (s : State) (j : Nat) :
    localRun s j ≤ s.maxRun ∧
      (∀ c, c < localRun s j → j + c < s.pixels ∧ s.slot (j + c) = s.slot j) ∧
      (localRun s j = s.maxRun ∨ s.pixels ≤ j + localRun s j ∨ s.slot (j + localRun s j) ≠ s.slot j) := by
  obtain ⟨-, hle, hequal, hstop⟩ := runFrom_spec s j s.maxRun 0
  rw [Nat.zero_add] at hle hstop
  exact ⟨hle, fun c hc => hequal c (Nat.zero_le c) hc, hstop⟩

/-- `run(j)` is 0 past the end of the buffer, and where no run is allowed (R192). -/
theorem localRun_eq_zero_iff (s : State) (j : Nat) : localRun s j = 0 ↔ s.pixels ≤ j ∨ s.maxRun = 0 := by
  constructor
  · intro hzero
    by_contra hin
    obtain ⟨hpos, -⟩ := localRun_bounds (s := s) (j := j) (by omega)
    omega
  · rintro (hend | hcap)
    · exact localRun_outside hend
    · obtain ⟨hle, -⟩ := localRun_spec s j
      omega

/-- Settles O31, by `localRun_spec`; inside the buffer `localRun_bounds` says that the run ends there. -/
theorem runDetection : Obligations.RunDetection := by
  intro s j
  obtain ⟨hle, hequal, hstop⟩ := localRun_spec s j
  have hfit : j < s.pixels → j + localRun s j ≤ s.pixels := fun hj => by
    obtain ⟨-, -, hend, -⟩ := localRun_bounds hj
    exact hend
  exact ⟨localRun_eq_zero_iff s j, hle, hfit, fun c hc => (hequal c hc).2,
    fun hj => hstop.imp_right (Or.imp_left (hfit hj).antisymm)⟩

/-- What ends the scan of R196, where it begins inside the buffer: the cap of D28, or a position whose run is not 1. -/
theorem rawCount_stops {s : State} {i : Nat} (hi : i < s.pixels) :
    rawCount s i = s.maxRun ∨ localRun s (i + rawCount s i) ≠ 1 := by
  have hcap := maxRun_pos (width_ne_zero_of_lt hi)
  obtain ⟨-, -, -, hstop⟩ := gather_spec s i (s.maxRun - 1) 1
  rwa [Nat.add_sub_cancel' hcap] at hstop

/-- Settles O32: a position inside the buffer whose run is not 1 opens a run of at least 2. -/
theorem rawScan : Obligations.RawScan := by
  intro s i hi hone
  obtain ⟨hpos, hle, hfit, hsingle⟩ := rawCount_bounds hi hone
  refine ⟨hpos, hle, hfit, hsingle, (rawCount_stops hi).imp_right fun hstop => ?_⟩
  rcases hfit.eq_or_lt with hend | hin
  · exact .inl hend
  · obtain ⟨hrun, -⟩ := localRun_bounds hin
    exact .inr (by omega)

/-! ### One step -/

/-- A step of `ENC_RLE` that OUT can take appends the packet `emission` names and goes on behind its run (R193). -/
theorem exec_encRle_ok {s : State} (hb : s.phase = .busy) (ho : s.op = 4#3) (hd : s.depth ∈ Config.dstDepths)
    (hi : s.index < s.pixels) (hroom : roomFor (emission s).bytes.length s) :
    ∃ t, exec .encRle s = .next t ∧ t.outBytes = s.outBytes ++ (emission s).bytes ∧
      t.index = s.index + (emission s).run ∧ t.oPos = s.oPos + BitVec.ofNat 64 (emission s).bytes.length ∧
      t.phase = phaseAt (s.index + (emission s).run) s ∧ t.outRoom = roomAfter (emission s).bytes.length s ∧
      EncodeFrame s t := by
  obtain ⟨-, -, -, hfit, -⟩ := emission_ok hd hi
  have hindex := fun w tg => encoded_index (bs := (emission s).bytes) (w := w) (tg := tg) hfit
  have hbody : loopBody s = emitStep := by simp [loopBody, ho]
  obtain ⟨w, tg, hstep⟩ := emitStep_ok hd hi hroom
  have hexec := (exec_eq_blockStep (i := .encRle) (by decide) ho).trans
    (blockStep_ok hb (.inr (.inr (.inr ho))) hi (hbody ▸ hstep))
  refine ⟨_, hexec, endStep_outBytes _, (endStep_index _).trans (hindex w tg), endStep_oPos _, ?phase, endStep_outRoom _,
    endStep_encodeFrame (encoded_frame ..)⟩
  case phase =>
    rw [endStep_phase, hindex]
    exact if_congr Iff.rfl rfl hb

/-- On a run of two or more the packet is a repeat packet of it (R195). -/
theorem emission_of_run {s : State} (hd : s.depth ∈ Config.dstDepths) (h : 2 ≤ localRun s s.index) :
    (emission s).run = localRun s s.index ∧
      (emission s).bytes = encode (.rpt (localRun s s.index)) ++ wireBytes s.bpp [s.slot s.index] := by
  rw [wireBytes_one (bpp_of_targetDepth hd), emission, if_pos h]
  exact ⟨rfl, rfl⟩

/-- On an isolated pixel the packet is a raw packet of the scan's pixels (R196). -/
theorem emission_of_single {s : State} (hd : s.depth ∈ Config.dstDepths) (h : localRun s s.index = 1) :
    (emission s).run = rawCount s s.index ∧
      (emission s).bytes =
        encode (.raw (rawCount s s.index)) ++ wireBytes s.bpp (slots s s.index (rawCount s s.index)) := by
  have hlen : ((slots s s.index (rawCount s s.index)).map (targetBytes s.bpp)).length = rawCount s s.index := by simp
  rw [wireBytes_eq (bpp_of_targetDepth hd), emission, if_neg (by omega)]
  simp only [Packet.run, Packet.bytes, Packet.instr, Packet.payload, hlen, and_self]

/-- Settles O29: the step appends the repeat packet of the run. -/
theorem encRleRepeatStep : Obligations.EncRleRepeatStep := by
  intro s hb ho hd hi hroom hrun
  have hlen := emission_bytes_length hd
  rw [if_pos hrun] at hlen
  obtain ⟨hn, hbytes⟩ := emission_of_run hd hrun
  have hstep := exec_encRle_ok hb ho hd hi (hlen ▸ hroom)
  rwa [hlen, hn, hbytes, ← List.append_assoc] at hstep

/-- Settles O30: the step appends the raw packet of the gathered pixels. -/
theorem encRleRawStep : Obligations.EncRleRawStep := by
  intro s hb ho hd hi hroom hone
  have hlen := emission_bytes_length hd
  rw [if_neg (by omega)] at hlen
  obtain ⟨hn, hbytes⟩ := emission_of_single hd hone
  have hstep := exec_encRle_ok hb ho hd hi (hlen ▸ hroom)
  rwa [hlen, hn, hbytes, ← List.append_assoc] at hstep

/-! ### Whole encodes -/

/-- The packet stream of the image in `s` (R198, R203): its packets are bounded, cover the image and expand to its pixels
through `DEPTH`; `ENC_RLE` appends it into every sink that has room for it, and fails in every other (R65). -/
structure EncodedStream (s : State) (ps : List Packet) : Prop where
  run : streamRun ps = s.pixels
  pixels : streamPixels ps = (slots s 0 s.pixels).map (throughDepth s.depth)
  bounded : ∀ p ∈ ps, p.ok s.bpp = true ∧ 1 ≤ p.run ∧ p.run ≤ s.maxRun ∧ ∀ n px, p = .rpt n px → 2 ≤ n
  appended : ∀ room, roomHolds (streamBytes ps).length room →
    ∃ t, RunsTo .encRle { s with outRoom := room } t ∧ t.phase = .done ∧ t.index = s.pixels ∧ t.pix = s.pix
      ∧ t.outBytes = s.outBytes ++ streamBytes ps ∧ t.oPos.toNat = (streamBytes ps).length
  refused : ∀ room, ¬ roomHolds (streamBytes ps).length room →
    ∃ t, RunsTo .encRle { s with outRoom := room } t ∧ t.phase = .failed

theorem dstDepth_of_ready {s : State} (h : ReadyFor 4#3 s) : s.depth ∈ Config.dstDepths := by
  obtain ⟨-, -, -, -, -, hdepth⟩ := h
  exact dstDepth_of_running (s := openCommand 4#3 s) hdepth (.inr rfl)

/-- A depth that an encode accepts is one that a decode accepts (R9, R46). -/
theorem srcDepth_of_dstDepth {d : Byte} (h : d ∈ Config.dstDepths) : d ∈ Config.srcDepths := List.mem_cons_of_mem _ h

/-- Where a started encode stands after all slots were emitted as `bs` (R31, R32). -/
theorem encoded_image {op : BitVec 3} {s : State} {bs : List Byte} (h : bs.length < 2 ^ 64) (w : Working)
    (tg : List Byte) : (encoded s.pixels bs w tg (openCommand op s)).index = s.pixels ∧
      (encoded s.pixels bs w tg (openCommand op s)).oPos.toNat = bs.length := by
  have hindex : (openCommand op s).index + s.pixels = s.pixels := Nat.zero_add _
  refine ⟨(encoded_index hindex.le).trans hindex, ?_⟩
  show (0#64 + BitVec.ofNat 64 bs.length).toNat = _
  rw [BitVec.zero_add, BitVec.toNat_ofNat, Nat.mod_eq_of_lt h]

/-- Every image has its stream: `run_encRle` from the start of the command. -/
theorem exists_encodedStream {s : State} (hready : ReadyFor 4#3 s) : ∃ ps, EncodedStream s ps := by
  have hsome := pixels_pos hready
  have hd := dstDepth_of_ready hready
  have hexec := fun room => exec_ready (i := .encRle) (s := { s with outRoom := room }) (by decide) hready
  obtain ⟨-, hreset, -⟩ := hready
  obtain ⟨ps, hrun, hpixels, hbounded, hends⟩ := run_encRle (s := openCommand 4#3 s) (k := s.pixels) rfl hd hsome
  have hlen := streamBytes_length_lt (s := s) (srcDepth_of_dstDepth hd) (fun p hp => (hbounded p hp).1) hrun.le
  have hstart : ∀ room, EncodesFrom 4#3 (openCommand 4#3 s) (openCommand 4#3 { s with outRoom := room }) :=
    fun room => ⟨rfl, rfl, hreset, rfl, rfl, rfl, rfl, rfl⟩
  have hruns := fun room => hends _ s.pixels (hstart room) (Nat.le_refl _)
  refine ⟨ps, hrun, hpixels, hbounded, fun room hroom => ?_, fun room hroom => ?_⟩
  · obtain ⟨w, tg, fc, hend⟩ := (hruns room).1 hroom
    obtain ⟨hindex, hpos⟩ := encoded_image (op := 4#3) (s := { s with outRoom := room }) hlen w tg
    exact ⟨_, ⟨_, hexec room, rfl, hend, by simp [settled]⟩, rfl, hindex, rfl, rfl, hpos⟩
  · obtain ⟨t, hend, hfailed⟩ := (hruns room).2 hroom
    exact ⟨t, ⟨_, hexec room, rfl, hend, by simp [hfailed]⟩, hfailed⟩

/-- Settles O38: the stream is the one `exists_encodedStream` gives. -/
theorem encodeEmitsBoundedPackets : Obligations.EncodeEmitsBoundedPackets := by
  intro s hready
  obtain ⟨ps, hps⟩ := exists_encodedStream hready
  exact ⟨ps, hps.run, hps.bounded, hps.appended⟩

/-! ### The size of an encode -/

/-- A command has one end. -/
theorem runsTo_unique {i : Instr} {s t u : State} (ht : RunsTo i s t) (hu : RunsTo i s u) : t = u := by
  obtain ⟨b, hb, -, htrun, -⟩ := ht
  obtain ⟨c, hc, -, hurun, -⟩ := hu
  obtain rfl : b = c := by simpa [hb] using hc
  simpa [htrun] using hurun

/-- An encode that ends with `DONE` had the room for its stream, and `OPOS` is the stream's length. -/
theorem EncodedStream.oPos_of_done {s t : State} {ps : List Packet} (hps : EncodedStream s ps)
    (hruns : RunsTo .encRle s t) (hdone : t.phase = .done) : t.oPos.toNat = (streamBytes ps).length := by
  by_cases hroom : roomHolds (streamBytes ps).length s.outRoom
  · obtain ⟨u, hu, -, -, -, -, hpos⟩ := hps.appended s.outRoom hroom
    rwa [runsTo_unique hruns hu]
  · obtain ⟨u, hu, hfailed⟩ := hps.refused s.outRoom hroom
    rw [runsTo_unique hruns hu, hfailed] at hdone
    cases hdone

/-- Packets of at most `m` pixels each cover at most `m` times their number. -/
theorem streamRun_le {m : Nat} {ps : List Packet} (h : ∀ p ∈ ps, p.run ≤ m) : streamRun ps ≤ ps.length * m := by
  have hsum := List.sum_le_card_nsmul (ps.map Packet.run) m (by simpa using h)
  simpa [streamRun] using hsum

/-- Settles O39: each packet has at least `1 + bpp` bytes for at most `m` pixels, and at most `1 + bpp` bytes a pixel. -/
theorem encodeSizeBounds : Obligations.EncodeSizeBounds := by
  intro s t hready hruns hdone
  obtain ⟨ps, hps⟩ := exists_encodedStream hready
  obtain ⟨-, -, -, hwidth, -⟩ := hready
  obtain ⟨-, -, hupper, hlower⟩ := streamPixels_length fun p hp => (hps.bounded p hp).1
  have hcapped : ∀ p ∈ ps, p.run ≤ s.maxRun := fun p hp => by
    obtain ⟨-, -, hle, -⟩ := hps.bounded p hp
    exact hle
  have hcover := streamRun_le hcapped
  have hcap := maxRun_pos hwidth
  rw [hps.run] at hupper hcover
  rw [hps.oPos_of_done hruns hdone]
  have hcount : (s.pixels + s.maxRun - 1) / s.maxRun ≤ ps.length :=
    Nat.le_of_lt_succ ((Nat.div_lt_iff_lt_mul hcap).2 (by rw [Nat.succ_mul]; omega))
  exact ⟨(Nat.mul_le_mul_right _ hcount).trans hlower, hupper⟩

/-! ### Images of width 1 -/

/-- The bytes of a source pixel are those of the canonical pixel it gives (R143). -/
theorem wireBytes_pixelOfSource {b : Nat} (hb : b = 3 ∨ b = 4) {px : List Byte} (h : px.length = b) :
    wireBytes b [pixelOfSource px] = px := by
  subst h
  match px, hb with
  | [_, _, _], _ => rfl
  | [_, _, _, _], _ => rfl

/-- A trip through `DEPTH` does not change a pixel's bytes at that depth (R143). -/
theorem wireBytes_throughDepth {s : State} (hd : s.depth ∈ Config.dstDepths) (p : Pixel) :
    wireBytes s.bpp [throughDepth s.depth p] = wireBytes s.bpp [p] := by
  have hb := bpp_of_targetDepth hd
  rw [← throughDepth_pixelOfSource hd, wireBytes_pixelOfSource hb (targetBytes_length hb p), wireBytes_one hb]

/-- A packet of one pixel that is no repeat packet is `00` and the pixel's bytes (R93, R196). -/
theorem Packet.bytes_of_single {b : Nat} (hb : b = 3 ∨ b = 4) {p : Packet} (hok : p.ok b = true) (hone : p.run = 1)
    (hraw : ∀ n px, p = .rpt n px → 2 ≤ n) : ∃ q, p.expand = [q] ∧ p.bytes = 0x00#8 :: wireBytes b [q] := by
  match p, hone with
  | .rpt n px, hone =>
    have hn : n = 1 := hone
    have := hraw n px rfl
    omega
  | .raw [px], _ =>
    simp only [Packet.ok, Bool.and_eq_true, List.all_eq_true, decide_eq_true_eq] at hok
    have hheader : packetHeader 0#1 1 = 0x00#8 := by decide
    refine ⟨pixelOfSource px, rfl, ?_⟩
    rw [wireBytes_pixelOfSource hb (hok.2 px List.mem_cons_self), Packet.bytes, Packet.payload, List.flatten_singleton,
      ← hheader]
    rfl

/-- A stream of such packets is `00` and the bytes of each of its pixels in order. -/
theorem streamBytes_of_singles {b : Nat} {ps : List Packet}
    (h : ∀ p ∈ ps, ∃ q, p.expand = [q] ∧ p.bytes = 0x00#8 :: wireBytes b [q]) :
    streamBytes ps = (streamPixels ps).flatMap fun q => 0x00#8 :: wireBytes b [q] := by
  induction ps with
  | nil => rfl
  | cons p ps ih =>
    obtain ⟨q, hexpand, hbytes⟩ := h p List.mem_cons_self
    show p.bytes ++ streamBytes ps = (p.expand ++ streamPixels ps).flatMap _
    rw [ih fun r hr => h r (List.mem_cons_of_mem _ hr), hexpand, hbytes]
    rfl

/-- Settles O40: with `maxRunLen` 1 every packet is a raw packet of one pixel, and both bounds of R204 are
`N × (1 + bpp)`. -/
theorem widthOneEncodesSingly : Obligations.WidthOneEncodesSingly := by
  intro s hready hroom hwidth
  have hd := dstDepth_of_ready hready
  have hmax : s.maxRun = 1 := by simp [State.maxRun, Config.maxPacketRun, hwidth]
  obtain ⟨ps, hps⟩ := exists_encodedStream hready
  have hsingle : ∀ p ∈ ps, ∃ q, p.expand = [q] ∧ p.bytes = 0x00#8 :: wireBytes s.bpp [q] := by
    intro p hp
    obtain ⟨hok, hpos, hle, hraw⟩ := hps.bounded p hp
    exact Packet.bytes_of_single (bpp_of_targetDepth hd) hok (by omega) hraw
  obtain ⟨-, -, hupper, -⟩ := streamPixels_length fun p hp => (hps.bounded p hp).1
  rw [hps.run] at hupper
  obtain ⟨t, hruns, hdone, -, -, hout, -⟩ := hps.appended s.outRoom (roomFor_mono hroom hupper)
  obtain ⟨hlow, hhigh⟩ := encodeSizeBounds s t hready hruns hdone
  rw [hmax, Nat.add_sub_cancel, Nat.div_one] at hlow
  refine ⟨t, hruns, hdone, ?_, hhigh.antisymm hlow⟩
  rw [hout, streamBytes_of_singles hsingle, hps.pixels, List.flatMap_map]
  simp only [wireBytes_throughDepth hd]

/-! ### The round trip -/

/-- The listed pixel `j` of the first `n` slots is slot `j`. -/
theorem slot_of_slots {s : State} {n : Nat} {ps : List Pixel} (h : slots s 0 n = ps) {j : Nat} (hj : j < n) :
    ps[j]? = some (s.slot j) := by
  subst h
  simp [slots, hj]

/-- Settles O41: the bytes are the image's packet stream, which O34 expands to the image's pixels. -/
theorem rleRoundTrip : Obligations.RleRoundTrip := by
  intro s hready
  obtain ⟨ps, hps⟩ := exists_encodedStream hready
  refine ⟨streamBytes ps, fun room hroom => ?_, fun u rest hu hw hh hd hin => ?_⟩
  · obtain ⟨t, hruns, hdone, -, -, hout, hpos⟩ := hps.appended room hroom
    exact ⟨t, hruns, hdone, hout, hpos⟩
  · have hpixels : u.pixels = s.pixels := by simp only [State.pixels, hw, hh]
    have hbpp : u.bpp = s.bpp := by simp only [State.bpp, hd]
    obtain ⟨v, hruns, hdone, hslots, -, hrest, hpos, -⟩ := decodeExpandsPackets u ps rest hu
      (fun p hp => hbpp ▸ (hps.bounded p hp).1) (hps.run.trans hpixels.symm) hin
    refine ⟨v, hruns, hdone, hrest, hpos, fun j hj => ?_⟩
    rw [hpixels, hps.pixels] at hslots
    have hv := slot_of_slots hslots hj
    rw [List.getElem?_map, slot_of_slots rfl hj] at hv
    exact (Option.some.inj hv).symm

end Sys2Proof.Machine
end

section
/-! PROOFS. The direct transfers, step by step and as whole commands, their round trip, and `CLR`
(43_direct_and_control.md). -/

namespace Sys2Proof.Machine

open Sys2Proof.Safety

/-! ### One step -/

/-- A running `DEC_DIRECT` whose body goes on answers the state after the end of the step (R222). -/
theorem blockStep_decDirect {s u : State} (hb : s.phase = .busy) (ho : s.op = 1#3) (hidx : s.index < s.pixels)
    (h : directInStep s = .ok () u) : blockStep s = .next (endStep u) := by
  have hbody : loopBody s = directInStep := by simp [loopBody, ho]
  exact blockStep_ok hb (.inl ho) hidx (hbody ▸ h)

/-- A running `ENC_DIRECT` whose body goes on answers the state after the end of the step (R224). -/
theorem blockStep_encDirect {s u : State} (hb : s.phase = .busy) (ho : s.op = 3#3) (hidx : s.index < s.pixels)
    (h : directOutStep s = .ok () u) : blockStep s = .next (endStep u) := by
  have hbody : loopBody s = directOutStep := by simp [loopBody, ho]
  exact blockStep_ok hb (.inr (.inr (.inl ho))) hidx (hbody ▸ h)

/-- The end of a step that leaves `PIXIDX` at `i` (R36). -/
theorem endStep_phaseAt {s u : State} {i : Nat} (hb : u.phase = .busy) (hpixels : u.pixels = s.pixels)
    (hi : u.index = i) : (endStep u).phase = phaseAt i s := by
  rw [endStep_phase, hi, hpixels, hb, phaseAt]

theorem encoded_oPos (n : Nat) (bs : List Byte) (w : Working) (tg : List Byte) (s : State) :
    (encoded n bs w tg s).oPos = s.oPos + BitVec.ofNat 64 bs.length := rfl

theorem encoded_outRoom (n : Nat) (bs : List Byte) (w : Working) (tg : List Byte) (s : State) :
    (encoded n bs w tg s).outRoom = roomAfter bs.length s := rfl

/-- Settles O25: the source pixel is decoded into slot `PIXIDX`, and the step ends. -/
theorem decDirectStep : Obligations.DecDirectStep := by
  intro s px rest hb ho hd hw hidx hp hin
  obtain ⟨w, hstep⟩ := directInStep_ok hd hidx hp hin
  have hexec := (exec_eq_blockStep (i := .decDirect) (by decide) ho).trans (blockStep_decDirect hb ho hidx hstep)
  obtain ⟨hindex, hsame, -, hslot⟩ := decoded_writes (ps := [pixelOfSource px]) hw rfl hidx s.bpp rest w
  refine ⟨_, hexec, ?slot, ?same, endStep_inBytes _, (endStep_index _).trans hindex, endStep_iPos _,
    endStep_phaseAt hb rfl hindex, ?wf, endStep_decodeFrame (decoded_frame ..)⟩
  case slot => exact (endStep_slot _ _).trans (hslot 0 Nat.one_pos)
  case same => simpa [PixSameOutside] using hsame
  case wf => simpa using decoded_wf hw [pixelOfSource px] s.bpp rest w

/-- Settles O26: the bytes of slot `PIXIDX` are emitted, and the step ends. -/
theorem encDirectStep : Obligations.EncDirectStep := by
  intro s hb ho hd hidx hroom
  have hbpp := bpp_of_targetDepth hd
  obtain ⟨w, tg, hstep⟩ := directOutStep_ok hd hidx hroom
  rw [wireBytes_one hbpp] at hstep
  have hexec := (exec_eq_blockStep (i := .encDirect) (by decide) ho).trans (blockStep_encDirect hb ho hidx hstep)
  have hindex : (encoded 1 (targetBytes s.bpp (s.slot s.index)) w tg s).index = s.index + 1 := encoded_index hidx
  have hlen := targetBytes_length hbpp (s.slot s.index)
  refine ⟨_, _, hexec, fromRgba_ok hbpp _, endStep_outBytes _, (endStep_index _).trans hindex, ?position,
    endStep_phaseAt hb rfl hindex, ?room, endStep_encodeFrame (encoded_frame ..)⟩
  case position => rw [endStep_oPos, encoded_oPos, hlen]
  case room => rw [endStep_outRoom, encoded_outRoom, hlen]

/-! ### The conversion a step runs -/

/-- A pixel of IN crosses the converter between its read and its write to a slot (R222). -/
theorem decodePixel_of_toRgba {i : Nat} {px rest : List Byte} {p : Pixel} {s : State} (hn : px.length = s.bpp)
    (hin : s.inBytes = px ++ rest) (hp : toRgba s.bpp (setS px (consumeIn s.bpp s)).work.s = some p) :
    decodePixel i s = pixWrite i p (setP p (setS px (consumeIn s.bpp s))) := by
  have hconvert : convertSource (setS px (consumeIn s.bpp s)) = .ok (some p) (setP p (setS px (consumeIn s.bpp s))) := by
    rw [convertSource, setS_bpp, consumeIn_bpp, hp]
  rw [decodePixel, readSource_append hn hin, Result.bind_ok, hconvert, Result.bind_ok]

/-- The reverse conversion gives as many bytes as were asked for (R136). -/
theorem fromRgba_length {n : Nat} {p : Pixel} {bs : List Byte} (h : fromRgba n p = some bs) : bs.length = n := by
  have hn : n = 3 ∨ n = 4 := by
    by_contra hne
    rw [(fromRgba_eq_none_iff n p).2 (not_or.1 hne)] at h
    cases h
  obtain rfl : targetBytes n p = bs := Option.some.inj ((fromRgba_ok hn p).symm.trans h)
  exact targetBytes_length hn p

/-- A slot crosses the converter between its read and the append of its bytes (R224). -/
theorem encodePixel_of_fromRgba {i : Nat} {bs : List Byte} {s : State} (hi : i < s.pixels)
    (h : fromRgba s.bpp (s.slot i) = some bs) : encodePixel i s = outWrite bs (setTarget bs (setP (s.slot i) s)) := by
  rw [encodePixel, pixRead_ok hi, Result.bind_ok, h]

/-- Settles O56: the selected operation is the conversion that `decodePixel` and `encodePixel` make. -/
theorem stepRunsSelectedConversion : Obligations.StepRunsSelectedConversion := by
  constructor
  · intro s px rest i hr hb ho hidx hin hn hdec
    obtain ⟨p, hp, hexec⟩ := exec_of_decodeForward (s := setS px (consumeIn s.bpp s)) (decode_singleton hdec)
    have hwrite := pixWrite_ok (s := setP p (setS px (consumeIn s.bpp s))) hidx p
    refine ⟨_, _, hexec, hwrite, ?_⟩
    refine (step_running hr hb).trans (blockStep_decDirect hb ho hidx ?_)
    rw [directInStep, decodePixel_of_toRgba hn hin hp, hwrite, Result.bind_ok]
  · intro s i hr hb ho hidx hroom hdec
    obtain ⟨bs, hbs, hexec⟩ := exec_of_decodeReverse (s := setP (s.slot s.index) s) (decode_singleton hdec)
    have hfits : roomFor bs.length s := (fromRgba_length hbs).symm ▸ hroom
    have hwrite := outWrite_ok (s := setTarget bs (setP (s.slot s.index) s)) hfits
    refine ⟨_, _, hexec, hwrite, ?_⟩
    refine (step_running hr hb).trans (blockStep_encDirect hb ho hidx ?_)
    rw [directOutStep, encodePixel_of_fromRgba hidx hbs, hwrite, Result.bind_ok]

/-! ### Whole direct commands -/

/-- No direct transfer is long enough to wrap `IPOS` or `OPOS` (R30, R31). -/
theorem pixels_mul_bpp_lt {s : State} (h : s.bpp ≤ 4) : s.pixels * s.bpp < 2 ^ 64 := by
  have hpixels := pixels_lt s
  have hmul : s.pixels * s.bpp ≤ s.pixels * 4 := Nat.mul_le_mul_left _ h
  omega

/-- The chunk of one source pixel (R222). -/
def pixelChunk (px : List Byte) : Chunk := ⟨[pixelOfSource px], px⟩

theorem chunkPixels_sourcePixels (pss : List (List Byte)) :
    chunkPixels (pss.map pixelChunk) = pss.map pixelOfSource := by
  rw [chunkPixels, List.map_map, ← List.flatMap_def]
  exact List.flatMap_pure_eq_map _ _

theorem chunkBytes_sourcePixels (pss : List (List Byte)) : chunkBytes (pss.map pixelChunk) = pss.flatten := by
  rw [chunkBytes, List.map_map]
  exact congrArg List.flatten (List.map_id pss)

/-- Settles O36: the started command runs over the source pixels as chunks that fill the image. -/
theorem directDecodeFillsImage : Obligations.DirectDecodeFillsImage := by
  intro s pss rest hready hpss hcount hin
  have hpos := pixels_pos hready
  have hexec := exec_ready (i := .decDirect) (by decide) hready
  obtain ⟨-, hr, hw, -, -, hdepth⟩ := hready
  have hd := srcDepth_of_running (s := openCommand 1#3 s) hdepth (.inl rfl)
  have hbpp : s.bpp ≤ 4 := bpp_le_of_depth (s := openCommand 1#3 s) hdepth
  have hlen : (pss.map pixelOfSource).length = s.pixels := (List.length_map _).trans hcount
  have hbytes : pss.flatten.length = s.pixels * s.bpp := hcount ▸ flatten_length hpss
  have hindex : (openCommand 1#3 s).index = 0 := rfl
  have hfit : (openCommand 1#3 s).index + s.pixels = s.pixels := by rw [hindex, Nat.zero_add]
  have hne : pss ≠ [] := by
    rintro rfl
    exact hpos.ne hcount
  have hchunks : ∀ c ∈ pss.map pixelChunk, Decodes (openCommand 1#3 s) c := by
    intro c hc
    obtain ⟨px, hpx, rfl⟩ := List.mem_map.1 hc
    exact pixel_decodes rfl hd (hpss px hpx)
  obtain ⟨w, tg, fc, hend⟩ := run_decode (fuel := s.pixels) (rest := rest) (s := openCommand 1#3 s) rfl (.inl rfl) hr hw
    hchunks (by simpa using hne) (by rw [chunkPixels_sourcePixels, hlen]; exact hfit)
    (by rw [chunkBytes_sourcePixels]; exact hin) (by rw [List.length_map, hcount])
  rw [chunkPixels_sourcePixels, chunkBytes_sourcePixels, hbytes] at hend
  obtain ⟨hdone, -, hslots, -⟩ := decoded_writes (s := openCommand 1#3 s) hw hlen hfit.le (s.pixels * s.bpp) rest w
  refine ⟨_, ⟨_, hexec, rfl, hend, by simp [settled]⟩, rfl, hslots, hdone.trans hfit, ?_, rfl⟩
  show (0#64 + BitVec.ofNat 64 (s.pixels * s.bpp)).toNat = _
  rw [BitVec.zero_add, BitVec.toNat_ofNat, Nat.mod_eq_of_lt (pixels_mul_bpp_lt hbpp)]

theorem dstDepth_of_readyDirect {s : State} (h : ReadyFor 3#3 s) : s.depth ∈ Config.dstDepths := by
  obtain ⟨-, -, -, -, -, hdepth⟩ := h
  exact dstDepth_of_running (s := openCommand 3#3 s) hdepth (.inl rfl)

/-- Settles O37: `run_encDirect` from the start of the command. -/
theorem directEncodeWritesImage : Obligations.DirectEncodeWritesImage := by
  intro s hready hroom
  have hpos := pixels_pos hready
  have hd := dstDepth_of_readyDirect hready
  have hexec := exec_ready (i := .encDirect) (by decide) hready
  obtain ⟨-, hr, -, -, -, hdepth⟩ := hready
  have hbpp : s.bpp ≤ 4 := bpp_le_of_depth (s := openCommand 3#3 s) hdepth
  have hlen : (wireBytes s.bpp (slots s 0 s.pixels)).length = s.pixels * s.bpp := by
    rw [wireBytes_length (bpp_of_targetDepth hd), slots_length]
  obtain ⟨w, tg, fc, hend⟩ := run_encDirect (k := s.pixels) (s := openCommand 3#3 s) rfl rfl rfl hr hroom hd hpos
    (Nat.le_refl _)
  obtain ⟨hindex, hposition⟩ := encoded_image (op := 3#3) (hlen.symm ▸ pixels_mul_bpp_lt hbpp) w tg
  exact ⟨_, ⟨_, hexec, rfl, hend, by simp [settled]⟩, rfl, rfl, hindex, hposition.trans hlen, rfl⟩

/-! ### The round trip -/

/-- Settles O42: the bytes are source pixels, which O36 decodes to the slots' trips through `DEPTH`. -/
theorem directRoundTrip : Obligations.DirectRoundTrip := by
  intro s hready hroom
  have hd := dstDepth_of_readyDirect hready
  have htarget := bpp_of_targetDepth hd
  obtain ⟨t, hruns, hdone, hout, -⟩ := directEncodeWritesImage s hready hroom
  refine ⟨t, _, hruns, hdone, hout, fun u rest hu hw hh hdepth hin => ?_⟩
  have hpixels : u.pixels = s.pixels := by simp only [State.pixels, hw, hh]
  have hbpp : u.bpp = s.bpp := by simp only [State.bpp, hdepth]
  have hwidths : ∀ px ∈ (slots s 0 s.pixels).map (targetBytes s.bpp), px.length = u.bpp := by
    intro px hpx
    obtain ⟨p, -, rfl⟩ := List.mem_map.1 hpx
    exact (targetBytes_length htarget p).trans hbpp.symm
  rw [wireBytes_eq htarget] at hin
  obtain ⟨v, hruns', hdone', hslots, -, hposition, hrest⟩ := directDecodeFillsImage u _ rest hu hwidths
    (by rw [List.length_map, slots_length, hpixels]) hin
  rw [hpixels, hbpp] at hposition
  refine ⟨v, hruns', hdone', hrest, hposition, fun j hj => ?_⟩
  rw [hpixels] at hslots
  have hv := slot_of_slots hslots hj
  rw [List.getElem?_map, List.getElem?_map, slot_of_slots rfl hj] at hv
  exact (Option.some.inj hv).symm.trans (throughDepth_pixelOfSource hd _)

/-! ### `CLR` -/

theorem exec_clr {s : State} (h : s.phase ≠ .busy) : exec .clr s = .next (clearRegisters s) := if_neg h

/-- Settles O22, by `exec_clr`: `clearRegisters` writes the reset values and no space. -/
theorem clrResetsRegisters : Obligations.ClrResetsRegisters := fun _ h =>
  ⟨_, exec_clr h, rfl, rfl, rfl, rfl, rfl, rfl, rfl, rfl, rfl, rfl, rfl, rfl, rfl, rfl, rfl, rfl, rfl⟩

end Sys2Proof.Machine
end

section
/-! PROOFS. The header codec, opacity, and the order of the Decoder's checks (44_host_codec_context.md). -/

namespace Sys2Proof.Machine

open Sys2Proof.Safety

/-! ### Two-byte fields -/

/-- The value of a two-byte field is its low byte plus 256 times its high byte (R241). -/
theorem u16_toNat (lo hi : Byte) : (u16 lo hi).toNat = lo.toNat + 256 * hi.toNat := by
  rw [u16, BitVec.toNat_append, ← Nat.shiftLeft_add_eq_or_of_lt lo.isLt, Nat.shiftLeft_eq]
  omega

theorem u16Bytes_u16 (lo hi : Byte) : u16Bytes (u16 lo hi) = [lo, hi] := by
  rw [u16Bytes, u16, BitVec.extractLsb'_append_eq_right, BitVec.extractLsb'_append_eq_left]

theorem u16_of_u16Bytes (v : BitVec 16) : u16 (v.extractLsb' 0 8) (v.extractLsb' 8 8) = v :=
  (BitVec.extractLsb'_append_extractLsb'_eq_extractLsb' (len₁ := 8) (len₂ := 8) rfl).trans BitVec.extractLsb'_eq_self

/-! ### Header parse and serialize -/

/-- A serialized header parses to itself, whatever follows it (R243, R244). -/
theorem parseHeader_headerBytes (h : Header) (rest : List Byte) :
    parseHeader (headerBytes h ++ rest) = some (h, rest) := by
  simp [headerBytes, u16Bytes, parseHeader, u16_of_u16Bytes]

/-- What parses as a header has at least 18 bytes (R243). -/
theorem parseHeader_short {bs : List Byte} (hlen : bs.length < 18) : parseHeader bs = none := by
  unfold parseHeader
  split
  · simp only [List.length_cons] at hlen
    omega
  · rfl

/-- Eighteen bytes are the serialization of the header whose fields stand at their offsets (R241). -/
theorem exists_headerBytes_eq {bs : List Byte} (hlen : bs.length = 18) :
    ∃ h : Header, headerBytes h = bs
      ∧ h.idLen = bs.getD 0 0 ∧ h.colormapType = bs.getD 1 0 ∧ h.imageType = bs.getD 2 0
      ∧ h.colormapOffset.toNat = wordAt bs 3 ∧ h.colormapLength.toNat = wordAt bs 5 ∧ h.colormapDepth = bs.getD 7 0
      ∧ h.imageX.toNat = wordAt bs 8 ∧ h.imageY.toNat = wordAt bs 10 ∧ h.imageWidth.toNat = wordAt bs 12
      ∧ h.imageHeight.toNat = wordAt bs 14 ∧ h.imageDepth = bs.getD 16 0 ∧ h.imageDescriptor = bs.getD 17 0 :=
  match bs, hlen with
  | [b0, b1, b2, b3, b4, b5, b6, b7, b8, b9, b10, b11, b12, b13, b14, b15, b16, b17], _ =>
    ⟨⟨b0, b1, b2, u16 b3 b4, u16 b5 b6, b7, u16 b8 b9, u16 b10 b11, u16 b12 b13, u16 b14 b15, b16, b17⟩,
      by simp only [headerBytes, u16Bytes_u16]; rfl, rfl, rfl, rfl, u16_toNat .., u16_toNat .., rfl, u16_toNat ..,
      u16_toNat .., u16_toNat .., u16_toNat .., rfl, rfl⟩

/-! ### The Decoder's checks -/

section Checks

variable {allocates : Bool} {stream rest : List Byte} {ending : Option ErrWord} {h : Header} {s : State}

theorem decodeImage_short (hlen : stream.length < 18) :
    decodeImage allocates stream none s = .error .missingHeader 0 s := by
  simp only [decodeImage, parseHeader_short hlen, shortHeader]

theorem decodeImage_badDepth (hdepth : h.imageDepth ∉ Config.srcDepths) :
    decodeImage allocates (headerBytes h ++ rest) ending s = .error .unsupportedBitdepth 0 s := by
  simp only [decodeImage, parseHeader_headerBytes, if_pos hdepth]

variable (hdepth : h.imageDepth ∈ Config.srcDepths) (hskip : skipCount h ≤ rest.length)
include hdepth hskip

theorem decodeImage_busy (hbusy : s.phase = .busy) :
    decodeImage allocates (headerBytes h ++ rest) ending s = .refused .hostAccessWhileBusy := by
  simp only [decodeImage, parseHeader_headerBytes, if_neg (not_not.2 hdepth), if_neg (Nat.not_lt.2 hskip), if_pos hbusy]

variable (hrest : s.phase ≠ .busy) (hwidth : h.imageWidth.toNat ≠ 0) (hheight : h.imageHeight.toNat ≠ 0)
include hrest hwidth hheight

/-- Past the checks the new Image of an unsupported type is released (R269). -/
theorem decodeImage_badType (htype : decodeCommandFor h.imageType = none) :
    decodeImage true (headerBytes h ++ rest) ending s =
      .error .unsupportedImageFormat 0
        (releaseImage (Config.canonBpp * (h.imageWidth.toNat * h.imageHeight.toNat)) s) := by
  simp only [decodeImage, parseHeader_headerBytes, if_neg (not_not.2 hdepth), if_neg (Nat.not_lt.2 hskip), if_neg hrest,
    sizeImage_ok hwidth hheight, CodecResult.bind_value, htype, List.length_replicate]

/-- Past the checks the call of a supported type that has data is what the command it starts reports (R252, R253). -/
theorem decodeImage_command {cmd : BitVec 8} (htype : decodeCommandFor h.imageType = some (some cmd)) :
    decodeImage true (headerBytes h ++ rest) ending s =
      report (imageOf h.imageWidth h.imageHeight)
        (perform
          (clearFirst s
            ++ [.allocPix, .presentIn (rest.drop (skipCount h)) ending, .writeWidth h.imageWidth,
              .writeHeight h.imageHeight, .writeDepth h.imageDepth, .writeCmd cmd])
          (h.imageWidth.toNat * h.imageHeight.toNat) s) := by
  simp only [decodeImage, parseHeader_headerBytes, if_neg (not_not.2 hdepth), if_neg (Nat.not_lt.2 hskip), if_neg hrest,
    sizeImage_ok hwidth hheight, CodecResult.bind_value, htype]

end Checks

/-- The Decoder supports the image types 0, 2 and 10 only (R253, R293). -/
theorem decodeCommandFor_eq_none_iff :
    ∀ b : BitVec 8, decodeCommandFor b = none ↔ b ≠ 0#8 ∧ b ≠ 2#8 ∧ b ≠ 10#8 := by decide

theorem mem_srcDepths_iff (d : Byte) : d ∈ Config.srcDepths ↔ d = 16#8 ∨ d = 24#8 ∨ d = 32#8 := by
  simp [Config.srcDepths]

/-- Settles O57, by `exists_headerBytes_eq` and `parseHeader_headerBytes`. -/
theorem headerParsesLittleEndian : Obligations.HeaderParsesLittleEndian := by
  refine fun bs => ⟨fun hlen rest => ?_, fun hlen => ⟨parseHeader_short hlen, fun _ _ => decodeImage_short hlen⟩⟩
  obtain ⟨h, rfl, hfields⟩ := exists_headerBytes_eq hlen
  exact ⟨h, parseHeader_headerBytes h rest, rfl, hfields⟩

/-- Settles O59, by the equation of `decodeImage` for each check. -/
theorem decoderChecksInOrder : Obligations.DecoderChecksInOrder := by
  refine ⟨fun _ _ hlen => decodeImage_short hlen, fun h rest s h16 h24 h32 => ?depth,
    fun h rest s hdepth hskip hrest hwidth hheight h0 h2 h10 => ?type,
    fun _ _ _ _ _ hdepth hskip hbusy => decodeImage_busy hdepth hskip hbusy⟩
  case depth => exact decodeImage_badDepth (mt (mem_srcDepths_iff _).1 (by simp [h16, h24, h32]))
  case type =>
    exact ⟨_, decodeImage_badType hdepth hskip hrest (BitVec.toNat_ne.1 hwidth) (BitVec.toNat_ne.1 hheight)
      ((decodeCommandFor_eq_none_iff _).2 ⟨h0, h2, h10⟩)⟩

/-! ### Opacity -/

theorem isOpaque_pixelBytes_append (p : Pixel) (bs : List Byte) :
    isOpaque (pixelBytes p ++ bs) = (p.a == 0xff#8 && isOpaque bs) := rfl

/-- Settles O58, by induction on the pixels. -/
theorem opaqueMeansAllAlphaFull : Obligations.OpaqueMeansAllAlphaFull := by
  intro ps
  induction ps with
  | nil => simp [isOpaque]
  | cons p ps ih =>
    rw [List.flatMap_cons, isOpaque_pixelBytes_append, Bool.and_eq_true, ih, beq_iff_eq, List.forall_mem_cons]

end Sys2Proof.Machine
end

section
/-! PROOFS. A codec call's command: its run to rest, what an encode takes of its sink, and the host's actions before it
(44_host_codec_context.md). -/

namespace Sys2Proof.Machine

open Sys2Proof.Safety

/-! ### Driving a command to rest -/

/-- A step of a running command leaves the host's queue and the reset input (R44). -/
theorem blockStep_plans {s t : State} (hb : s.phase = .busy) (hinv : SystemInv s) (h : blockStep s = .next t) :
    t.hostQueue = s.hostQueue ∧ t.resetIn = s.resetIn := by
  rcases blockStep_cases hinv.1 hb (hinv.2.1 hb) with ⟨u, hg, hu⟩ | ⟨f, k, info, hf, hfail, -⟩
  · rw [hu] at h
    cases h
    obtain ⟨-, -, -, -, -, -, -, hqueue, hreset⟩ := goesOn_fields hg
    exact ⟨(endStep_hostQueue u).trans hqueue, (endStep_resetIn u).trans hreset⟩
  · rw [hf] at h
    cases h
    obtain ⟨-, -, -, -, -, -, -, -, -, -, hqueue, hreset, -⟩ := hfail
    exact ⟨hqueue, hreset⟩

/-- A running command has a step (R44). -/
theorem exists_blockStep {s : State} (hb : s.phase = .busy) (hinv : SystemInv s) : ∃ t, blockStep s = .next t := by
  rcases blockStep_cases hinv.1 hb (hinv.2.1 hb) with ⟨u, -, hu⟩ | ⟨t, -, -, ht, -⟩
  · exact ⟨_, hu⟩
  · exact ⟨t, ht⟩

/-- With nothing pending, the drive to rest is the run of the command. -/
theorem drive_eq_runCommand {fuel : Nat} {s : State} (hinv : SystemInv s) (hr : s.resetIn = none) (hq : s.hostQueue = []) :
    drive fuel s = runCommand fuel s := by
  induction fuel generalizing s with
  | zero => rfl
  | succ fuel ih =>
    by_cases hb : s.phase = .busy
    · obtain ⟨t, ht⟩ := exists_blockStep hb hinv
      obtain ⟨hqueue, hreset⟩ := blockStep_plans hb hinv ht
      rw [drive_step hb hr ht, runCommand_step hr hb ht]
      exact ih (blockStep_systemInv hb hinv ht) (hreset.trans hr) (hqueue.trans hq)
    · rw [drive_rest hb hq, runCommand_rest hb]

/-- A command started in a ready state meets the invariant. -/
theorem openCommand_systemInv_of_ready {i : Instr} {op : BitVec 3} {s : State} (hi : (i, op) ∈ transferCommands)
    (h : ReadyFor op s) : SystemInv (openCommand op s) := by
  have hres := reservedOp_of_transfer hi
  obtain ⟨-, -, hop⟩ := exec_transfer hi s
  obtain ⟨-, -, hw, hwidth, hheight, hd⟩ := h
  exact openCommand_systemInv hw (by rcases hop with h | h | h | h <;> rw [h] <;> decide) hres hd hwidth hheight

/-- From a ready state the run of a command is the run of its start. -/
theorem runCommand_of_runsTo {i : Instr} {op : BitVec 3} {s t : State} (hi : (i, op) ∈ transferCommands)
    (hready : ReadyFor op s) (h : RunsTo i s t) : runCommand s.pixels (openCommand op s) = .next t := by
  obtain ⟨b, hb, -, hrun, -⟩ := h
  obtain rfl : openCommand op s = b := by simpa [exec_ready hi hready] using hb
  exact hrun

/-- A command that runs to an end is driven to it. -/
theorem drive_of_runsTo {i : Instr} {op : BitVec 3} {s t : State} (hi : (i, op) ∈ transferCommands)
    (hready : ReadyFor op s) (hq : s.hostQueue = []) (h : RunsTo i s t) :
    drive s.pixels (openCommand op s) = .next t := by
  have hrun := runCommand_of_runsTo hi hready h
  have hinv := openCommand_systemInv_of_ready hi hready
  obtain ⟨-, hr, -⟩ := hready
  exact (drive_eq_runCommand hinv hr hq).trans hrun

/-! ### What an encode takes of its sink -/

/-- `bs` was appended to OUT and taken off its collaborator's room (R65; log 9). -/
def Appended (bs : List Byte) (s t : State) : Prop := t.outBytes = s.outBytes ++ bs ∧ t.outRoom = roomAfter bs.length s

theorem Appended.refl (s : State) : Appended [] s s := by
  refine ⟨(List.append_nil _).symm, ?_⟩
  simp [roomAfter]

theorem Appended.trans {bs cs : List Byte} {s t u : State} (hst : Appended bs s t) (htu : Appended cs t u) :
    Appended (bs ++ cs) s u := by
  obtain ⟨hout, hroom⟩ := hst
  obtain ⟨hout', hroom'⟩ := htu
  refine ⟨by rw [hout', hout, List.append_assoc], ?_⟩
  rw [hroom', roomAfter, hroom, roomAfter, roomAfter, Option.map_map, List.length_append]
  congr 1
  funext r
  simp [Nat.sub_sub]

/-- A step of an encode command appends bytes or fails (R65). -/
theorem blockStep_appended {s t : State} (hb : s.phase = .busy) (hinv : SystemInv s) (ho : s.op = 3#3 ∨ s.op = 4#3)
    (h : blockStep s = .next t) : t.phase = .failed ∨ (t.op = s.op ∧ ∃ bs, Appended bs s t) := by
  rcases blockStep_cases hinv.1 hb (hinv.2.1 hb) with ⟨u, hg, hu⟩ | ⟨f, k, info, hf, hfail, -⟩
  · rw [hu] at h
    cases h
    obtain ⟨hop, -⟩ := goesOn_fields hg
    rcases hg with ⟨hdec, -⟩ | ⟨-, n, bs, w, tg, rfl, -⟩
    · rcases ho with ho | ho <;> simp [ho] at hdec
    · exact .inr ⟨(endStep_op _).trans hop, bs, endStep_outBytes _, endStep_outRoom _⟩
  · rw [hf] at h
    cases h
    exact .inl hfail.1

/-- An encode command that ends with `DONE` has appended bytes to OUT and taken their number off its room (R65). -/
theorem runCommand_appended {fuel : Nat} {s t : State} (hinv : SystemInv s) (hr : s.resetIn = none)
    (ho : s.op = 3#3 ∨ s.op = 4#3) (h : runCommand fuel s = .next t) (hdone : t.phase = .done) :
    ∃ bs, Appended bs s t := by
  induction fuel generalizing s with
  | zero =>
    cases h
    exact ⟨[], .refl _⟩
  | succ fuel ih =>
    by_cases hb : s.phase = .busy
    · obtain ⟨u, hu⟩ := exists_blockStep hb hinv
      rw [runCommand_step hr hb hu] at h
      rcases blockStep_appended hb hinv ho hu with hfailed | ⟨hop, bs, hbs⟩
      · rw [runCommand_rest (by simp [hfailed])] at h
        cases h
        simp [hfailed] at hdone
      · obtain ⟨-, hreset⟩ := blockStep_plans hb hinv hu
        obtain ⟨cs, hcs⟩ := ih (blockStep_systemInv hb hinv hu) (hreset.trans hr) (hop ▸ ho) h
        exact ⟨bs ++ cs, hbs.trans hcs⟩
    · rw [runCommand_rest hb] at h
      cases h
      exact ⟨[], .refl _⟩

theorem roomHolds_left {n m : Nat} {room : Option (Nat × ErrWord)} (h : roomHolds (n + m) room) : roomHolds n room :=
  fun r hr => (Nat.le_add_right n m).trans (h r hr)

theorem roomHolds_roomAfter {n m : Nat} {s : State} (h : roomFor (n + m) s) : roomHolds m (roomAfter n s) := by
  intro r hr
  obtain ⟨q, hq, rfl⟩ := Option.map_eq_some_iff.1 hr
  exact Nat.le_sub_of_add_le' (h q hq)

/-- The room that an encode command leaves is what the bytes it appended leave (R65). -/
theorem runsTo_outRoom {i : Instr} {op : BitVec 3} {s t : State} {out : List Byte} (hi : (i, op) ∈ transferCommands)
    (ho : op = 3#3 ∨ op = 4#3) (hready : ReadyFor op s) (h : RunsTo i s t) (hdone : t.phase = .done)
    (hout : t.outBytes = s.outBytes ++ out) : t.outRoom = roomAfter out.length s := by
  have hrun := runCommand_of_runsTo hi hready h
  have hinv := openCommand_systemInv_of_ready hi hready
  obtain ⟨-, hr, -⟩ := hready
  obtain ⟨bs, happended, hroom⟩ := runCommand_appended hinv hr ho hrun hdone
  obtain rfl : bs = out := List.append_cancel_left (happended.symm.trans hout)
  exact hroom

/-! ### A call's way to the start of its command -/

/-- An action of the host at rest is one step of the call. -/
theorem perform_cons {a : HostAction} {acts : List HostAction} {n : Nat} {s t : State} (hb : s.phase ≠ .busy)
    (hr : s.resetIn = none) (ha : hostAct a { s with hostQueue := acts } = .next { t with hostQueue := acts }) :
    perform (a :: acts) n s = perform acts n t := by
  rw [perform, List.length_cons, Nat.add_right_comm]
  exact drive_host (s := { s with hostQueue := a :: acts }) hb hr rfl ha

theorem hostAct_clr {s : State} (hb : s.phase ≠ .busy) : hostAct (.writeCmd 0) s = .next (clearRegisters s) :=
  (hostAct_writeCmd hb 0).trans ((writeCommand_eq hb 0).trans (if_pos rfl))

/-- In a ready state the write of a transfer command's code starts it (R46). -/
theorem hostAct_ready {i : Instr} {cmd : BitVec 8} {s : State} (hi : (i, commandOp cmd) ∈ transferCommands)
    (hready : ReadyFor (commandOp cmd) s) : hostAct (.writeCmd cmd) s = .next (openCommand (commandOp cmd) s) := by
  obtain ⟨-, -, hop⟩ := exec_transfer hi s
  obtain ⟨hp, -, -, hw, hh, hd⟩ := hready
  have hb : s.phase ≠ .busy := by rcases hp with hp | hp <;> simp [hp]
  have hf : s.phase ≠ .failed := by rcases hp with hp | hp <;> simp [hp]
  have hclr : commandOp cmd ≠ 0#3 := by rcases hop with h | h | h | h <;> rw [h] <;> decide
  rw [hostAct_writeCmd hb, writeCommand_eq hb, if_neg hclr, if_neg hf, startCommand_ok hop hd hw hh]

/-- The block after the `CLR` that a call begins with where the last command has failed (R335, R336). -/
def afterClear (s : State) : State := if s.phase = .failed then clearRegisters s else s

theorem afterClear_rest {s : State} (hb : s.phase ≠ .busy) :
    (afterClear s).phase = .idle ∨ (afterClear s).phase = .done := by
  unfold afterClear
  split
  · exact .inl rfl
  · exact idle_or_done hb ‹_›

theorem afterClear_ne_busy {s : State} (hb : s.phase ≠ .busy) : (afterClear s).phase ≠ .busy := by
  rcases afterClear_rest hb with h | h <;> simp [h]

theorem afterClear_resetIn (s : State) : (afterClear s).resetIn = s.resetIn := by
  unfold afterClear
  split <;> rfl

theorem perform_clearFirst {acts : List HostAction} {n : Nat} {s : State} (hb : s.phase ≠ .busy) (hr : s.resetIn = none) :
    perform (clearFirst s ++ acts) n s = perform acts n (afterClear s) := by
  by_cases hf : s.phase = .failed
  · rw [clearFirst, afterClear, if_pos hf, if_pos hf]
    exact perform_cons hb hr (hostAct_clr hb)
  · rw [clearFirst, afterClear, if_neg hf, if_neg hf, List.nil_append]

/-- The block with its configuration registers written and no action left (R335). -/
def configured (w h : BitVec 16) (d : Byte) (s : State) : State :=
  { s with width := w, height := h, depth := d, hostQueue := [] }

/-- The configuration and the command that every call writes after the streams and the buffer (R335). -/
theorem perform_configured {i : Instr} {cmd : BitVec 8} {w h : BitVec 16} {d : Byte} {n : Nat} {s : State}
    (hi : (i, commandOp cmd) ∈ transferCommands) (hb : s.phase ≠ .busy) (hr : s.resetIn = none)
    (hready : ReadyFor (commandOp cmd) (configured w h d s)) :
    perform [.writeWidth w, .writeHeight h, .writeDepth d, .writeCmd cmd] n s =
      drive n (openCommand (commandOp cmd) (configured w h d s)) := by
  calc perform [.writeWidth w, .writeHeight h, .writeDepth d, .writeCmd cmd] n s
    _ = perform [.writeHeight h, .writeDepth d, .writeCmd cmd] n { s with width := w } := perform_cons hb hr (if_neg hb)
    _ = perform [.writeDepth d, .writeCmd cmd] n { s with width := w, height := h } := perform_cons hb hr (if_neg hb)
    _ = perform [.writeCmd cmd] n { s with width := w, height := h, depth := d } := perform_cons hb hr (if_neg hb)
    _ = perform [] n (openCommand (commandOp cmd) (configured w h d s)) := perform_cons hb hr (hostAct_ready hi hready)
    _ = _ := by rw [perform, List.length_nil, Nat.zero_add]; rfl

/-! The buffer and the stream of a call, before its configuration (R335). -/

section Spaces

variable {acts : List HostAction} {n : Nat} {s : State} (hb : s.phase ≠ .busy) (hr : s.resetIn = none)
include hb hr

theorem perform_loadPix_presentOut {pixels out : List Byte} {room : Option (Nat × ErrWord)} :
    perform (.loadPix pixels :: .presentOut out room :: acts) n s =
      perform acts n { s with pix := Memory.store [] 0 pixels, outBytes := out, outRoom := room } := by
  refine Eq.trans (perform_cons (t := { s with pix := Memory.store [] 0 pixels }) hb hr (if_neg hb)) ?_
  exact perform_cons hb hr (if_neg hb)

theorem perform_allocPix_presentIn {bytes : List Byte} {ending : Option ErrWord} :
    perform (.allocPix :: .presentIn bytes ending :: acts) n s =
      perform acts n { s with pix := [], inBytes := bytes, inEnd := ending } := by
  refine Eq.trans (perform_cons (t := { s with pix := [] }) hb hr (if_neg hb)) ?_
  exact perform_cons hb hr (if_neg hb)

end Spaces

end Sys2Proof.Machine
end

section
/-! PROOFS. The codec's round trip: the pixel data as one stream for both encodings, the image in the slots, and the calls
assembled from them (44_host_codec_context.md). -/

namespace Sys2Proof.Machine

open Sys2Proof.Safety

/-! ### The pixel data -/

/-- The command of `encodeCommand` (R263). -/
def encodeInstr (compress : Bool) : Instr := if compress then .encRle else .encDirect

/-- The command that decodes what `encodeInstr` writes (R253). -/
def decodeInstr (compress : Bool) : Instr := if compress then .decRle else .decDirect

/-- The code of `decodeInstr` that the Decoder writes (R253). -/
def decodeCommand (compress : Bool) : BitVec 8 := if compress then 2 else 1

theorem encodeInstr_mem : ∀ compress, (encodeInstr compress, commandOp (encodeCommand compress)) ∈ transferCommands := by
  decide

theorem decodeInstr_mem : ∀ compress, (decodeInstr compress, commandOp (decodeCommand compress)) ∈ transferCommands := by
  decide

theorem decodeCommandFor_encodeType : ∀ compress,
    decodeCommandFor (encodeType compress) = some (some (decodeCommand compress)) := by decide

theorem encodeOp_cases : ∀ compress,
    commandOp (encodeCommand compress) = 3#3 ∨ commandOp (encodeCommand compress) = 4#3 := by decide

theorem depthOk_encode (compress : Bool) (i : Image) :
    depthOk (commandOp (encodeCommand compress)) (encodeDepth i) = true := by
  unfold encodeDepth
  revert compress
  cases isOpaque i.pixels <;> decide

theorem depthOk_decode (compress : Bool) (i : Image) :
    depthOk (commandOp (decodeCommand compress)) (encodeDepth i) = true := by
  unfold encodeDepth
  revert compress
  cases isOpaque i.pixels <;> decide

/-- `out` is the image in `s` as an encode command writes it, into every sink with room for it, and the decode command of the
same kind gets the image back through `DEPTH` (R206, R225). -/
structure PixelData (compress : Bool) (s : State) (out : List Byte) : Prop where
  encoded : ∀ room, roomHolds out.length room →
    ∃ t, RunsTo (encodeInstr compress) { s with outRoom := room } t ∧ t.phase = .done ∧ t.outBytes = s.outBytes ++ out
  decoded : ∀ (u : State) (rest : List Byte), ReadyFor (commandOp (decodeCommand compress)) u → u.width = s.width →
    u.height = s.height → u.depth = s.depth → u.inBytes = out ++ rest →
    ∃ v, RunsTo (decodeInstr compress) u v ∧ v.phase = .done
      ∧ ∀ j, j < s.pixels → v.slot j = throughDepth s.depth (s.slot j)

theorem pixelData_rle {s : State} (hready : ReadyFor 4#3 s) : ∃ out, PixelData true s out := by
  obtain ⟨out, henc, hdec⟩ := rleRoundTrip s hready
  refine ⟨out, fun room hroom => ?_, fun u rest hu hw hh hd hin => ?_⟩
  · obtain ⟨t, hruns, hdone, hout, -⟩ := henc room hroom
    exact ⟨t, hruns, hdone, hout⟩
  · obtain ⟨v, hruns, hdone, -, -, hslots⟩ := hdec u rest hu hw hh hd hin
    exact ⟨v, hruns, hdone, hslots⟩

/-- What `DEC_DIRECT` gets back from one sink it gets back from all: O37 gives the bytes that O42 leaves unnamed. -/
theorem pixelData_direct {s : State} (hready : ReadyFor 3#3 s) : ∃ out, PixelData false s out := by
  have hd := dstDepth_of_readyDirect hready
  refine ⟨wireBytes s.bpp (slots s 0 s.pixels), fun room hroom => ?_, fun u rest hu hw hh hdepth hin => ?_⟩
  · rw [wireBytes_length (bpp_of_targetDepth hd), slots_length] at hroom
    obtain ⟨t, hruns, hdone, hout, -⟩ := directEncodeWritesImage { s with outRoom := room } hready hroom
    exact ⟨t, hruns, hdone, hout⟩
  · have hroom : roomFor (s.pixels * s.bpp) { s with outRoom := none } := fun r hr => by cases hr
    obtain ⟨t, hruns, -, hout, -⟩ := directEncodeWritesImage { s with outRoom := none } hready hroom
    obtain ⟨t', out, hruns', -, hout', hdec⟩ := directRoundTrip { s with outRoom := none } hready hroom
    obtain rfl : t = t' := runsTo_unique hruns hruns'
    obtain rfl := List.append_cancel_left (hout'.symm.trans hout)
    obtain ⟨v, hv, hdone, -, -, hslots⟩ := hdec u rest hu hw hh hdepth hin
    exact ⟨v, hv, hdone, hslots⟩

theorem exists_pixelData (compress : Bool) {s : State} (hready : ReadyFor (commandOp (encodeCommand compress)) s) :
    ∃ out, PixelData compress s out := by
  cases compress with
  | false => exact pixelData_direct hready
  | true => exact pixelData_rle hready

/-! ### The image in the slots -/

/-- The bytes of PIX from 0 on are those of its slots in order (R66). -/
theorem load_eq_slots (s : State) (i n : Nat) :
    Memory.load s.pix (4 * i) (4 * n) = (slots s i n).flatMap pixelBytes := by
  induction n generalizing i with
  | zero => rfl
  | succ n ih =>
    rw [slots_succ, List.flatMap_cons, ← ih (i + 1)]
    rfl

/-- The depth that the Encoder selects loses nothing of the image's pixels (R206, R261). -/
theorem throughDepth_encodeDepth {i : Image} {ps : List Pixel} (hpix : i.pixels = ps.flatMap pixelBytes) :
    ∀ p ∈ ps, throughDepth (encodeDepth i) p = p := by
  intro p hp
  by_cases hopaque : isOpaque i.pixels = true
  · have ha : p.a = 0xff#8 := (opaqueMeansAllAlphaFull ps).1 (hpix ▸ hopaque) p hp
    rw [throughDepth, ← ha]
    exact ite_self p
  · have hdepth : encodeDepth i = 32#8 := if_neg hopaque
    rw [throughDepth, hdepth, if_neg (by decide)]

theorem imageFits_toNat {img : Image} (h : imageFits img = true) :
    (BitVec.ofNat 16 img.width).toNat = img.width ∧ (BitVec.ofNat 16 img.height).toNat = img.height := by
  simp only [imageFits, Bool.and_eq_true, decide_eq_true_eq] at h
  simp only [BitVec.toNat_ofNat, Nat.mod_eq_of_lt h.1, Nat.mod_eq_of_lt h.2, and_self]

theorem imageOk_iff {img : Image} :
    imageOk img = true ↔ img.width ≠ 0 ∧ img.height ≠ 0 ∧ img.pixels.length = 4 * (img.width * img.height) := by
  rw [imageOk, Bool.and_eq_true, Bool.and_eq_true, decide_eq_true_iff, decide_eq_true_iff, decide_eq_true_iff,
    Nat.pos_iff_ne_zero, Nat.pos_iff_ne_zero, and_assoc]
  rfl

/-- The block as an encode call has set it up for `img` when it writes `CMD` (R335). -/
def encodeSetup (img : Image) (out : List Byte) (room : Option (Nat × ErrWord)) (s : State) : State :=
  configured (BitVec.ofNat 16 img.width) (BitVec.ofNat 16 img.height) (encodeDepth img)
    { s with pix := Memory.store [] 0 img.pixels, outBytes := out, outRoom := room }

/-- The block as a decode call has set it up for a file of `img` when it writes `CMD` (R335). -/
def decodeSetup (img : Image) (bytes : List Byte) (s : State) : State :=
  configured (BitVec.ofNat 16 img.width) (BitVec.ofNat 16 img.height) (encodeDepth img)
    { s with pix := [], inBytes := bytes, inEnd := none }

/-- The header that the Encoder writes (R262). -/
def imageHeader (img : Image) (compress : Bool) : Header where
  idLen := 0
  colormapType := 0
  imageType := encodeType compress
  colormapOffset := 0
  colormapLength := 0
  colormapDepth := 0
  imageX := 0
  imageY := 0
  imageWidth := BitVec.ofNat 16 img.width
  imageHeight := BitVec.ofNat 16 img.height
  imageDepth := encodeDepth img
  imageDescriptor := 0

theorem skipCount_imageHeader (img : Image) (compress : Bool) : skipCount (imageHeader img compress) = 0 := by
  simp [skipCount, imageHeader]

theorem encodeDepth_mem (img : Image) : encodeDepth img ∈ Config.srcDepths := by
  unfold encodeDepth
  split <;> decide

theorem encodeHeader_eq (img : Image) (compress : Bool) :
    encodeHeader img compress = headerBytes (imageHeader img compress) := rfl

section Calls

variable {img : Image} {compress : Bool} {s : State} {out : List Byte}
variable (hok : imageOk img = true) (hfits : imageFits img = true)
include hok hfits

theorem toNat_dimensions_ne_zero :
    (BitVec.ofNat 16 img.width).toNat ≠ 0 ∧ (BitVec.ofNat 16 img.height).toNat ≠ 0 := by
  obtain ⟨hw, hh⟩ := imageFits_toNat hfits
  obtain ⟨hwidth, hheight, -⟩ := imageOk_iff.1 hok
  exact ⟨hw.symm ▸ hwidth, hh.symm ▸ hheight⟩

theorem encodeSetup_ready {room : Option (Nat × ErrWord)} (hp : s.phase = .idle ∨ s.phase = .done)
    (hr : s.resetIn = none) : ReadyFor (commandOp (encodeCommand compress)) (encodeSetup img out room s) := by
  obtain ⟨hw, hh⟩ := toNat_dimensions_ne_zero hok hfits
  exact ⟨hp, hr, Memory.store_wf Memory.wf_nil _ _, BitVec.toNat_ne.2 hw, BitVec.toNat_ne.2 hh, depthOk_encode ..⟩

theorem decodeSetup_ready {bytes : List Byte} (hp : s.phase = .idle ∨ s.phase = .done) (hr : s.resetIn = none) :
    ReadyFor (commandOp (decodeCommand compress)) (decodeSetup img bytes s) := by
  obtain ⟨hw, hh⟩ := toNat_dimensions_ne_zero hok hfits
  exact ⟨hp, hr, Memory.wf_nil, BitVec.toNat_ne.2 hw, BitVec.toNat_ne.2 hh, depthOk_decode ..⟩

omit hok in
theorem encodeSetup_pixels {room : Option (Nat × ErrWord)} :
    (encodeSetup img out room s).pixels = img.width * img.height := by
  obtain ⟨hw, hh⟩ := imageFits_toNat hfits
  exact congrArg₂ _ hw hh

omit hfits in
/-- The image's bytes are those of the slots they were loaded into. -/
theorem pixels_eq_slots {room : Option (Nat × ErrWord)} :
    img.pixels = (slots (encodeSetup img out room s) 0 (img.width * img.height)).flatMap pixelBytes := by
  obtain ⟨-, -, hlen⟩ := imageOk_iff.1 hok
  rw [← load_eq_slots, ← hlen]
  exact (Memory.load_store Memory.wf_nil 0 img.pixels).symm

/-- The Image read from slots that hold what an encode had in its own is that encode's image. -/
theorem imageOf_eq {room : Option (Nat × ErrWord)} {v : State}
    (h : ∀ j, j < img.width * img.height → v.slot j = (encodeSetup img out room s).slot j) :
    imageOf (BitVec.ofNat 16 img.width) (BitVec.ofNat 16 img.height) v = img := by
  obtain ⟨hw, hh⟩ := imageFits_toNat hfits
  have hslots : slots v 0 (img.width * img.height) = slots (encodeSetup img out room s) 0 (img.width * img.height) :=
    List.map_congr_left fun j hj => h j (by simpa using hj)
  have hload : Memory.load v.pix 0 (4 * (img.width * img.height)) = img.pixels := by
    rw [pixels_eq_slots hok (s := s) (out := out) (room := room), ← hslots]
    exact load_eq_slots v 0 _
  simp only [imageOf, hw, hh, Config.canonBpp, hload]

end Calls

/-! ### The calls -/

/-- The header goes to a new OUT, and the sink has the room that 18 bytes leave (R262). -/
theorem writeHeader_ok {img : Image} {compress : Bool} {room : Option (Nat × ErrWord)} {m : Nat} (s : State)
    (h : roomHolds (18 + m) room) :
    ∃ t, writeHeader img compress room s = .value () t ∧ t.outBytes = encodeHeader img compress ∧ roomFor m t := by
  rw [writeHeader, hostAppend_ok (b := encodeHeader img compress) (roomHolds_left h)]
  exact ⟨_, rfl, rfl, roomHolds_roomAfter (s := { s with outRoom := room }) h⟩

theorem writeFooter_ok {s : State} (h : roomFor 26 s) : ∃ t, writeFooter s = .value (s.outBytes ++ footer) t := by
  rw [writeFooter, hostAppend_ok (b := footer) h]
  exact ⟨_, rfl⟩

section Setups

variable {n : Nat} {s : State} (hb : s.phase ≠ .busy) (hr : s.resetIn = none)
variable {i : Instr} {cmd : BitVec 8} {img : Image} (hi : (i, commandOp cmd) ∈ transferCommands)
include hb hr hi

theorem perform_encodeSetup {out : List Byte} {room : Option (Nat × ErrWord)}
    (hready : ReadyFor (commandOp cmd) (encodeSetup img out room s)) :
    perform
        [.loadPix img.pixels, .presentOut out room, .writeWidth (BitVec.ofNat 16 img.width),
          .writeHeight (BitVec.ofNat 16 img.height), .writeDepth (encodeDepth img), .writeCmd cmd] n s =
      drive n (openCommand (commandOp cmd) (encodeSetup img out room s)) :=
  (perform_loadPix_presentOut hb hr).trans (perform_configured hi hb hr hready)

theorem perform_decodeSetup {bytes : List Byte} (hready : ReadyFor (commandOp cmd) (decodeSetup img bytes s)) :
    perform
        [.allocPix, .presentIn bytes none, .writeWidth (BitVec.ofNat 16 img.width),
          .writeHeight (BitVec.ofNat 16 img.height), .writeDepth (encodeDepth img), .writeCmd cmd] n s =
      drive n (openCommand (commandOp cmd) (decodeSetup img bytes s)) :=
  (perform_allocPix_presentIn hb hr).trans (perform_configured hi hb hr hready)

end Setups

section RoundTrip

variable {img : Image} {compress : Bool} {s : State} {out : List Byte}
variable (hok : imageOk img = true) (hfits : imageFits img = true)
include hok hfits

/-- An encode call writes header, pixel data and footer into every sink with room for them (R260 to R264). -/
theorem encodeImage_file {room : Option (Nat × ErrWord)} (hb : s.phase ≠ .busy) (hr : s.resetIn = none)
    (hdata : PixelData compress (encodeSetup img (encodeHeader img compress) none (afterClear s)) out)
    (hroom : roomHolds (18 + (out.length + 26)) room) :
    ∃ t, encodeImage img compress room s = .value (encodeHeader img compress ++ out ++ footer) t := by
  have hi := encodeInstr_mem compress
  have hp := afterClear_rest hb
  have hr' := (afterClear_resetIn s).trans hr
  have hready := fun room => encodeSetup_ready (compress := compress) (out := encodeHeader img compress) (room := room)
    hok hfits hp hr'
  obtain ⟨h, hheader, hhdr, hleft⟩ := writeHeader_ok (img := img) (compress := compress) s hroom
  obtain ⟨t, hruns, hdone, hout⟩ := hdata.encoded h.outRoom (roomHolds_left hleft)
  have hdrive := drive_of_runsTo hi (hready h.outRoom) rfl hruns
  rw [encodeSetup_pixels hfits] at hdrive
  have hfooterFits : roomFor 26 t := by
    rw [roomFor, runsTo_outRoom hi (encodeOp_cases compress) (hready h.outRoom) hruns hdone hout]
    exact roomHolds_roomAfter (s := encodeSetup img (encodeHeader img compress) h.outRoom (afterClear s)) hleft
  obtain ⟨v, hfooter⟩ := writeFooter_ok hfooterFits
  refine ⟨v, ?_⟩
  rw [encodeImage, if_neg (by simp [hok, hfits]), if_neg hb, hheader, CodecResult.bind_value, perform_clearFirst hb hr,
    hhdr, perform_encodeSetup (afterClear_ne_busy hb) hr' hi (hready h.outRoom), hdrive, report_done hdone,
    CodecResult.bind_value, hfooter, hout]
  rfl

/-- A decode call on a file of the image returns the image (R250 to R253). -/
theorem decodeImage_file {u : State} {room : Option (Nat × ErrWord)} {hdr : List Byte} (hu : u.phase ≠ .busy)
    (hr : u.resetIn = none) (hdata : PixelData compress (encodeSetup img hdr room s) out) :
    ∃ v, decodeImage true (encodeHeader img compress ++ out ++ footer) none u = .value img v := by
  have hi := decodeInstr_mem compress
  have hp := afterClear_rest hu
  have hr' := (afterClear_resetIn u).trans hr
  have hready := decodeSetup_ready (compress := compress) (bytes := out ++ footer) hok hfits hp hr'
  obtain ⟨hw, hh⟩ := toNat_dimensions_ne_zero hok hfits
  obtain ⟨v, hruns, hdone, hslots⟩ := hdata.decoded _ footer hready rfl rfl rfl rfl
  rw [encodeSetup_pixels hfits] at hslots
  have hdrive := drive_of_runsTo hi hready rfl hruns
  have hsame := throughDepth_encodeDepth (pixels_eq_slots hok (s := s) (out := hdr) (room := room))
  have himage : imageOf (BitVec.ofNat 16 img.width) (BitVec.ofNat 16 img.height) v = img :=
    imageOf_eq hok hfits (s := s) (out := hdr) (room := room) fun j hj =>
      (hslots j hj).trans (hsame _ (List.mem_map.2 ⟨j, by simpa using hj, rfl⟩))
  refine ⟨v, ?_⟩
  have hskip : skipCount (imageHeader img compress) ≤ (out ++ footer).length :=
    (skipCount_imageHeader img compress).trans_le (Nat.zero_le _)
  rw [encodeHeader_eq, List.append_assoc, decodeImage_command (encodeDepth_mem img) hskip hu hw hh
    (decodeCommandFor_encodeType compress), skipCount_imageHeader, List.drop_zero, perform_clearFirst hu hr]
  refine Eq.trans (congrArg _ ((perform_decodeSetup (afterClear_ne_busy hu) hr' hi hready).trans hdrive)) ?_
  rw [report_done hdone]
  exact congrArg₂ _ himage rfl

end RoundTrip

/-- Settles O60: the file is the header, the image's pixel data in its depth, and the footer. -/
theorem codecRoundTrip : Obligations.CodecRoundTrip := by
  intro img compress s hok hfits hb hr
  obtain ⟨out, hdata⟩ := exists_pixelData compress (encodeSetup_ready (out := encodeHeader img compress) (room := none)
    hok hfits (afterClear_rest hb) ((afterClear_resetIn s).trans hr))
  refine ⟨encodeHeader img compress ++ out ++ footer, fun room hroom => ?_, fun u hu hu' =>
    decodeImage_file hok hfits hu hu' hdata⟩
  have hlen : (encodeHeader img compress ++ out ++ footer).length = 18 + (out.length + 26) := by
    rw [List.append_assoc, List.length_append, List.length_append]
    rfl
  exact encodeImage_file hok hfits hb hr hdata (hlen ▸ hroom)

end Sys2Proof.Machine
end

section
/-! PROOFS. What a failing step of a running command leaves (60_exceptions.md). -/

namespace Sys2Proof.Machine

open Sys2Proof.Safety

/-- The end of a step that goes on is never a failure: the phase stays `BUSY` or becomes `DONE` (R36). -/
theorem endStep_phase_ne_failed {s u : State} (hb : s.phase = .busy) (hg : GoesOn s u) : (endStep u).phase ≠ .failed := by
  obtain ⟨-, -, -, -, uphase, -⟩ := goesOn_fields hg
  rw [endStep_phase, uphase, hb]
  split <;> simp

/-- A step of a running command that ends in `FAILED` took the exception of a kind that the block raises (R300, R301). -/
theorem blockStep_failedFrom {s t : State} (hb : s.phase = .busy) (hinv : SystemInv s) (h : blockStep s = .next t)
    (hfailed : t.phase = .failed) : ∃ (k : ErrorKind) (info : ErrWord), k.raisedByBlock = true ∧ FailedFrom k info s t ∧
      (k ≠ .streamError → info = 0) := by
  rcases blockStep_cases hinv.1 hb (hinv.2.1 hb) with ⟨u, hg, hu⟩ | ⟨f, k, info, hf, hfail, -, hk, hinfo⟩
  · rw [hu] at h
    cases h
    exact absurd hfailed (endStep_phase_ne_failed hb hg)
  · rw [hf] at h
    cases h
    exact ⟨k, info, hk, hfail, hinfo⟩

/-- Settles O49: the step is the block's, one countdown later; `blockStep_failedFrom` says what it took and left, and
`blockStep_source` that an encode command left PIX. -/
theorem failureLeavesConfiguration : Obligations.FailureLeavesConfiguration := by
  intro s t hinv hb hr h hfailed
  rw [step_of_not_due hr, if_pos hb] at h
  refine ⟨blockStep_failedFrom (s := countDown s) hb (systemInv_countDown hinv) h hfailed, fun ho => ?_⟩
  obtain ⟨-, -, hpix⟩ := blockStep_source (s := countDown s) hb ho h
  exact hpix

end Sys2Proof.Machine
end

section
/-! PROOFS. The platform's reset, and the step of a block at rest with nothing pending (70_reset_and_hazards.md). -/

namespace Sys2Proof.Machine

/-! ### The platform's reset -/

/-- The free values of a voided PIX stand in slots `0 .. N−1` only (R332). -/
theorem voidPix_get_outside {s : State} (h : Memory.wf s.pix) {a : Nat} (ha : 4 * s.pixels ≤ a) :
    Memory.get (voidPix s).pix a = Memory.get s.pix a :=
  (Memory.get_fill h _ _ a).trans (if_neg (Nat.not_lt.mpr ha))

/-- Every register of R38 reads 0 after the reset (R330). -/
theorem readReg_platformReset (r : Reg) (s : State) : readReg r (platformReset s) = 0#64 := by cases r <;> rfl

/-- The reset touches neither stream and leaves the host's plans (R330; log 11). -/
theorem platformReset_streams (s : State) :
    (platformReset s).inBytes = s.inBytes ∧ (platformReset s).inEnd = s.inEnd ∧ (platformReset s).outBytes = s.outBytes ∧
      (platformReset s).outRoom = s.outRoom ∧ (platformReset s).hostQueue = s.hostQueue := by
  unfold platformReset
  split
  · exact ⟨rfl, rfl, rfl, rfl, rfl⟩
  · exact ⟨rfl, rfl, rfl, rfl, rfl⟩

/-- The only PIX bytes a reset voids are those of a decode in progress (R332). -/
theorem platformReset_pix (s : State) :
    (platformReset s).pix = if s.phase = .busy ∧ (s.op = 1#3 ∨ s.op = 2#3) then (voidPix s).pix else s.pix :=
  apply_ite State.pix _ _ _

/-- Settles O52: the step is the reset, which clears the registers and voids at most the slots of a decode. -/
theorem platformResetClears : Obligations.PlatformResetClears := by
  intro s hw hr
  obtain ⟨hin, hend, hout, hroom, hqueue⟩ := platformReset_streams s
  refine ⟨platformReset s, step_of_due hr, fun r => readReg_platformReset r s, rfl, rfl, hin, hend, hout, hroom, hqueue,
    fun hkept => ?_, fun a ha => ?_⟩
  · have hnoDecode : ¬(s.phase = .busy ∧ (s.op = 1#3 ∨ s.op = 2#3)) := by tauto
    rw [platformReset_pix, if_neg hnoDecode]
  · rw [platformReset_pix]
    split
    · exact voidPix_get_outside hw ha
    · rfl

/-! ### The block at rest -/

/-- Settles O51: with no reset pending the step is the host's, whose queue is empty. -/
theorem idleDoesNothing : Obligations.IdleDoesNothing := by
  intro s hb hq hr
  rw [step_of_not_due (by simp [hr]), if_neg hb, countDown_of_none hr, hostStep, hq]

end Sys2Proof.Machine
end
